-- ==== Sys2Proof/Word.lean ====
section
/-! DEFINITION. The word types of the gfroerli protocol block: 32-bit registers (R21), 8-bit buffer
bytes and serial characters (R61, R100), and the 64-bit microsecond time base (R44). -/
namespace Sys2Proof

/-- A host-visible register's contents (R21). -/
abbrev Word := BitVec 32

/-- A buffer byte, a serial character or a bus byte (R61, R100). -/
abbrev Byte := BitVec 8

/-- The time base TIME_US: microseconds modulo 2^64 (R44). -/
abbrev Time := BitVec 64

end Sys2Proof
end

