-- ==== Sys2Proof/Syntax.lean ====
section
/-! DEFINITION. The instructions: one constructor for each of the 24 rows of spec/opcode_table.json
(log 30). Twenty-one rows are words the host writes to CMD (R80, R82), three are the command bytes
the sequencer sends to the sensor (R93). Numeric operands stand in ARG0 and ARG1 and byte strings in
buffers (R81, R84), so only MODE and CONF are operands in the syntax. -/
namespace Sys2Proof

/-- CMD.MODE, the activation mode of JOIN (R80, R201). -/
inductive JoinMode where
  | otaa
  | abp
deriving DecidableEq, Repr

/-- The opcode table's rows. -/
inductive Instr where
  /-- `bus.reset`, R121 -/
  | busReset
  /-- `bus.wbit`, R123 -/
  | busWbit
  /-- `bus.rbit`, R127 -/
  | busRbit
  /-- `bus.wbyte`, R129 -/
  | busWbyte
  /-- `bus.rbyte`, R131 -/
  | busRbyte
  /-- `crc.check`, R143 -/
  | crcCheck
  /-- `sensor.start`, R147 -/
  | sensorStart
  /-- `sensor.wait`, R150 -/
  | sensorWait
  /-- `sensor.read`, R152 -/
  | sensorRead
  /-- `line.read`, R178 -/
  | lineRead
  /-- `radio.cmd` with PKIND 0, no parameter, R195 -/
  | radioCmd
  /-- `radio.cmd` with PKIND 1, a textual parameter, R195 -/
  | radioCmdText
  /-- `radio.cmd` with PKIND 2, a binary parameter, R195 -/
  | radioCmdBin
  /-- `radio.classify`, R198 -/
  | radioClassify
  /-- `radio.join`, with CMD.MODE, R201 -/
  | radioJoin (mode : JoinMode)
  /-- `radio.send`, with CMD.CONF (true = confirmed), R208 -/
  | radioSend (conf : Bool)
  /-- `radio.recv`, R216 -/
  | radioRecv
  /-- `radio.consume`, R219 -/
  | radioConsume
  /-- `radio.reset`, R222 -/
  | radioReset
  /-- `radio.sleep`, R227 -/
  | radioSleep
  /-- `radio.wake`, R229 -/
  | radioWake
  /-- the bus command byte SkipROM, R93 -/
  | skipRom
  /-- the bus command byte StartConversion, R93 -/
  | startConversion
  /-- the bus command byte ReadScratchpad, R93 -/
  | readScratchpad
deriving DecidableEq, Repr

/-- The table's two formats: a word written to CMD (R80) and a command byte on the bus (R93). -/
inductive InstrWord where
  | cmd (w : Word)
  | busCmd (b : Byte)
deriving DecidableEq, Repr

/-- Is the instruction a host operation, issued by a CMD write (R82), and not a bus command byte? -/
def Instr.isOperation : Instr → Bool
  | .skipRom | .startConversion | .readScratchpad => false
  | .busReset | .busWbit | .busRbit | .busWbyte | .busRbyte | .crcCheck | .sensorStart
  | .sensorWait | .sensorRead | .lineRead | .radioCmd | .radioCmdText | .radioCmdBin
  | .radioClassify | .radioJoin _ | .radioSend _ | .radioRecv | .radioConsume | .radioReset
  | .radioSleep | .radioWake => true

end Sys2Proof
end

