-- ==== Sys2Proof/WellFormed.lean ====
section
/-! DEFINITION. What makes a CMD word legal (R80, R82, R83), check by check, over the word's fields.
Every term of `Instr` is legal: its types admit only the values of MODE and CONF that R80 gives. The
illegal terms are words, so the checks stand here on a word's fields, and Decode agrees with them. -/
namespace Sys2Proof

/-- The fields of the CMD word, R80: OP [7:0], CONF [8], MODE [9], PKIND [11:10], reserved [31:12]. -/
structure CmdFields where
  op : Byte
  conf : Bool
  mode : Bool
  pkind : BitVec 2
  reserved : BitVec 20
deriving DecidableEq, Repr

/-- The operation codes of R82. -/
def CmdFields.opCodes : List Byte :=
  [0x01, 0x02, 0x03, 0x04, 0x05, 0x10, 0x20, 0x21, 0x22, 0x30,
   0x40, 0x41, 0x42, 0x43, 0x44, 0x45, 0x46, 0x47, 0x48]

/-- OP is a code of R82 and not a reserved one. -/
def CmdFields.opKnown (f : CmdFields) : Bool := CmdFields.opCodes.contains f.op

/-- CMD[31:12] is 0. -/
def CmdFields.reservedClear (f : CmdFields) : Bool := f.reserved == 0

/-- CONF is 0 but under SEND. -/
def CmdFields.confAllowed (f : CmdFields) : Bool := !f.conf || f.op == 0x43

/-- MODE is 0 but under JOIN. -/
def CmdFields.modeAllowed (f : CmdFields) : Bool := !f.mode || f.op == 0x42

/-- PKIND is 0 but under SEND_COMMAND. -/
def CmdFields.pkindAllowed (f : CmdFields) : Bool := f.pkind == 0 || f.op == 0x40

/-- PKIND is not the reserved value 3. -/
def CmdFields.pkindLegal (f : CmdFields) : Bool := f.pkind != 3

/-- The word is legal: no condition of R83 holds. -/
def CmdFields.wellFormed (f : CmdFields) : Bool :=
  f.opKnown && f.reservedClear && f.confAllowed && f.modeAllowed && f.pkindAllowed && f.pkindLegal

/-- A bus command byte is one of the three of R93. -/
def busCmdWellFormed (b : Byte) : Bool := b == 0xCC || b == 0x44 || b == 0xBE

end Sys2Proof
end

