-- ==== Sys2Proof/Decode.lean ====
section
/-! DEFINITION. Decoding of the table's words, total on any bits and rejecting by name, and the
encoder, both from 30_encoding.md R80 to R83 and R93. -/
namespace Sys2Proof

/-- Why a word is no instruction: the conditions of R83, and a byte that is none of R93's. -/
inductive Reject where
  /-- a nonzero bit in CMD[31:12] -/
  | reservedBits
  /-- an OP value that R82 does not list -/
  | reservedOp
  /-- CONF set under an OP that does not use it -/
  | strayConf
  /-- MODE set under an OP that does not use it -/
  | strayMode
  /-- a nonzero PKIND under an OP that does not use it -/
  | strayPkind
  /-- PKIND = 3 under SEND_COMMAND -/
  | reservedPkind
  /-- a byte that is no sensor command -/
  | unknownBusCmd
deriving DecidableEq, Repr

/-- The fields of a CMD word (R80). -/
def cmdFields (w : Word) : CmdFields where
  op := w.extractLsb' 0 8
  conf := w.getLsbD 8
  mode := w.getLsbD 9
  pkind := w.extractLsb' 10 2
  reserved := w.extractLsb' 12 20

/-- The CMD word that has given fields (R80), most significant field first. -/
def CmdFields.word (f : CmdFields) : Word :=
  f.reserved ++ (f.pkind ++ (BitVec.ofBool f.mode ++ (BitVec.ofBool f.conf ++ f.op)))

/-- The flag bits an operation does not use must be 0 (R80, R83). -/
def rejectStray (conf mode pkind : Bool) (i : Instr) : Except Reject Instr :=
  if conf then .error .strayConf
  else if mode then .error .strayMode
  else if pkind then .error .strayPkind
  else .ok i

/-- The opcode map, R82, on a word whose reserved bits are clear. -/
def decodeOp (op : Byte) (conf mode : Bool) (pkind : BitVec 2) : Except Reject Instr :=
  let pk := pkind != 0
  match op.toNat with
  | 0x01 => rejectStray conf mode pk .busReset
  | 0x02 => rejectStray conf mode pk .busWbit
  | 0x03 => rejectStray conf mode pk .busRbit
  | 0x04 => rejectStray conf mode pk .busWbyte
  | 0x05 => rejectStray conf mode pk .busRbyte
  | 0x10 => rejectStray conf mode pk .crcCheck
  | 0x20 => rejectStray conf mode pk .sensorStart
  | 0x21 => rejectStray conf mode pk .sensorWait
  | 0x22 => rejectStray conf mode pk .sensorRead
  | 0x30 => rejectStray conf mode pk .lineRead
  | 0x40 =>
    match pkind.toNat with
    | 0 => rejectStray conf mode false .radioCmd
    | 1 => rejectStray conf mode false .radioCmdText
    | 2 => rejectStray conf mode false .radioCmdBin
    | _ => .error .reservedPkind
  | 0x41 => rejectStray conf mode pk .radioClassify
  | 0x42 => rejectStray conf false pk (.radioJoin (if mode then .abp else .otaa))
  | 0x43 => rejectStray false mode pk (.radioSend conf)
  | 0x44 => rejectStray conf mode pk .radioRecv
  | 0x45 => rejectStray conf mode pk .radioConsume
  | 0x46 => rejectStray conf mode pk .radioReset
  | 0x47 => rejectStray conf mode pk .radioSleep
  | 0x48 => rejectStray conf mode pk .radioWake
  | _ => .error .reservedOp

/-- A CMD word's operation, or why R83 refuses the word. -/
def decodeFields (f : CmdFields) : Except Reject Instr :=
  if f.reserved != 0 then .error .reservedBits else decodeOp f.op f.conf f.mode f.pkind

/-- Decode the word a host writes to CMD. -/
def decodeCmd (w : Word) : Except Reject Instr := decodeFields (cmdFields w)

/-- Decode a sensor command byte (R93). -/
def decodeBusCmd (b : Byte) : Except Reject Instr :=
  match b.toNat with
  | 0xCC => .ok .skipRom
  | 0x44 => .ok .startConversion
  | 0xBE => .ok .readScratchpad
  | _ => .error .unknownBusCmd

/-- Decode a word of either of the table's formats. -/
def decode : InstrWord → Except Reject Instr
  | .cmd w => decodeCmd w
  | .busCmd b => decodeBusCmd b

/-- The CMD word of an operation without flag bits. -/
def opWord (op : Byte) : InstrWord := .cmd (CmdFields.word ⟨op, false, false, 0, 0⟩)

/-- The word of an instruction (R80, R82, R93). -/
def encode : Instr → InstrWord
  | .busReset => opWord 0x01
  | .busWbit => opWord 0x02
  | .busRbit => opWord 0x03
  | .busWbyte => opWord 0x04
  | .busRbyte => opWord 0x05
  | .crcCheck => opWord 0x10
  | .sensorStart => opWord 0x20
  | .sensorWait => opWord 0x21
  | .sensorRead => opWord 0x22
  | .lineRead => opWord 0x30
  | .radioCmd => .cmd (CmdFields.word ⟨0x40, false, false, 0, 0⟩)
  | .radioCmdText => .cmd (CmdFields.word ⟨0x40, false, false, 1, 0⟩)
  | .radioCmdBin => .cmd (CmdFields.word ⟨0x40, false, false, 2, 0⟩)
  | .radioClassify => opWord 0x41
  | .radioJoin .otaa => .cmd (CmdFields.word ⟨0x42, false, false, 0, 0⟩)
  | .radioJoin .abp => .cmd (CmdFields.word ⟨0x42, false, true, 0, 0⟩)
  | .radioSend conf => .cmd (CmdFields.word ⟨0x43, conf, false, 0, 0⟩)
  | .radioRecv => opWord 0x44
  | .radioConsume => opWord 0x45
  | .radioReset => opWord 0x46
  | .radioSleep => opWord 0x47
  | .radioWake => opWord 0x48
  | .skipRom => .busCmd 0xCC
  | .startConversion => .busCmd 0x44
  | .readScratchpad => .busCmd 0xBE

/-- The word of a table row of `nbits` bits: a byte is a bus command, a longer row a CMD word. -/
def tableWord (nbits w : Nat) : Option InstrWord :=
  if nbits ≤ 8 then some (.busCmd (BitVec.ofNat 8 w))
  else if nbits ≤ 32 then some (.cmd (BitVec.ofNat 32 w))
  else none

/-- The instruction the decoder reads from a table row's word. -/
def decodeTableWord (nbits w : Nat) : Option Instr :=
  match tableWord nbits w with
  | some iw =>
    match decode iw with
    | .ok i => some i
    | .error _ => none
  | none => none

end Sys2Proof
end

