-- ==== Sys2Proof/Config.lean ====
section
/-! DEFINITION. The block's parameters (00_scope.md R10), their constraints, the string literals of
30_encoding.md R106, the constants the source fixes, and the free values of the model.
A machine carries its parameters in the field `params` of its state (log 5): every statement is
about every state, hence about every value of the OPEN parameters (R11). -/
namespace Sys2Proof

/-- A byte string written as characters (R12). -/
def ascii (cs : List Char) : List Byte := cs.map fun c => BitVec.ofNat 8 c.toNat

/-- The named string literals of R106. -/
structure Literals where
  tokOk : List Byte
  tokAccepted : List Byte
  tokTxOk : List Byte
  errInvalidParam : List Byte
  errNotJoined : List Byte
  errNoFreeCh : List Byte
  errSilent : List Byte
  errFrameCounter : List Byte
  errBusy : List Byte
  errMacPaused : List Byte
  errInvalidDataLen : List Byte
  errMacErr : List Byte
  idSubstrA : List Byte
  idSubstrB : List Byte
  cmdSysReset : List Byte
  cmdSetDeveui : List Byte
  cmdSetAppeui : List Byte
  cmdSetAppkey : List Byte
  cmdSetDevaddr : List Byte
  cmdSetAppskey : List Byte
  cmdSetNwkskey : List Byte
  cmdSetAdr : List Byte
  txtAdrOn : List Byte
  txtAdrOff : List Byte
  cmdJoin : List Byte
  kwOtaa : List Byte
  kwAbp : List Byte
  cmdTxCnf : List Byte
  cmdTxUncnf : List Byte
  cmdSleep : List Byte
deriving DecidableEq, Repr

/-- The parameters of R10. Times are in µs unless the name ends in `Ms`. -/
structure Config where
  tRstl : Nat
  tMsp : Nat
  tRstSlot : Nat
  tSlot : Nat
  tLow1 : Nat
  tLow0 : Nat
  tRl : Nat
  tMsr : Nat
  tCmdMs : Nat
  tRxwinMs : Nat
  tResetMs : Nat
  sleepMinMs : Nat
  tBreakUs : Nat
  syncByte : Byte
  lineCap : Nat
  rxpayCap : Nat
  outCap : Nat
  opbufCap : Nat
  lenDeveui : Nat
  lenAppeui : Nat
  lenAppkey : Nat
  lenDevaddr : Nat
  lenAppskey : Nat
  lenNwkskey : Nat
  /-- CONFIG_A: (command text, textual parameter) pairs, in order (R223). -/
  configA : List (List Byte × List Byte)
  /-- CONFIG_B, the channel-masking variant's list (R223). -/
  configB : List (List Byte × List Byte)
  lits : Literals
  /-- BLOCK_BASE, where a platform maps the block; no rule reads it (R69). -/
  blockBase : Nat
deriving DecidableEq, Repr

/-! ## Constants the source fixes (R10) -/

/-- POLL_MAX. -/
def Config.pollMax : Nat := 100
/-- POLL_INTERVAL_MS. -/
def Config.pollIntervalMs : Nat := 10
/-- SCRATCH_LEN. -/
def Config.scratchLen : Nat := 9
/-- BAUD, bits per second. -/
def Config.baud : Nat := 57600
/-- T_JOIN_MS. -/
def Config.tJoinMs : Nat := 30000

/-! ## Constraints -/

/-- The tokens R106 constrains: TOK_OK, TOK_ACCEPTED, TOK_TX_OK and the nine error phrases. -/
def Literals.tokens (l : Literals) : List (List Byte) :=
  [l.tokOk, l.tokAccepted, l.tokTxOk, l.errInvalidParam, l.errNotJoined, l.errNoFreeCh,
   l.errSilent, l.errFrameCounter, l.errBusy, l.errMacPaused, l.errInvalidDataLen, l.errMacErr]

/-- The command texts of R106. -/
def Literals.commandTexts (l : Literals) : List (List Byte) :=
  [l.cmdSysReset, l.cmdSetDeveui, l.cmdSetAppeui, l.cmdSetAppkey, l.cmdSetDevaddr,
   l.cmdSetAppskey, l.cmdSetNwkskey, l.cmdSetAdr, l.cmdJoin, l.cmdTxCnf, l.cmdTxUncnf, l.cmdSleep]

/-- R106: the tokens are pairwise distinct. -/
def Literals.tokensDistinct (l : Literals) : Bool := decide (l.tokens.Pairwise (· ≠ ·))

/-- R106: no token is empty, and none contains a space, CR or LF. -/
def Literals.tokensSingle (l : Literals) : Bool :=
  l.tokens.all fun t => !t.isEmpty && t.all fun b => b != 0x20 && b != 0x0D && b != 0x0A

/-- R106: the command texts contain no CR or LF. -/
def Literals.commandTextsOneLine (l : Literals) : Bool :=
  l.commandTexts.all fun t => t.all fun b => b != 0x0D && b != 0x0A

/-- The slot times are in the ranges of R10; a bare "≈" is no constraint (log 21). -/
def Config.timingOk (c : Config) : Bool :=
  decide (480 ≤ c.tRstl) && decide (50 ≤ c.tMsp) && decide (c.tMsp ≤ 60)
    && decide (c.tRstl + c.tMsp ≤ c.tRstSlot)
    && decide (60 ≤ c.tSlot) && decide (c.tSlot ≤ 70)
    && decide (5 ≤ c.tLow1) && decide (c.tLow1 ≤ 6) && decide (c.tLow0 ≤ c.tSlot)
    && decide (5 ≤ c.tRl) && decide (c.tRl ≤ 6) && decide (5 ≤ c.tMsr) && decide (c.tMsr ≤ 15)

/-- The timeouts are in the ranges of R10, and a break lasts at least 174 µs. -/
def Config.timeoutsOk (c : Config) : Bool :=
  decide (0 < c.tCmdMs) && decide (c.tCmdMs ≤ 4294967295)
    && decide (10000 ≤ c.tRxwinMs) && decide (c.tRxwinMs ≤ 99999)
    && decide (0 < c.tResetMs) && decide (c.tResetMs ≤ 4294967295) && decide (174 ≤ c.tBreakUs)

/-- The capacities are in the ranges of R10. DEDUCED (log 20): a count of LINEBUF's or RXPAY's
bytes fits the 32-bit register LINE_LEN or RXPAY_LEN that holds it (R36). -/
def Config.capacitiesOk (c : Config) : Bool :=
  decide (1 ≤ c.lineCap) && decide (c.lineCap < 4294967296)
    && decide (2 ≤ c.rxpayCap) && decide (c.rxpayCap < 4294967296)
    && decide (1 ≤ c.outCap) && decide (1 ≤ c.opbufCap)

/-- Every key of the key store has at least one byte (R10). -/
def Config.keysOk (c : Config) : Bool :=
  decide (1 ≤ c.lenDeveui) && decide (1 ≤ c.lenAppeui) && decide (1 ≤ c.lenAppkey)
    && decide (1 ≤ c.lenDevaddr) && decide (1 ≤ c.lenAppskey) && decide (1 ≤ c.lenNwkskey)

/-- The parameters meet the constraints of R10 and R106. -/
def Config.wf (c : Config) : Bool :=
  c.timingOk && c.timeoutsOk && c.capacitiesOk && c.keysOk
    && c.lits.tokensDistinct && c.lits.tokensSingle && c.lits.commandTextsOneLine

/-! ## A reference machine

The defaults of R10 and R106, and where R10 gives none a value named in log 5. DESIGN CHOICE. -/

/-- The default literals of R106. -/
def Literals.default : Literals where
  tokOk := ascii ['o', 'k']
  tokAccepted := ascii ['a', 'c', 'c', 'e', 'p', 't', 'e', 'd']
  tokTxOk := ascii ['m', 'a', 'c', '_', 't', 'x', '_', 'o', 'k']
  errInvalidParam := ascii ['i', 'n', 'v', 'a', 'l', 'i', 'd', '_', 'p', 'a', 'r', 'a', 'm']
  errNotJoined := ascii ['n', 'o', 't', '_', 'j', 'o', 'i', 'n', 'e', 'd']
  errNoFreeCh := ascii ['n', 'o', '_', 'f', 'r', 'e', 'e', '_', 'c', 'h']
  errSilent := ascii ['s', 'i', 'l', 'e', 'n', 't']
  errFrameCounter := ascii ['f', 'r', 'a', 'm', 'e', '_', 'c', 'o', 'u', 'n', 't', 'e', 'r', '_',
    'e', 'r', 'r', '_', 'r', 'e', 'j', 'o', 'i', 'n', '_', 'n', 'e', 'e', 'd', 'e', 'd']
  errBusy := ascii ['b', 'u', 's', 'y']
  errMacPaused := ascii ['m', 'a', 'c', '_', 'p', 'a', 'u', 's', 'e', 'd']
  errInvalidDataLen := ascii ['i', 'n', 'v', 'a', 'l', 'i', 'd', '_', 'd', 'a', 't', 'a', '_',
    'l', 'e', 'n']
  errMacErr := ascii ['m', 'a', 'c', '_', 'e', 'r', 'r']
  idSubstrA := ascii ['R', 'N', '2', '4', '8', '3']
  idSubstrB := ascii ['R', 'N', '2', '9', '0', '3']
  cmdSysReset := ascii ['s', 'y', 's', ' ', 'r', 'e', 's', 'e', 't']
  cmdSetDeveui := ascii ['m', 'a', 'c', ' ', 's', 'e', 't', ' ', 'd', 'e', 'v', 'e', 'u', 'i', ' ']
  cmdSetAppeui := ascii ['m', 'a', 'c', ' ', 's', 'e', 't', ' ', 'a', 'p', 'p', 'e', 'u', 'i', ' ']
  cmdSetAppkey := ascii ['m', 'a', 'c', ' ', 's', 'e', 't', ' ', 'a', 'p', 'p', 'k', 'e', 'y', ' ']
  cmdSetDevaddr := ascii ['m', 'a', 'c', ' ', 's', 'e', 't', ' ', 'd', 'e', 'v', 'a', 'd', 'd', 'r', ' ']
  cmdSetAppskey := ascii ['m', 'a', 'c', ' ', 's', 'e', 't', ' ', 'a', 'p', 'p', 's', 'k', 'e', 'y', ' ']
  cmdSetNwkskey := ascii ['m', 'a', 'c', ' ', 's', 'e', 't', ' ', 'n', 'w', 'k', 's', 'k', 'e', 'y', ' ']
  cmdSetAdr := ascii ['m', 'a', 'c', ' ', 's', 'e', 't', ' ', 'a', 'd', 'r', ' ']
  txtAdrOn := ascii ['o', 'n']
  txtAdrOff := ascii ['o', 'f', 'f']
  cmdJoin := ascii ['m', 'a', 'c', ' ', 'j', 'o', 'i', 'n', ' ']
  kwOtaa := ascii ['o', 't', 'a', 'a']
  kwAbp := ascii ['a', 'b', 'p']
  cmdTxCnf := ascii ['m', 'a', 'c', ' ', 't', 'x', ' ', 'c', 'n', 'f', ' ']
  cmdTxUncnf := ascii ['m', 'a', 'c', ' ', 't', 'x', ' ', 'u', 'n', 'c', 'n', 'f', ' ']
  cmdSleep := ascii ['s', 'y', 's', ' ', 's', 'l', 'e', 'e', 'p', ' ']

/-- The parameters of `State.reset`: R10's defaults, and for each OPEN parameter without a default
the value log 5 names. DESIGN CHOICE; no statement rests on one of the values log 5 chose. -/
def Config.reference : Config where
  tRstl := 480
  tMsp := 55
  tRstSlot := 960
  tSlot := 70
  tLow1 := 6
  tLow0 := 60
  tRl := 6
  tMsr := 9
  tCmdMs := 1000
  tRxwinMs := 10000
  tResetMs := 1000
  sleepMinMs := 100
  tBreakUs := 500
  syncByte := 0x55
  lineCap := 64
  rxpayCap := 32
  outCap := 16
  opbufCap := 16
  lenDeveui := 8
  lenAppeui := 8
  lenAppkey := 16
  lenDevaddr := 4
  lenAppskey := 16
  lenNwkskey := 16
  configA := []
  configB := []
  lits := Literals.default
  blockBase := 0

/-! ## Free values

No body: nothing in Lean can evaluate one or prove a value of it. Each is applied to a plain
counter of State, so that every use is a fresh value, and what a buffer holds (`heldByte`) is one value
until the buffer's length register is written again. -/

/-- TIME_US after a block reset: any value (R44, R50, entry I6; log 7). -/
opaque Config.freeTime : Nat → Time

/-- The part of a microsecond already elapsed at reset, in 1/18 µs (log 8). -/
opaque Config.freeSub : Nat → Fin 18

/-- What a host read returns of a buffer that the running operation may write: any value (R71, I3;
log 10). -/
opaque Config.freeByte : Nat → Byte

/-- What a byte of LINEBUF past the line, or of RXPAY past the payload, holds: any value (R40, R41, I5;
log 10). The first argument is `State.heldCount`, the second the byte's key (`Buf.addr`). -/
opaque Config.heldByte : Nat → Nat → Byte

/-- What a host read of a register returns where it "returns any value" (R71, I3; log 10). -/
opaque Config.freeWord : Nat → Word

/-- `hexval` of a byte that is no hex digit: any 4-bit value (R111, I8; log 11). -/
opaque Config.freeNibble : Nat → BitVec 4

end Sys2Proof
end

