-- ==== Sys2Proof/Machine/State.lean ====
section
/-! DEFINITION. The block's state as plain data (10_state.md), the reasons a step can stop, what the
outside can do, and the state after block reset (R50, R260). -/
namespace Sys2Proof.Machine

/-- The twelve buffer spaces of R61. -/
inductive Buf where
  | scratch | linebuf | rxpay | outbuf | opbufA | opbufB
  | keyDeveui | keyAppeui | keyAppkey | keyDevaddr | keyAppskey | keyNwkskey
deriving DecidableEq, Repr

/-- The host-visible registers of R21. -/
inductive Reg where
  | cmd | status | arg0 | arg1 | result | tempRaw | lineLen | rxpayLen | opaLen | opbLen | cfg
deriving DecidableEq, Repr

/-- STATUS.LINE_END, R26 and R32. -/
inductive LineEnd where
  | term | full | timeout | noLine
deriving DecidableEq, Repr

/-- STATUS.JOIN_STATE, R26 and R33; the codes 4 to 7 that never occur have no constructor (I12). -/
inductive JoinState where
  | notJoined | awaitingOk | awaitingAccept | joined
deriving DecidableEq, Repr

/-- STATUS.VARIANT, R26 and R34; the code 3 that never occurs has no constructor (I12). -/
inductive Variant where
  | unknown | variantA | variantB
deriving DecidableEq, Repr

/-- The serial output: the idle (mark) condition, or the break (space) condition (R50, R13). -/
inductive SerialOut where
  | mark | space
deriving DecidableEq, Repr

/-- The events of TRACE, R45 and R13. A level is `true` when the line is high. -/
inductive Event where
  | busLow (t : Time)
  | busRel (t : Time)
  | busSmp (t : Time) (level : Bool)
  | tx (b : Byte)
  | txBreak (us : Nat)
  | rx (b : Byte)
  | rxTimeout
deriving DecidableEq, Repr

/-- What the environment supplies to one wait on the serial input (R15, R172): a byte, `waitUs`
microseconds after the wait began, or a timeout (log 9). -/
inductive RxDraw where
  | byte (b : Byte) (waitUs : Nat)
  | timeout
deriving DecidableEq, Repr

/-- The draws still to come (R15): the scripted ones in order, then the last one for ever (log 6).
A bus draw is the level the responder leaves on a released line, `true` = high. -/
structure Env where
  bus : List Bool
  busRest : Bool
  rx : List RxDraw
  rxRest : RxDraw
deriving DecidableEq, Repr

/-- What one primitive of an operation's pseudocode answered. A list of these is the phase of a
running operation: with the operation it determines the position in the pseudocode (R48, log 15). -/
inductive Resp where
  | done
  | level (l : Bool)
  | rx (r : Option Byte)
  | nibble (n : BitVec 4)
  | byte (b : Byte)
  | word (w : Word)
deriving DecidableEq, Repr

/-- SEQ, the sequencer's control state: `Idle` or `Exec(op, phase)` (R48). -/
inductive SeqState where
  | idle
  | exec (op : Instr) (phase : List Resp)
deriving DecidableEq, Repr

/-- What the outside does at one step (log 1). Widths are in bits (R66). -/
inductive Input where
  /-- nothing: the block goes on by itself -/
  | quiet
  /-- RST is asserted and released (R260) -/
  | rst
  /-- the host writes `w` to CMD and does nothing more until the operation ends (log 2) -/
  | call (w : Word)
  /-- the sequencer sends one sensor command byte (R93, log 4) -/
  | busCmd (b : Byte)
  /-- the host reads a register -/
  | readReg (width : Nat) (num : Byte)
  /-- the host writes a register; a write of CMD issues an operation (R24) -/
  | writeReg (width : Nat) (num : Byte) (v : Word)
  /-- the host reads byte `i` of a buffer -/
  | readBuf (width : Nat) (space : Byte) (i : Nat)
  /-- the host writes byte `i` of a buffer -/
  | writeBuf (width : Nat) (space : Byte) (i : Nat) (v : Byte)
deriving DecidableEq, Repr

/-- The buffer bytes that have been written since reset, in canonical form: keys strictly rising. A
byte that is not listed holds no value (R50, log 12); `Buf.addr` gives a byte's key (log 13). -/
abbrev Memory := List Host.Cell

/-- Why the machine stops with a fault. -/
inductive Fault where
  /-- Raised by any read of a buffer byte that nothing has written since reset (R62, I4). Safe: the
  spec's own treatment is `fault`. -/
  | unwrittenByte (b : Buf) (i : Nat)
  /-- Raised when an operation would read a buffer at or above its size, which "does not occur in any
  operation rule" (R62): only in states no run reaches. Safe (log 17). -/
  | indexBeyondBuffer (b : Buf) (i : Nat)
  /-- Raised when SEQ's phase is no position of its operation's pseudocode: only in states no run
  reaches. Safe (log 15). -/
  | phaseLost (op : Instr)
deriving DecidableEq, Repr

/-- Why a request has no meaning. Each but `notModelled` is a condition of R246; the spec's own
treatment is `refuse`, so each is safe. -/
inductive Refusal where
  /-- Raised by the dispatcher for an instruction without a meaning. Safe. No arm uses it. -/
  | notModelled (mnemonic : String)
  /-- Raised by a CMD write of a reserved encoding (R83, R246 condition 1). Safe. -/
  | reservedEncoding (w : InstrWord)
  /-- Raised by any host write while STATUS.BUSY = 1 (R72, R246 condition 2). Safe. -/
  | writeWhileBusy
  /-- Raised by a host access to a register number 0x0B to 0xFF (R21, R246 condition 3). Safe. -/
  | noSuchRegister (num : Byte)
  /-- Raised by a host access to a buffer space id 0 or 13 to 255 (R61, R246 condition 3). Safe. -/
  | noSuchBuffer (space : Byte)
  /-- Raised by a host access at or above a buffer's size (R62, R246 condition 3). Safe. -/
  | indexOutOfRange (b : Buf) (i : Nat)
  /-- Raised by a host write to a read-only register (R21, R246 condition 4). Safe. -/
  | readOnlyRegister (r : Reg)
  /-- Raised by a host write to a read-only buffer (R61, R246 condition 4). Safe. -/
  | readOnlyBuffer (b : Buf)
  /-- Raised by a host access of a width R66 does not allow (R246 condition 5). Safe. -/
  | wrongWidth (width : Nat)
  /-- Raised by a host write of OPA_LEN or OPB_LEN above OPBUF_CAP (R36, R246 condition 6). Safe. -/
  | lengthAboveCapacity (v : Word)
  /-- Raised by a CMD write or a blocking call of RECEIVE with ARG1 > OUT_CAP (R216, R246 condition 7).
  Safe. -/
  | countAboveOutCap (v : Word)
deriving DecidableEq, Repr

/-- The whole state (R20). STATUS.BUSY is SEQ ≠ Idle (R48) and is not stored a second time; bits that
read 0 (STATUS[31:13], TEMP_RAW[31:16], CFG[31:1]) are not stored. -/
structure State where
  /-- the parameters of R10, which no step changes (log 5) -/
  params : Config
  /-- ARG0 (R22) -/
  arg0 : Word
  /-- ARG1 (R22) -/
  arg1 : Word
  /-- RESULT (R23) -/
  result : Word
  /-- TEMP_RAW[15:0] (R35) -/
  tempRaw : BitVec 16
  /-- LINE_LEN (R36) -/
  lineLen : Word
  /-- RXPAY_LEN (R36) -/
  rxpayLen : Word
  /-- OPA_LEN (R36) -/
  opaLen : Word
  /-- OPB_LEN (R36) -/
  opbLen : Word
  /-- CFG.ADR (R37) -/
  adr : Bool
  /-- STATUS.DONE (R26) -/
  done : Bool
  /-- STATUS.PRESENCE (R28) -/
  presence : Bool
  /-- STATUS.CRC_OK (R29) -/
  crcOk : Bool
  /-- STATUS.TIMED_OUT (R30) -/
  timedOut : Bool
  /-- STATUS.RX_PENDING (R31) -/
  rxPending : Bool
  /-- STATUS.LINE_END (R32) -/
  lineEnd : LineEnd
  /-- STATUS.JOIN_STATE (R33) -/
  joinState : JoinState
  /-- STATUS.VARIANT (R34) -/
  variant : Variant
  /-- the twelve buffers (R38 to R43) -/
  mem : Memory
  /-- BUS_DRIVE, `true` = driving low (R46) -/
  busDrive : Bool
  /-- the serial output's condition (R50) -/
  serialOut : SerialOut
  /-- TIME_US (R44) -/
  timeUs : Time
  /-- the part of a microsecond already elapsed, in 1/18 µs (log 8) -/
  timeSub : Fin 18
  /-- SEQ (R48) -/
  seq : SeqState
  /-- TRACE, oldest event first (R45) -/
  trace : List Event
  /-- the environment's draws still to come (log 6) -/
  env : Env
  /-- what the outside does next, in order (log 1) -/
  inputs : List Input
  /-- the word the last host read returned (log 22) -/
  hostData : Word
  /-- how many free values have been used (log 10) -/
  freeCount : Nat
  /-- how often a length register of a received line or payload has been written (log 10) -/
  heldCount : Nat
deriving DecidableEq, Repr

/-- Block state after a reset (R50, R260) with given parameters and environment; `n` numbers the free
values that TIME_US and its sub-microsecond part take (I6). -/
@[simps] def State.afterReset (params : Config) (env : Env) (n : Nat) : State where
  params := params
  arg0 := 0
  arg1 := 0
  result := 0
  tempRaw := 0
  lineLen := 0
  rxpayLen := 0
  opaLen := 0
  opbLen := 0
  adr := false
  done := false
  presence := false
  crcOk := false
  timedOut := false
  rxPending := false
  lineEnd := .noLine
  joinState := .notJoined
  variant := .unknown
  mem := []
  busDrive := false
  serialOut := .mark
  timeUs := Config.freeTime n
  timeSub := Config.freeSub n
  seq := .idle
  trace := []
  env := env
  inputs := []
  hostData := 0
  freeCount := n + 1
  heldCount := 0

/-- An environment in which nothing happens: the pulled-up line is high and no byte arrives. DESIGN
CHOICE for `State.reset` only; no statement rests on it (log 6). -/
def Env.silent : Env where
  bus := []
  busRest := true
  rx := []
  rxRest := .timeout

/-- The machine right after reset (R50, R260), with the reference parameters (log 5), a silent
environment (log 6) and nothing asked of it. -/
def State.reset : State := State.afterReset Config.reference Env.silent 0

end Sys2Proof.Machine
end

