-- ==== Sys2Proof/Machine/Ops.lean ====
section
/-! DEFINITION. The named operations over buffers, registers, time, the two ports and the lifecycle
of an operation. The block takes no exception and returns from none: an error saves no state, changes
no mode and jumps to no vector (R243, R248, R249), so beside the end of an operation (R241) and the
block reset (R260) there is no entry to define here. -/
namespace Sys2Proof.Machine

/-! ## Buffers (R60 to R62) -/

/-- A buffer's space id (R61). -/
def Buf.id : Buf → Nat
  | .scratch => 1
  | .linebuf => 2
  | .rxpay => 3
  | .outbuf => 4
  | .opbufA => 5
  | .opbufB => 6
  | .keyDeveui => 7
  | .keyAppeui => 8
  | .keyAppkey => 9
  | .keyDevaddr => 10
  | .keyAppskey => 11
  | .keyNwkskey => 12

/-- All buffers, in the order of their space ids. -/
def Buf.all : List Buf :=
  [.scratch, .linebuf, .rxpay, .outbuf, .opbufA, .opbufB,
   .keyDeveui, .keyAppeui, .keyAppkey, .keyDevaddr, .keyAppskey, .keyNwkskey]

/-- The buffer a space id names, if any (R61). -/
def Buf.ofId (n : Nat) : Option Buf := Buf.all.find? fun b => b.id == n

/-- A buffer's size in bytes (R61). -/
def Buf.size (c : Config) : Buf → Nat
  | .scratch => Config.scratchLen
  | .linebuf => c.lineCap
  | .rxpay => c.rxpayCap
  | .outbuf => c.outCap
  | .opbufA => c.opbufCap
  | .opbufB => c.opbufCap
  | .keyDeveui => c.lenDeveui
  | .keyAppeui => c.lenAppeui
  | .keyAppkey => c.lenAppkey
  | .keyDevaddr => c.lenDevaddr
  | .keyAppskey => c.lenAppskey
  | .keyNwkskey => c.lenNwkskey

/-- May the host write the buffer (R61)? -/
def Buf.hostWritable : Buf → Bool
  | .linebuf | .rxpay | .outbuf => false
  | .scratch | .opbufA | .opbufB | .keyDeveui | .keyAppeui | .keyAppkey | .keyDevaddr
  | .keyAppskey | .keyNwkskey => true

/-- The key of byte `i` of a buffer. DESIGN CHOICE: the twelve spaces share one list, and the key
holds the space id in its low four bits, so that no two bytes share a key (log 13). -/
def Buf.addr (b : Buf) (i : Nat) : Nat := 16 * i + b.id

/-- The byte stored under a key, if any. -/
def Memory.get : Memory → Nat → Option Byte
  | [], _ => none
  | (k, v) :: m, a => if k = a then some v else Memory.get m a

/-- Store a byte under a key, keeping the keys strictly rising. -/
def Memory.put : Memory → Nat → Byte → Memory
  | [], a, v => [(a, v)]
  | (k, w) :: m, a, v =>
    if a < k then (a, v) :: (k, w) :: m
    else if k = a then (a, v) :: m
    else (k, w) :: Memory.put m a v

/-- The canonical form: keys strictly rising. No entry equals what an unlisted key reads as, since an
unlisted byte holds no value. -/
abbrev Memory.wf (m : Memory) : Prop := m.Pairwise fun p q => p.1 < q.1

/-- Byte `i` of a buffer, if anything has written it since reset. -/
def State.byte? (s : State) (b : Buf) (i : Nat) : Option Byte := s.mem.get (b.addr i)

/-- `MemRead(BUF, i, 1)` of an operation (R62): a byte nothing has written since reset is a fault
(I4), and so is an index at or above the buffer's size (log 17). -/
def State.readByte (s : State) (b : Buf) (i : Nat) : Except Fault Byte :=
  if b.size s.params ≤ i then .error (.indexBeyondBuffer b i)
  else
    match s.byte? b i with
    | some v => .ok v
    | none => .error (.unwrittenByte b i)

/-- `MemWrite(BUF, i, 1, v)` (R62). -/
@[simps] def State.writeByte (s : State) (b : Buf) (i : Nat) (v : Byte) : State :=
  { s with mem := s.mem.put (b.addr i) v }

/-! ## Time (R13, R44, R100) -/

/-- `DelayUs(n)`: time advances by `n` µs, modulo 2^64, and nothing else changes (R13, R44). -/
@[simps] def State.delayUs (s : State) (n : Nat) : State :=
  { s with timeUs := s.timeUs + BitVec.ofNat 64 n }

/-- How finely serial time is counted: 1/18 µs, in which one bit time at 57600 baud is a whole
number of ticks up to a factor ten (log 8). -/
def ticksPerUs : Nat := 18

/-- The bits of one serial character on the link, in the order they are sent: a start bit 0, the
eight data bits least significant first, no parity, a stop bit 1 (R100; 8N1 is PRESUMED, log 8). -/
def uartFrame (b : Byte) : List Bool :=
  [false] ++ (List.range 8).map (fun k => b.getLsbD k) ++ [true]

/-- How long the character `b` takes on the link, in ticks: its bits at the baud rate (R100). -/
def charTicks (b : Byte) : Nat := (uartFrame b).length * 1000000 * ticksPerUs / Config.baud

/-- Whole microseconds in which `n` ticks after a part `sub` of a microsecond end (log 8). -/
def tickUs (sub : Fin 18) (n : Nat) : Nat := (sub.val + n) / ticksPerUs

/-- The part of a microsecond left over after `n` more ticks (log 8). -/
def tickSub (sub : Fin 18) (n : Nat) : Fin 18 :=
  ⟨(sub.val + n) % 18, Nat.mod_lt _ (by decide)⟩

/-- Elapsed time of a wait that began at `start`: `(TIME_US - start) mod 2^64` µs (R252). -/
def elapsedUs (start now : Time) : Nat := (now - start).toNat

/-! ## Events and the two ports (R13, R45, R46) -/

/-- `BusDriveLow()`: BUS_DRIVE ← 1, event `BusLow(t)` (R13). -/
@[simps] def State.busDriveLow (s : State) : State :=
  { s with busDrive := true, trace := s.trace ++ [.busLow s.timeUs] }

/-- `BusRelease()`: BUS_DRIVE ← 0, event `BusRel(t)` (R13). -/
@[simps] def State.busRelease (s : State) : State :=
  { s with busDrive := false, trace := s.trace ++ [.busRel s.timeUs] }

/-- The next bus draw: the level the responder leaves on a released line (R15). -/
def Env.busLevel (e : Env) : Bool :=
  match e.bus with
  | [] => e.busRest
  | l :: _ => l

/-- The environment after one bus draw. -/
def Env.afterBus (e : Env) : Env := { e with bus := e.bus.tail }

/-- The next draw of the serial input (R15). -/
def Env.rxDraw (e : Env) : RxDraw :=
  match e.rx with
  | [] => e.rxRest
  | d :: _ => d

/-- The environment after one wait on the serial input. -/
def Env.afterRx (e : Env) : Env := { e with rx := e.rx.tail }

/-- The level a sample sees: the wired-AND of the controller and the responder, 0 while the
controller drives low (R46). -/
def State.busLevel (s : State) : Bool := !s.busDrive && s.env.busLevel

/-- `BusSample()`: draw the line's level, event `BusSmp(t, level)` (R13). That this draw appends an
event is read from R13's table (log 19). -/
@[simps] def State.afterSample (s : State) : State :=
  { s with env := s.env.afterBus, trace := s.trace ++ [.busSmp s.timeUs s.busLevel] }

/-- `UartSend(b)`: the byte is sent, event `Tx(b)`, and the sequencer waits one character time
(R13, R170). Whole microseconds of it reach TIME_US (R44, log 8). -/
@[simps] def State.uartSend (s : State) (b : Byte) : State :=
  { s with
    trace := s.trace ++ [.tx b]
    timeUs := s.timeUs + BitVec.ofNat 64 (tickUs s.timeSub (charTicks b))
    timeSub := tickSub s.timeSub (charTicks b) }

/-- The start of `UartBreak(d)`: the output goes to the break (space) condition, event `TxBreak(d)`
(R13, R110). -/
@[simps] def State.breakStart (s : State) (us : Nat) : State :=
  { s with serialOut := .space, trace := s.trace ++ [.txBreak us] }

/-- The end of a break: the output is idle (mark) again (R100, R241). -/
@[simps] def State.breakEnd (s : State) : State := { s with serialOut := .mark }

/-- What `UartRecv` answers for a draw: the byte, or none for `Timeout` (R13, R172). -/
def RxDraw.byte? : RxDraw → Option Byte
  | .byte b _ => some b
  | .timeout => none

/-- How long a wait with a timeout of `tmo` ms lasts for a draw, in µs (R172, R173): a byte comes
before the deadline, or at once where it was already there; a timeout ends the wait at the first
instant at which the elapsed time is `1000 * tmo` µs (log 9). -/
def RxDraw.waited (tmo : Nat) : RxDraw → Nat
  | .byte _ us => min us (1000 * tmo - 1)
  | .timeout => 1000 * tmo

/-- The event of a wait on the serial input (R13; that the draw appends it is log 19). -/
def RxDraw.event : RxDraw → Event
  | .byte b _ => .rx b
  | .timeout => .rxTimeout

/-- `UartRecv(tmo)`: the state after the wait (R13, R172, R173). -/
@[simps] def State.afterRecv (s : State) (tmo : Nat) : State :=
  { s with
    env := s.env.afterRx
    trace := s.trace ++ [s.env.rxDraw.event]
    timeUs := s.timeUs + BitVec.ofNat 64 (s.env.rxDraw.waited tmo) }

/-- One free value has been used (log 10). -/
@[simps] def State.useFree (s : State) : State := { s with freeCount := s.freeCount + 1 }

/-! ## Issue, end and reset of an operation (R240, R241, R260, R261) -/

/-- STATUS.BUSY, which is SEQ ≠ Idle (R48). -/
def State.busy (s : State) : Bool :=
  match s.seq with
  | .idle => false
  | .exec _ _ => true

/-- Issue of an operation, in one step (R240): SEQ ← Exec(op, start), BUSY ← 1, DONE ← 0. -/
@[simps] def State.issue (s : State) (i : Instr) : State := { s with seq := .exec i [], done := false }

/-- End of an operation, in one step (R241): RESULT ← v, BUSY ← 0, DONE ← 1, SEQ ← Idle. -/
@[simps] def State.endOp (s : State) (v : Word) : State := { s with result := v, done := true, seq := .idle }

/-- RST: every piece of block state takes its reset value, whether or not an operation runs; the
environment, the parameters, what the outside does next and what the host has read are not block state
(R50, R260, R261; log 23). The model's own counters go on, so that no free value comes again (log 10). -/
@[simps] def State.blockReset (s : State) : State :=
  { State.afterReset s.params s.env s.freeCount with
    inputs := s.inputs, hostData := s.hostData, heldCount := s.heldCount }

/-- Time that passes while the block is idle: TIME_US counts every microsecond (R44, log 24). -/
@[simps] def State.elapse (s : State) : State := { s with timeUs := s.timeUs + 1 }

end Sys2Proof.Machine
end

