-- ==== Sys2Proof/Machine/Flags.lean ====
section
/-! DEFINITION. STATUS as the host reads it (R26), the values its fields take, and what each operation
may write (R61, R84). -/
namespace Sys2Proof.Machine

/-- The code of STATUS.LINE_END (R26). -/
def LineEnd.code : LineEnd → BitVec 2
  | .term => 0
  | .full => 1
  | .timeout => 2
  | .noLine => 3

/-- The code of STATUS.JOIN_STATE (R26). -/
def JoinState.code : JoinState → BitVec 3
  | .notJoined => 0
  | .awaitingOk => 1
  | .awaitingAccept => 2
  | .joined => 3

/-- The code of STATUS.VARIANT (R26). -/
def Variant.code : Variant → BitVec 2
  | .unknown => 0
  | .variantA => 1
  | .variantB => 2

/-- STATUS as a word (R26), most significant field first: reserved [31:13], VARIANT [12:11],
JOIN_STATE [10:8], LINE_END [7:6], RX_PENDING [5], TIMED_OUT [4], CRC_OK [3], PRESENCE [2],
DONE [1], BUSY [0]. -/
def State.statusWord (s : State) : Word :=
  (0 : BitVec 19) ++ (s.variant.code ++ (s.joinState.code ++ (s.lineEnd.code
    ++ (BitVec.ofBool s.rxPending ++ (BitVec.ofBool s.timedOut ++ (BitVec.ofBool s.crcOk
    ++ (BitVec.ofBool s.presence ++ (BitVec.ofBool s.done ++ BitVec.ofBool s.busy))))))))

/-- PRESENCE for the level a reset slot sampled: a responder holds the line low (R88, R121). -/
def presenceOf (level : Bool) : Bool := !level

/-- A one-bit result in RESULT (R241: zero-extended). -/
def wordOfBool (b : Bool) : Word := (BitVec.ofBool b).setWidth 32

/-- A byte result in RESULT (R241: zero-extended). -/
def wordOfByte (b : Byte) : Word := b.setWidth 32

/-- A count in a 32-bit register. -/
def wordOfNat (n : Nat) : Word := BitVec.ofNat 32 n

/-- The STATUS fields an operation may write, other than BUSY and DONE. -/
inductive StatusField where
  | presence | crcOk | timedOut | rxPending | lineEnd | joinState | variant
deriving DecidableEq, Repr

/-- Does the operation read a line into LINEBUF (R84, column "buffers written")? -/
def opReadsLine : Instr → Bool
  | .lineRead | .radioCmd | .radioCmdText | .radioCmdBin | .radioJoin _ | .radioSend _
  | .radioReset => true
  | .busReset | .busWbit | .busRbit | .busWbyte | .busRbyte | .crcCheck | .sensorStart
  | .sensorWait | .sensorRead | .radioClassify | .radioRecv | .radioConsume | .radioSleep
  | .radioWake | .skipRom | .startConversion | .readScratchpad => false

/-- R84, column "STATUS fields written". -/
def opWritesField (i : Instr) : StatusField → Bool
  | .presence => i == .busReset || i == .sensorStart || i == .sensorRead
  | .crcOk => i == .crcCheck || i == .sensorRead
  | .timedOut => i == .sensorWait
  | .rxPending => i == .radioSend true || i == .radioSend false || i == .radioConsume
  | .lineEnd => opReadsLine i
  | .joinState => i == .radioJoin .otaa || i == .radioJoin .abp
  | .variant => i == .radioReset

/-- R84, column "buffers / registers written", and RESULT, which every operation writes (R241). CMD
and the operand registers are written by none. STATUS is left out: a host read of it returns its
current value at any time (R71). -/
def opWritesReg (i : Instr) : Reg → Bool
  | .result => i.isOperation
  | .tempRaw => i == .sensorRead
  | .lineLen => opReadsLine i
  | .rxpayLen => i == .radioSend true || i == .radioSend false
  | .cmd | .status | .arg0 | .arg1 | .opaLen | .opbLen | .cfg => false

/-- R61, column "written by operations". -/
def opWritesBuf (i : Instr) : Buf → Bool
  | .scratch => i == .sensorRead
  | .linebuf => opReadsLine i
  | .rxpay => i == .radioSend true || i == .radioSend false
  | .outbuf => i == .radioRecv
  | .opbufA | .opbufB | .keyDeveui | .keyAppeui | .keyAppkey | .keyDevaddr | .keyAppskey
  | .keyNwkskey => false

end Sys2Proof.Machine
end

