-- ==== Sys2Proof/Machine/Operands.lean ====
section
/-! DEFINITION. The operand forms: registers read and written (R21, R81), slices of ARG0 (R81), byte
strings in buffers (R84), and the text forms of hex, decimal and command lines (R101 to R103, R111). -/
namespace Sys2Proof.Machine

/-- A register's number (R21). -/
def Reg.num : Reg → Nat
  | .cmd => 0x00
  | .status => 0x01
  | .arg0 => 0x02
  | .arg1 => 0x03
  | .result => 0x04
  | .tempRaw => 0x05
  | .lineLen => 0x06
  | .rxpayLen => 0x07
  | .opaLen => 0x08
  | .opbLen => 0x09
  | .cfg => 0x0A

/-- All registers, in the order of their numbers (R21). -/
def Reg.all : List Reg :=
  [.cmd, .status, .arg0, .arg1, .result, .tempRaw, .lineLen, .rxpayLen, .opaLen, .opbLen, .cfg]

/-- The register a number names, if any (R21). -/
def Reg.ofNum (n : Nat) : Option Reg := Reg.all.find? fun r => r.num == n

/-- A register's contents (R21): CMD reads as 0, unused bits of STATUS, TEMP_RAW and CFG read 0. -/
def State.readReg (s : State) : Reg → Word
  | .cmd => 0
  | .status => s.statusWord
  | .arg0 => s.arg0
  | .arg1 => s.arg1
  | .result => s.result
  | .tempRaw => s.tempRaw.setWidth 32
  | .lineLen => s.lineLen
  | .rxpayLen => s.rxpayLen
  | .opaLen => s.opaLen
  | .opbLen => s.opbLen
  | .cfg => wordOfBool s.adr

/-- `ARG0[0]` as a Boolean (R81, R123). -/
def argBit (w : Word) : Bool := w.getLsbD 0

/-- `ARG0[7:0]` (R81, R129, R208). -/
def argByte (w : Word) : Byte := w.extractLsb' 0 8

/-- STATUS.RX_PENDING in a STATUS word (R26). -/
def statusRxPending (w : Word) : Bool := w.getLsbD 5

/-- CFG.ADR in a CFG word (R37). -/
def cfgAdr (w : Word) : Bool := w.getLsbD 0

/-- The raw temperature of a little-endian pair of bytes, `hi << 8 | lo` (R63, R154). -/
def rawTemperature (hi lo : Byte) : BitVec 16 := hi ++ lo

/-! ## Text (R101 to R103, R111) -/

/-- `hexchar(n)`: '0' to '9', 'A' to 'F' (R101). -/
def hexChar (n : BitVec 4) : Byte :=
  if n.toNat ≤ 9 then 0x30 + n.setWidth 8 else 0x41 + (n.setWidth 8 - 10)

/-- `hex(s)`: two characters a byte, high nibble first, byte 0 first (R101). -/
def hexText : List Byte → List Byte
  | [] => []
  | b :: bs => hexChar (b.extractLsb' 4 4) :: hexChar (b.extractLsb' 0 4) :: hexText bs

/-- The digits of `n` before `acc`, most significant first; `fuel` bounds their number. -/
def decDigits : Nat → Nat → List Byte → List Byte
  | 0, _, acc => acc
  | fuel + 1, n, acc =>
    if n < 10 then BitVec.ofNat 8 (0x30 + n) :: acc
    else decDigits fuel (n / 10) (BitVec.ofNat 8 (0x30 + n % 10) :: acc)

/-- `dec(n)`: base-10 digits, most significant first, no sign, no leading zero (R102). -/
def decText (n : Nat) : List Byte := decDigits (n + 1) n []

/-- `hexval(c)` of a hex digit of either case, none for any other byte (R111). -/
def hexVal? (c : Byte) : Option (BitVec 4) :=
  if 0x30 ≤ c ∧ c ≤ 0x39 then some ((c - 0x30).setWidth 4)
  else if 0x41 ≤ c ∧ c ≤ 0x46 then some ((c - 0x41 + 10).setWidth 4)
  else if 0x61 ≤ c ∧ c ≤ 0x66 then some ((c - 0x61 + 10).setWidth 4)
  else none

/-- A pair of nibbles as a byte, the first one high (R111). -/
def nibblePair (hi lo : BitVec 4) : Byte := hi ++ lo

/-- Carriage return. -/
def cr : Byte := 0x0D
/-- Line feed, the line terminator (R112). -/
def lf : Byte := 0x0A
/-- A space. -/
def spaceChar : Byte := 0x20

/-- A command line, `text ++ param ++ "\r\n"` (R103). -/
def commandLine (text param : List Byte) : List Byte := text ++ param ++ [cr, lf]

end Sys2Proof.Machine
end

