-- ==== Sys2Proof/Machine/Sequencer.lean ====
section
/-! DEFINITION. The sequencer: an operation's pseudocode as a term of `Prog`, its run from start to
end, and one primitive of it at a time.

A `Prog` is written in the order of the spec's pseudocode, one constructor for each thing a line can
do, the rest of the pseudocode as the last argument. The whole machine is in these two readings of one
text: `Prog.run` takes an operation from its issue to its end, `Prog.stepOnce` does one primitive and
notes in SEQ where the operation stands (R48). -/
namespace Sys2Proof.Machine

/-- A line of pseudocode that changes state and answers nothing. -/
inductive Act where
  | busDriveLow
  | busRelease
  | delayUs (n : Nat)
  | uartSend (b : Byte)
  | breakStart (us : Nat)
  | breakEnd
  | setPresence (b : Bool)
  | setCrcOk (b : Bool)
  | setTimedOut (b : Bool)
  | setRxPending (b : Bool)
  | setLineEnd (e : LineEnd)
  | setJoinState (j : JoinState)
  | setVariant (v : Variant)
  | setLineLen (n : Nat)
  | setRxpayLen (n : Nat)
  | setTempRaw (v : BitVec 16)
  | store (b : Buf) (i : Nat) (v : Byte)
deriving DecidableEq, Repr

/-- What a line does to the state. Where LINE_LEN or RXPAY_LEN is written, the bytes past it hold new
free values (R40, R41, I5; log 10). -/
def Act.apply (a : Act) (s : State) : State :=
  match a with
  | .busDriveLow => s.busDriveLow
  | .busRelease => s.busRelease
  | .delayUs n => s.delayUs n
  | .uartSend b => s.uartSend b
  | .breakStart us => s.breakStart us
  | .breakEnd => s.breakEnd
  | .setPresence b => { s with presence := b }
  | .setCrcOk b => { s with crcOk := b }
  | .setTimedOut b => { s with timedOut := b }
  | .setRxPending b => { s with rxPending := b }
  | .setLineEnd e => { s with lineEnd := e }
  | .setJoinState j => { s with joinState := j }
  | .setVariant v => { s with variant := v }
  | .setLineLen n => { s with lineLen := wordOfNat n, heldCount := s.heldCount + 1 }
  | .setRxpayLen n => { s with rxpayLen := wordOfNat n, heldCount := s.heldCount + 1 }
  | .setTempRaw v => { s with tempRaw := v }
  | .store b i v => s.writeByte b i v

/-- Pseudocode (R13, R14). It is no part of State: SEQ holds the operation and the answers its
primitives have had so far, which determine the rest (log 15). -/
inductive Prog where
  /-- `return v` -/
  | ret (v : Word)
  /-- a line that answers nothing -/
  | act (a : Act) (rest : Prog)
  /-- `level <- BusSample()` -/
  | sample (rest : Bool → Prog)
  /-- `r <- UartRecv(tmo)`; none stands for `Timeout` -/
  | recv (tmo : Nat) (rest : Option Byte → Prog)
  /-- the drawn nibble of a byte that is no hex digit (R111) -/
  | nibble (rest : BitVec 4 → Prog)
  /-- `MemRead(BUF, i, 1)` -/
  | load (b : Buf) (i : Nat) (rest : Byte → Prog)
  /-- a read of a register's current value -/
  | reg (r : Reg) (rest : Word → Prog)
  /-- `refuse(reason)` -/
  | refuse (r : Refusal)

/-- Run pseudocode to its `return`: the value and the state there, or the fault or refusal it meets. -/
def Prog.run : Prog → State → Host.Outcome (Word × State) Fault Refusal
  | .ret v, s => .next (v, s)
  | .act a p, s => p.run (a.apply s)
  | .sample k, s => (k s.busLevel).run s.afterSample
  | .recv tmo k, s => (k s.env.rxDraw.byte?).run (s.afterRecv tmo)
  | .nibble k, s => (k (Config.freeNibble s.freeCount)).run s.useFree
  | .load b i k, s =>
    match s.readByte b i with
    | .ok v => (k v).run s
    | .error f => .fault f
  | .reg r k, s => (k (s.readReg r)).run s
  | .refuse r, _ => .refused r

/-- An operation from its issue (R240) to its end (R241), with nothing from outside in between: what
a blocking call of it does (R9, log 2). -/
def runOp (i : Instr) (p : Prog) (s : State) : Host.Outcome State Fault Refusal :=
  match p.run (s.issue i) with
  | .next (v, t) => .next (t.endOp v)
  | .fault f => .fault f
  | .refused r => .refused r

/-- A part of an operation run alone: no issue, no result, no end (R249, log 4). -/
def runPart (p : Prog) (s : State) : Host.Outcome State Fault Refusal :=
  match p.run s with
  | .next (_, t) => .next t
  | .fault f => .fault f
  | .refused r => .refused r

/-- The rest of the pseudocode after given answers: the position a phase stands for (R48). -/
def Prog.resume : List Resp → Prog → Option Prog
  | [], p => some p
  | .done :: h, .act _ p => p.resume h
  | .level l :: h, .sample k => (k l).resume h
  | .rx r :: h, .recv _ k => (k r).resume h
  | .nibble n :: h, .nibble k => (k n).resume h
  | .byte v :: h, .load _ _ k => (k v).resume h
  | .word w :: h, .reg _ k => (k w).resume h
  | _ :: _, _ => none

/-- SEQ ← Exec(op, phase) (R48). -/
@[simps] def State.atPhase (s : State) (i : Instr) (h : List Resp) : State := { s with seq := .exec i h }

/-- One primitive of a running operation, or its end. -/
def Prog.stepOnce (i : Instr) (h : List Resp) : Prog → State → Host.Outcome State Fault Refusal
  | .ret v, s => .next (s.endOp v)
  | .act a _, s => .next ((a.apply s).atPhase i (h ++ [.done]))
  | .sample _, s => .next (s.afterSample.atPhase i (h ++ [.level s.busLevel]))
  | .recv tmo _, s => .next ((s.afterRecv tmo).atPhase i (h ++ [.rx s.env.rxDraw.byte?]))
  | .nibble _, s =>
    .next (s.useFree.atPhase i (h ++ [.nibble (Config.freeNibble s.freeCount)]))
  | .load b j _, s =>
    match s.readByte b j with
    | .ok v => .next (s.atPhase i (h ++ [.byte v]))
    | .error f => .fault f
  | .reg r _, s => .next (s.atPhase i (h ++ [.word (s.readReg r)]))
  | .refuse r, _ => .refused r

/-! ## Pseudocode shared by every unit -/

/-- `BUF[i .. i+n-1]`, read byte by byte (R62). -/
def loadBytes (b : Buf) : Nat → Nat → (List Byte → Prog) → Prog
  | _, 0, k => k []
  | i, n + 1, k => .load b i fun v => loadBytes b (i + 1) n fun vs => k (v :: vs)

/-- Store a byte string at `BUF[i ..]`, byte by byte (R62). -/
def storeBytes (b : Buf) : Nat → List Byte → Prog → Prog
  | _, [], p => p
  | i, v :: vs, p => .act (.store b i v) (storeBytes b (i + 1) vs p)

/-- A byte string operand: `BUF[0 .. LEN-1]` with the length in a register (R84). -/
def loadOperand (b : Buf) (len : Reg) (k : List Byte → Prog) : Prog :=
  .reg len fun n => loadBytes b 0 n.toNat k

/-- A key of the key store: all bytes of its buffer (R38, R201). -/
def loadKey (c : Config) (b : Buf) (k : List Byte → Prog) : Prog := loadBytes b 0 (b.size c) k

end Sys2Proof.Machine
end

