-- ==== Sys2Proof/Machine/LineTransport.lean ====
section
/-! DEFINITION. LineTransport, the line-buffered serial receiver (42_line_transport.md). -/
namespace Sys2Proof.Machine

/-! ## Transmit -/

/-- `UartSendStr(s)`, R170. -/
def sendStr : List Byte → Prog → Prog
  | [], p => p
  | b :: bs, p => .act (.uartSend b) (sendStr bs p)

/-- `SendLine(text, param)`, R171. -/
def sendLine (text param : List Byte) (p : Prog) : Prog :=
  sendStr text <|
  sendStr param <|
  .act (.uartSend cr) <|
  .act (.uartSend lf) <|
  p

/-! ## Receive -/

/-- The loop of `ReadLine`, R175: `room` bytes still fit, `n` are stored. -/
def recvLoop (tmo : Nat) : Nat → Nat → (Nat → LineEnd → Prog) → Prog
  | 0, n, k => k n .full
  | room + 1, n, k =>
    .recv tmo fun r =>
    match r with
    | none => k n .timeout
    | some b =>
      if b = lf then k n .term
      else .act (.store .linebuf n b) <| recvLoop tmo room (n + 1) k

/-- `ReadLine` strips one CR directly before the terminator, R175 and R176. -/
def stripCr (n : Nat) (e : LineEnd) (k : Nat → Prog) : Prog :=
  if e = .term ∧ 0 < n then
    .load .linebuf (n - 1) fun b => if b = cr then k (n - 1) else k n
  else k n

/-- `ReadLine(tmo)`, R175. -/
def readLine (c : Config) (tmo : Nat) (k : Nat → Prog) : Prog :=
  recvLoop tmo c.lineCap 0 fun n e =>
  stripCr n e fun m =>
  .act (.setLineLen m) <|
  .act (.setLineEnd e) <|
  k m

/-- The current line, LINEBUF[0 .. LINE_LEN-1] (R40, R190). -/
def currentLine (k : List Byte → Prog) : Prog := loadOperand .linebuf .lineLen k

/-! ## The operation -/

/-- LINE_READ, R178. -/
def lineReadProg (c : Config) : Prog :=
  .reg .arg0 fun tmo =>
  readLine c tmo.toNat fun n =>
  .ret (wordOfNat n)

/-- `line.read` -/
def execLineRead (s : State) : Host.Outcome State Fault Refusal :=
  runOp .lineRead (lineReadProg s.params) s

end Sys2Proof.Machine
end

