-- ==== Sys2Proof/Machine/Radio.lean ====
section
/-! DEFINITION. RadioDriver, the radio command-response sequencer (43_radio.md). -/
namespace Sys2Proof.Machine

/-! ## The outcome taxonomy (R104, R105) -/

/-- MacTransmitOutcome, in the source's order (R104). -/
inductive TxOutcome where
  | noError | noResponse | timedout | payloadSizeError | internalError | busy
  | networkFatalError | notConnected | noAcknowledgment | silent
deriving DecidableEq, Repr

/-- The outcome's code (R104). -/
def TxOutcome.code : TxOutcome → Word
  | .noError => 0
  | .noResponse => 1
  | .timedout => 2
  | .payloadSizeError => 3
  | .internalError => 4
  | .busy => 5
  | .networkFatalError => 6
  | .notConnected => 7
  | .noAcknowledgment => 8
  | .silent => 9

/-- The error-phrase table of R105, in its order. -/
def errorTable (l : Literals) : List (List Byte × TxOutcome) :=
  [(l.errInvalidParam, .internalError),
   (l.errNotJoined, .notConnected),
   (l.errNoFreeCh, .busy),
   (l.errSilent, .silent),
   (l.errFrameCounter, .networkFatalError),
   (l.errBusy, .busy),
   (l.errMacPaused, .internalError),
   (l.errInvalidDataLen, .payloadSizeError),
   (l.errMacErr, .noAcknowledgment)]

/-- `Classify()` on a line, R192: the first phrase the line is equal to, else NoResponse; an empty
line is NoResponse. -/
def classifyLine (l : Literals) (line : List Byte) : TxOutcome :=
  if line = [] then .noResponse
  else
    match (errorTable l).find? fun e => e.1 == line with
    | some e => e.2
    | none => .noResponse

/-! ## Line predicates and helpers (R190 to R193) -/

/-- `HasSpace()` on a line (R190). -/
def hasSpace (line : List Byte) : Bool := line.contains spaceChar

/-- `Contains(s)` on a line: a contiguous part of it is `s` (R190). -/
def containsText (s line : List Byte) : Bool := line.tails.any fun t => s.isPrefixOf t

/-- `TokEq(s)`, exact, over the whole current line (R190). -/
def tokEq (tok : List Byte) (k : Bool → Prog) : Prog := currentLine fun line => k (line == tok)

/-- `SendCmd(text, param)`, R191. -/
def sendCmd (c : Config) (text param : List Byte) (k : Bool → Prog) : Prog :=
  sendLine text param <|
  readLine c c.tCmdMs fun _ =>
  tokEq c.lits.tokOk k

/-- `return Classify()`, R192. -/
def classifyProg (c : Config) : Prog :=
  currentLine fun line => .ret (classifyLine c.lits line).code

/-- The text after a line's second space, if it has two (R108, R193). -/
def downlinkPayload (line : List Byte) : List Byte :=
  (((line.dropWhile (· != spaceChar)).drop 1).dropWhile (· != spaceChar)).drop 1

/-- `ParseDownlink()`, R193: the text after the second space, truncated to RXPAY_CAP, goes to RXPAY;
with one space the payload is empty. -/
def parseDownlink (c : Config) (line : List Byte) (p : Prog) : Prog :=
  storeBytes .rxpay 0 ((downlinkPayload line).take c.rxpayCap) <|
  .act (.setRxpayLen ((downlinkPayload line).take c.rxpayCap).length) <|
  .act (.setRxPending true) <|
  p

/-- A list of commands, in order, with short-circuit at the first that fails (R201, R222). -/
def sendAll (c : Config) : List (List Byte × List Byte) → (Bool → Prog) → Prog
  | [], k => k true
  | (text, param) :: rest, k =>
    sendCmd c text param fun ok =>
    if ok then sendAll c rest k else k false

/-! ## send_command (R195) -/

/-- SEND_COMMAND with no parameter. -/
def radioCmdProg (c : Config) : Prog :=
  loadOperand .opbufA .opaLen fun text =>
  sendCmd c text [] fun ok =>
  .ret (wordOfBool ok)

/-- SEND_COMMAND with a textual parameter, sent as it is. -/
def radioCmdTextProg (c : Config) : Prog :=
  loadOperand .opbufA .opaLen fun text =>
  loadOperand .opbufB .opbLen fun param =>
  sendCmd c text param fun ok =>
  .ret (wordOfBool ok)

/-- SEND_COMMAND with a binary parameter, sent in hex. -/
def radioCmdBinProg (c : Config) : Prog :=
  loadOperand .opbufA .opaLen fun text =>
  loadOperand .opbufB .opbLen fun param =>
  sendCmd c text (hexText param) fun ok =>
  .ret (wordOfBool ok)

/-! ## join (R201 to R203) -/

/-- The keys a mode sends, each with its command text, in order (R202, R203). -/
def joinKeys (l : Literals) : JoinMode → List (List Byte × Buf)
  | .otaa =>
    [(l.cmdSetDeveui, .keyDeveui), (l.cmdSetAppeui, .keyAppeui), (l.cmdSetAppkey, .keyAppkey)]
  | .abp =>
    [(l.cmdSetDevaddr, .keyDevaddr), (l.cmdSetAppskey, .keyAppskey),
     (l.cmdSetNwkskey, .keyNwkskey)]

/-- The keyword of a mode (R201). -/
def joinKeyword (l : Literals) : JoinMode → List Byte
  | .otaa => l.kwOtaa
  | .abp => l.kwAbp

/-- The text of the ADR flag (R37). -/
def adrText (l : Literals) (adr : Bool) : List Byte := if adr then l.txtAdrOn else l.txtAdrOff

/-- The key commands: each key's bytes in hex after its text (R201). -/
def loadKeys (c : Config) :
    List (List Byte × Buf) → (List (List Byte × List Byte) → Prog) → Prog
  | [], k => k []
  | (text, b) :: rest, k =>
    loadKey c b fun v => loadKeys c rest fun steps => k ((text, hexText v) :: steps)

/-- JOIN after the parameter commands: the join command, its "ok", and the accept line (R201). -/
def joinExchange (c : Config) (mode : JoinMode) : Prog :=
  .act (.setJoinState .awaitingOk) <|
  sendCmd c c.lits.cmdJoin (joinKeyword c.lits mode) fun ok =>
  if ok then
    .act (.setJoinState .awaitingAccept) <|
    readLine c Config.tJoinMs fun _ =>
    tokEq c.lits.tokAccepted fun accepted =>
    if accepted then
      .act (.setJoinState .joined) <|
      .ret 1
    else
      .act (.setJoinState .notJoined) <|
      .ret 0
  else
    .act (.setJoinState .notJoined) <|
    .ret 0

/-- JOIN, R201. -/
def radioJoinProg (c : Config) (mode : JoinMode) : Prog :=
  .act (.setJoinState .notJoined) <|
  .reg .cfg fun cfg =>
  loadKeys c (joinKeys c.lits mode) fun steps =>
  sendAll c (steps ++ [(c.lits.cmdSetAdr, adrText c.lits (cfgAdr cfg))]) fun ok =>
  if ok then joinExchange c mode else .ret 0

/-! ## send (R208 to R213) -/

/-- The transmit command text, R209. -/
def txText (l : Literals) (conf : Bool) (port : Byte) : List Byte :=
  (if conf then l.cmdTxCnf else l.cmdTxUncnf) ++ decText port.toNat ++ [spaceChar]

/-- The receive window of SEND, R208 and R210. -/
def receiveWindow (c : Config) : Prog :=
  readLine c c.tRxwinMs fun n =>
  if n = 0 then .ret TxOutcome.timedout.code
  else
    tokEq c.lits.tokTxOk fun txOk =>
    if txOk then .ret TxOutcome.noError.code
    else
      currentLine fun line =>
      if hasSpace line then
        parseDownlink c line <|
        .ret TxOutcome.noError.code
      else classifyProg c

/-- SEND, R208. -/
def radioSendProg (c : Config) (conf : Bool) : Prog :=
  .act (.setRxPending false) <|
  .reg .arg0 fun a =>
  loadOperand .opbufB .opbLen fun payload =>
  sendCmd c (txText c.lits conf (argByte a)) (hexText payload) fun ok =>
  if ok then receiveWindow c else classifyProg c

/-! ## receive and consume (R216, R219) -/

/-- The stored payload's length: RXPAY_LEN, or the index of the first zero byte (R216). -/
def payloadLength : Nat → Nat → (Nat → Prog) → Prog
  | i, 0, k => k i
  | i, n + 1, k => .load .rxpay i fun b => if b = 0 then k i else payloadLength (i + 1) n k

/-- `hexval(c)`; a drawn nibble for a byte that is no hex digit (R111). -/
def hexVal (ch : Byte) (k : BitVec 4 → Prog) : Prog :=
  match hexVal? ch with
  | some v => k v
  | none => .nibble k

/-- The copy loop of RECEIVE: at most `room` more bytes, from character `p` to OUTBUF[j] (R216). -/
def copyLoop (len : Nat) : Nat → Nat → Nat → Prog
  | 0, j, _ => .ret (wordOfNat j)
  | room + 1, j, p =>
    if p + 1 < len then
      .load .rxpay p fun c1 =>
      hexVal c1 fun hi =>
      .load .rxpay (p + 1) fun c2 =>
      hexVal c2 fun lo =>
      .act (.store .outbuf j (nibblePair hi lo)) <|
      copyLoop len room (j + 1) (p + 2)
    else .ret (wordOfNat j)

/-- RECEIVE, R216. A write of CMD with ARG1 > OUT_CAP is refused before it is issued (R246 condition 7),
so the refusal here is that of a blocking call (log 31). -/
def radioRecvProg (c : Config) : Prog :=
  .reg .arg0 fun off =>
  .reg .arg1 fun cnt =>
  if c.outCap < cnt.toNat then .refuse (.countAboveOutCap cnt)
  else
    .reg .status fun st =>
    if statusRxPending st then
      .reg .rxpayLen fun n =>
      payloadLength 0 n.toNat fun len =>
      if len < off.toNat then .ret 0
      else copyLoop len cnt.toNat 0 (2 * off.toNat)
    else .ret 0

/-- RX_CONSUME, R219. -/
def radioConsumeProg : Prog :=
  .act (.setRxPending false) <|
  .ret 0

/-! ## reset_device, sleep, wake (R222, R227, R229) -/

/-- The variant an identity line names, A first (R109, R222). -/
def identify (l : Literals) (line : List Byte) : Variant :=
  if containsText l.idSubstrA line then .variantA
  else if containsText l.idSubstrB line then .variantB
  else .unknown

/-- The configuration list of a variant (R223). -/
def configOf (c : Config) : Variant → List (List Byte × List Byte)
  | .variantA => c.configA
  | .variantB => c.configB
  | .unknown => []

/-- RESET_DEVICE, R222. -/
def radioResetProg (c : Config) : Prog :=
  sendLine c.lits.cmdSysReset [] <|
  readLine c c.tResetMs fun _ =>
  currentLine fun line =>
  .act (.setVariant (identify c.lits line)) <|
  if identify c.lits line = .unknown then .ret 0
  else
    sendAll c (configOf c (identify c.lits line)) fun ok =>
    .ret (wordOfBool ok)

/-- SLEEP, R227. -/
def radioSleepProg (c : Config) : Prog :=
  .reg .arg0 fun d =>
  if d.toNat ≤ c.sleepMinMs then .ret 0
  else
    sendLine c.lits.cmdSleep (decText d.toNat) <|
    .ret 1

/-- `UartBreak(d)`: the output in the break condition for `d` µs (R13, R110; log 25). -/
def uartBreak (us : Nat) (p : Prog) : Prog :=
  .act (.breakStart us) <|
  .act (.delayUs us) <|
  .act .breakEnd <|
  p

/-- WAKE, R229. -/
def radioWakeProg (c : Config) : Prog :=
  uartBreak c.tBreakUs <|
  .act (.uartSend c.syncByte) <|
  .ret 0

/-! ## The operations -/

/-- `radio.cmd`, no parameter -/
def execRadioCmd (s : State) : Host.Outcome State Fault Refusal :=
  runOp .radioCmd (radioCmdProg s.params) s

/-- `radio.cmd`, textual parameter -/
def execRadioCmdText (s : State) : Host.Outcome State Fault Refusal :=
  runOp .radioCmdText (radioCmdTextProg s.params) s

/-- `radio.cmd`, binary parameter -/
def execRadioCmdBin (s : State) : Host.Outcome State Fault Refusal :=
  runOp .radioCmdBin (radioCmdBinProg s.params) s

/-- `radio.classify` -/
def execRadioClassify (s : State) : Host.Outcome State Fault Refusal :=
  runOp .radioClassify (classifyProg s.params) s

/-- `radio.join` -/
def execRadioJoin (mode : JoinMode) (s : State) : Host.Outcome State Fault Refusal :=
  runOp (.radioJoin mode) (radioJoinProg s.params mode) s

/-- `radio.send` -/
def execRadioSend (conf : Bool) (s : State) : Host.Outcome State Fault Refusal :=
  runOp (.radioSend conf) (radioSendProg s.params conf) s

/-- `radio.recv` -/
def execRadioRecv (s : State) : Host.Outcome State Fault Refusal :=
  runOp .radioRecv (radioRecvProg s.params) s

/-- `radio.consume` -/
def execRadioConsume (s : State) : Host.Outcome State Fault Refusal :=
  runOp .radioConsume radioConsumeProg s

/-- `radio.reset` -/
def execRadioReset (s : State) : Host.Outcome State Fault Refusal :=
  runOp .radioReset (radioResetProg s.params) s

/-- `radio.sleep` -/
def execRadioSleep (s : State) : Host.Outcome State Fault Refusal :=
  runOp .radioSleep (radioSleepProg s.params) s

/-- `radio.wake` -/
def execRadioWake (s : State) : Host.Outcome State Fault Refusal :=
  runOp .radioWake (radioWakeProg s.params) s

end Sys2Proof.Machine
end

