-- ==== Sys2Proof/Machine/BusLine.lean ====
section
/-! DEFINITION. BusLine, the single-wire bus controller (40_busline.md): the slot functions, the five
bus operations, and the three sensor command bytes of 30_encoding.md R93. -/
namespace Sys2Proof.Machine

/-- `ResetSlot()`, R121 and R88. -/
def resetSlot (c : Config) (k : Bool → Prog) : Prog :=
  .act .busDriveLow <|
  .act (.delayUs c.tRstl) <|
  .act .busRelease <|
  .act (.delayUs c.tMsp) <|
  .sample fun level =>
  .act (.delayUs (c.tRstSlot - c.tRstl - c.tMsp)) <|
  k (presenceOf level)

/-- How long a write slot holds the line low: T_LOW1 for a 1, T_LOW0 for a 0 (R89, R90). -/
def lowTime (c : Config) (b : Bool) : Nat := if b then c.tLow1 else c.tLow0

/-- `WriteSlot(b)`, R123, R89 and R90. -/
def writeSlot (c : Config) (b : Bool) (p : Prog) : Prog :=
  .act .busDriveLow <|
  .act (.delayUs (lowTime c b)) <|
  .act .busRelease <|
  .act (.delayUs (c.tSlot - lowTime c b)) <|
  p

/-- `ReadSlot()`, R125 and R91. -/
def readSlot (c : Config) (k : Bool → Prog) : Prog :=
  .act .busDriveLow <|
  .act (.delayUs c.tRl) <|
  .act .busRelease <|
  .act (.delayUs c.tMsr) <|
  .sample fun level =>
  .act (.delayUs (c.tSlot - c.tRl - c.tMsr)) <|
  k level

/-- Write slots for given bits, in order. -/
def writeBits (c : Config) : List Bool → Prog → Prog
  | [], p => p
  | b :: bs, p => writeSlot c b (writeBits c bs p)

/-- The bits of a byte in the order of its slots: least significant first (R64, R92). -/
def bitsOfByte (v : Byte) : List Bool := (List.range 8).map fun k => v.getLsbD k

/-- `WriteByte(v)`, R128: slot k carries bit k. -/
def writeByte (c : Config) (v : Byte) (p : Prog) : Prog := writeBits c (bitsOfByte v) p

/-- `n` read slots; the levels in slot order. -/
def readBits (c : Config) : Nat → (List Bool → Prog) → Prog
  | 0, k => k []
  | n + 1, k => readSlot c fun b => readBits c n fun bs => k (b :: bs)

/-- The byte whose bit k is the k-th level (R92, R130). -/
def byteOfBits : List Bool → Byte
  | [] => 0
  | b :: bs => (byteOfBits bs <<< 1) ||| (if b then 1 else 0)

/-- `ReadByte()`, R130. -/
def readByte (c : Config) (k : Byte → Prog) : Prog := readBits c 8 fun bs => k (byteOfBits bs)

/-! ## The sensor command bytes (R93) -/

/-- SkipROM. -/
def skipRomByte : Byte := 0xCC
/-- StartConversion. -/
def startConversionByte : Byte := 0x44
/-- ReadScratchpad. -/
def readScratchpadByte : Byte := 0xBE

/-! ## The operations -/

/-- BUS_RESET, R121. -/
def busResetProg (c : Config) : Prog :=
  resetSlot c fun p =>
  .act (.setPresence p) <|
  .ret (wordOfBool p)

/-- BUS_WRITE_BIT, R123. -/
def busWbitProg (c : Config) : Prog :=
  .reg .arg0 fun a =>
  writeSlot c (argBit a) <|
  .ret 0

/-- BUS_READ_BIT, R127. -/
def busRbitProg (c : Config) : Prog := readSlot c fun b => .ret (wordOfBool b)

/-- BUS_WRITE_BYTE, R129. -/
def busWbyteProg (c : Config) : Prog :=
  .reg .arg0 fun a =>
  writeByte c (argByte a) <|
  .ret 0

/-- BUS_READ_BYTE, R131. -/
def busRbyteProg (c : Config) : Prog := readByte c fun v => .ret (wordOfByte v)

/-- A sensor command byte sent alone, R92, R93 and R128 (log 4). -/
def busCmdProg (c : Config) (v : Byte) : Prog := writeByte c v (.ret 0)

/-- `bus.reset` -/
def execBusReset (s : State) : Host.Outcome State Fault Refusal :=
  runOp .busReset (busResetProg s.params) s

/-- `bus.wbit` -/
def execBusWbit (s : State) : Host.Outcome State Fault Refusal :=
  runOp .busWbit (busWbitProg s.params) s

/-- `bus.rbit` -/
def execBusRbit (s : State) : Host.Outcome State Fault Refusal :=
  runOp .busRbit (busRbitProg s.params) s

/-- `bus.wbyte` -/
def execBusWbyte (s : State) : Host.Outcome State Fault Refusal :=
  runOp .busWbyte (busWbyteProg s.params) s

/-- `bus.rbyte` -/
def execBusRbyte (s : State) : Host.Outcome State Fault Refusal :=
  runOp .busRbyte (busRbyteProg s.params) s

/-- SkipROM on the bus -/
def execSkipRom (s : State) : Host.Outcome State Fault Refusal :=
  runPart (busCmdProg s.params skipRomByte) s

/-- StartConversion on the bus -/
def execStartConversion (s : State) : Host.Outcome State Fault Refusal :=
  runPart (busCmdProg s.params startConversionByte) s

/-- ReadScratchpad on the bus -/
def execReadScratchpad (s : State) : Host.Outcome State Fault Refusal :=
  runPart (busCmdProg s.params readScratchpadByte) s

end Sys2Proof.Machine
end

