-- ==== Sys2Proof/Machine/SensorCrc.lean ====
section
/-! DEFINITION. The CRC-8 validator and the temperature-sensor sequencer (41_sensor_crc.md). -/
namespace Sys2Proof.Machine

/-! ## CRC-8 (R140, R141) -/

/-- The reflected polynomial's XOR mask. -/
def crcPoly : Byte := 0x8C

/-- The initial value. -/
def crcInit : Byte := 0x00

/-- The inner loop of R141 over the `n` lowest bits of `b`, least significant first. -/
def crcBits : Nat → Byte → Byte → Byte
  | 0, crc, _ => crc
  | n + 1, crc, b =>
    crcBits n (if ((crc ^^^ b) &&& 1) = 1 then (crc >>> 1) ^^^ crcPoly else crc >>> 1) (b >>> 1)

/-- One byte of the outer loop of R141. -/
def crcByte (crc b : Byte) : Byte := crcBits 8 crc b

/-- `CRC8(d)`, R141. -/
def crc8 (d : List Byte) : Byte := d.foldl crcByte crcInit

/-! ## Pseudocode -/

/-- CRC8 of SCRATCH[0..7], compared with SCRATCH[8] (R143, R152). -/
def checkScratch (k : Byte → Bool → Prog) : Prog :=
  loadBytes .scratch 0 8 fun d =>
  .load .scratch 8 fun e =>
  k (crc8 d) (crc8 d == e)

/-- CRC_CHECK, R143. -/
def crcCheckProg : Prog :=
  checkScratch fun c ok =>
  .act (.setCrcOk ok) <|
  .ret (wordOfByte c)

/-- SENSOR_START, R147. -/
def sensorStartProg (c : Config) : Prog :=
  resetSlot c fun p =>
  .act (.setPresence p) <|
  if p then
    writeByte c skipRomByte <|
    writeByte c startConversionByte <|
    .ret 0
  else .ret 0

/-- The polls of SENSOR_WAIT that are left: read first, then 10 ms after every 0 (R150, R151). -/
def pollLoop (c : Config) : Nat → Prog
  | 0 => .act (.setTimedOut true) <| .ret 1
  | n + 1 =>
    readSlot c fun b =>
    if b then .act (.setTimedOut false) <| .ret 0
    else .act (.delayUs (1000 * Config.pollIntervalMs)) <| pollLoop c n

/-- SENSOR_WAIT, R150. -/
def sensorWaitProg (c : Config) : Prog := pollLoop c Config.pollMax

/-- `for j in 0 .. 8: SCRATCH[j] <- ReadByte()`, R152: `n` bytes from index `j`. -/
def readScratch (c : Config) : Nat → Nat → Prog → Prog
  | _, 0, p => p
  | j, n + 1, p => readByte c fun v => .act (.store .scratch j v) <| readScratch c (j + 1) n p

/-- SENSOR_READ, R152. -/
def sensorReadProg (c : Config) : Prog :=
  resetSlot c fun p =>
  .act (.setPresence p) <|
  if p then
    writeByte c skipRomByte <|
    writeByte c readScratchpadByte <|
    readScratch c 0 Config.scratchLen <|
    checkScratch fun _ ok =>
    if ok then
      .act (.setCrcOk true) <|
      .load .scratch 1 fun hi =>
      .load .scratch 0 fun lo =>
      .act (.setTempRaw (rawTemperature hi lo)) <|
      .ret 1
    else
      .act (.setCrcOk false) <|
      .ret 0
  else
    .act (.setCrcOk false) <|
    .ret 0

/-! ## The operations -/

/-- `crc.check` -/
def execCrcCheck (s : State) : Host.Outcome State Fault Refusal := runOp .crcCheck crcCheckProg s

/-- `sensor.start` -/
def execSensorStart (s : State) : Host.Outcome State Fault Refusal :=
  runOp .sensorStart (sensorStartProg s.params) s

/-- `sensor.wait` -/
def execSensorWait (s : State) : Host.Outcome State Fault Refusal :=
  runOp .sensorWait (sensorWaitProg s.params) s

/-- `sensor.read` -/
def execSensorRead (s : State) : Host.Outcome State Fault Refusal :=
  runOp .sensorRead (sensorReadProg s.params) s

/-! ## What the host makes of the result (R154 to R156) -/

/-- The raw temperature as a signed integer, in 1/16 °C (R154). -/
def State.rawTemp (s : State) : Int := s.tempRaw.toInt

/-- The host's reading in °C after a SENSOR_READ: the exact rational raw/16 when RESULT = 1, else the
not-a-number sentinel, for which this function answers none (R155, R156). -/
def State.hostReading (s : State) : Option Rat :=
  if s.result = 1 then some ((s.rawTemp : Rat) / 16) else none

end Sys2Proof.Machine
end

