-- ==== Sys2Proof/Machine/Dispatch.lean ====
section
/-! DEFINITION. The dispatcher: one arm for each row of spec/opcode_table.json, each a direct call of
the instruction's meaning. No arm is refused by name. -/
namespace Sys2Proof.Machine

def exec (i : Instr) (s : State) : Host.Outcome State Fault Refusal :=
  match i with
  | .busReset => Sys2Proof.Machine.execBusReset s
  | .busWbit => Sys2Proof.Machine.execBusWbit s
  | .busRbit => Sys2Proof.Machine.execBusRbit s
  | .busWbyte => Sys2Proof.Machine.execBusWbyte s
  | .busRbyte => Sys2Proof.Machine.execBusRbyte s
  | .crcCheck => Sys2Proof.Machine.execCrcCheck s
  | .sensorStart => Sys2Proof.Machine.execSensorStart s
  | .sensorWait => Sys2Proof.Machine.execSensorWait s
  | .sensorRead => Sys2Proof.Machine.execSensorRead s
  | .lineRead => Sys2Proof.Machine.execLineRead s
  | .radioCmd => Sys2Proof.Machine.execRadioCmd s
  | .radioCmdText => Sys2Proof.Machine.execRadioCmdText s
  | .radioCmdBin => Sys2Proof.Machine.execRadioCmdBin s
  | .radioClassify => Sys2Proof.Machine.execRadioClassify s
  | .radioJoin mode => Sys2Proof.Machine.execRadioJoin mode s
  | .radioSend conf => Sys2Proof.Machine.execRadioSend conf s
  | .radioRecv => Sys2Proof.Machine.execRadioRecv s
  | .radioConsume => Sys2Proof.Machine.execRadioConsume s
  | .radioReset => Sys2Proof.Machine.execRadioReset s
  | .radioSleep => Sys2Proof.Machine.execRadioSleep s
  | .radioWake => Sys2Proof.Machine.execRadioWake s
  | .skipRom => Sys2Proof.Machine.execSkipRom s
  | .startConversion => Sys2Proof.Machine.execStartConversion s
  | .readScratchpad => Sys2Proof.Machine.execReadScratchpad s

end Sys2Proof.Machine
end

