-- ==== Sys2Proof/Machine/Programs.lean ====
section
/-! DEFINITION. The pseudocode of every operation, for the sequencer to take one primitive at a time
(R48, R240). It is the same pseudocode that each instruction's meaning runs from issue to end. -/
namespace Sys2Proof.Machine

/-- An operation's pseudocode with given parameters. The last three rows are no operations and are
never issued (log 4). -/
def program (c : Config) : Instr → Prog
  | .busReset => busResetProg c
  | .busWbit => busWbitProg c
  | .busRbit => busRbitProg c
  | .busWbyte => busWbyteProg c
  | .busRbyte => busRbyteProg c
  | .crcCheck => crcCheckProg
  | .sensorStart => sensorStartProg c
  | .sensorWait => sensorWaitProg c
  | .sensorRead => sensorReadProg c
  | .lineRead => lineReadProg c
  | .radioCmd => radioCmdProg c
  | .radioCmdText => radioCmdTextProg c
  | .radioCmdBin => radioCmdBinProg c
  | .radioClassify => classifyProg c
  | .radioJoin mode => radioJoinProg c mode
  | .radioSend conf => radioSendProg c conf
  | .radioRecv => radioRecvProg c
  | .radioConsume => radioConsumeProg
  | .radioReset => radioResetProg c
  | .radioSleep => radioSleepProg c
  | .radioWake => radioWakeProg c
  | .skipRom => busCmdProg c skipRomByte
  | .startConversion => busCmdProg c startConversionByte
  | .readScratchpad => busCmdProg c readScratchpadByte

/-- The block left to itself for one step: a running operation does one primitive or ends, and an
idle block lets a microsecond pass (R44, R48, log 24). -/
def seqStep (s : State) : Host.Outcome State Fault Refusal :=
  match s.seq with
  | .idle => .next s.elapse
  | .exec i h =>
    match (program s.params i).resume h with
    | some p => p.stepOnce i h s
    | none => .fault (.phaseLost i)

end Sys2Proof.Machine
end

