-- ==== Sys2Proof/Machine/HostPort.lean ====
section
/-! DEFINITION. The host's accesses, CMD writes and the RST input (10_state.md R21 to R24, 20_memory.md
R60 to R72, 60_exceptions.md R240 and R246, 70_reset_and_hazards.md R260 and R261). -/
namespace Sys2Proof.Machine

/-! ## Reads (R68, R71) -/

/-- What a host read returns (log 22). -/
@[simps] def State.answer (s : State) (v : Word) : State := { s with hostData := v }

/-- May the running operation, if any, write the register (R71)? -/
def State.regInFlight (s : State) (r : Reg) : Bool :=
  match s.seq with
  | .idle => false
  | .exec i _ => opWritesReg i r

/-- May the running operation, if any, write the buffer (R71)? -/
def State.bufInFlight (s : State) (b : Buf) : Bool :=
  match s.seq with
  | .idle => false
  | .exec i _ => opWritesBuf i b

/-- A register's word as a host reads it when its bits hold those of `w`: its reserved bits read 0
(R21, R35, I13). STATUS and CFG, which have reserved bits too, are written by no operation in flight. -/
def Reg.reads (r : Reg) (w : Word) : Word :=
  match r with
  | .tempRaw => (w.setWidth 16).setWidth 32
  | .cmd | .status | .arg0 | .arg1 | .result | .lineLen | .rxpayLen | .opaLen | .opbLen | .cfg => w

/-- A host read of a register: its value, or any value while the running operation may write it
(R71, I3; log 10), but for TEMP_RAW[31:16], which read 0 at any time (R35, I13). -/
def hostReadReg (s : State) (width : Nat) (num : Byte) : Host.Outcome State Fault Refusal :=
  if width ≠ 32 then .refused (.wrongWidth width)
  else
    match Reg.ofNum num.toNat with
    | none => .refused (.noSuchRegister num)
    | some r =>
      if s.regInFlight r then .next (s.useFree.answer (r.reads (Config.freeWord s.freeCount)))
      else .next (s.answer (s.readReg r))

/-- Is byte `i` of the buffer past the current line or payload, where it holds any value (R40, I5)? -/
def State.pastLength (s : State) (b : Buf) (i : Nat) : Bool :=
  match b with
  | .linebuf => decide (s.lineLen.toNat ≤ i)
  | .rxpay => decide (s.rxpayLen.toNat ≤ i)
  | .scratch | .outbuf | .opbufA | .opbufB | .keyDeveui | .keyAppeui | .keyAppkey | .keyDevaddr
  | .keyAppskey | .keyNwkskey => false

/-- A host read of byte `i` of a buffer: any value while the running operation may write the buffer
(R71, I3), a fault for a byte nothing has written since reset (R62, I4), the free value held past the
current line or payload (I5), which stays the same from read to read (R68), else the byte's value. -/
def hostReadBuf (s : State) (width : Nat) (space : Byte) (i : Nat) :
    Host.Outcome State Fault Refusal :=
  if width ≠ 8 then .refused (.wrongWidth width)
  else
    match Buf.ofId space.toNat with
    | none => .refused (.noSuchBuffer space)
    | some b =>
      if b.size s.params ≤ i then .refused (.indexOutOfRange b i)
      else if s.bufInFlight b then .next (s.useFree.answer (wordOfByte (Config.freeByte s.freeCount)))
      else
        match s.byte? b i with
        | none => .fault (.unwrittenByte b i)
        | some v =>
          if s.pastLength b i then
            .next (s.answer (wordOfByte (Config.heldByte s.heldCount (b.addr i))))
          else .next (s.answer (wordOfByte v))

/-! ## Writes (R68, R72) -/

/-- The refusal that an operation's operands call for: RECEIVE with ARG1 > OUT_CAP (R216, R246
condition 7). -/
def State.operandRefusal (s : State) (i : Instr) : Option Refusal :=
  match i with
  | .radioRecv => if s.params.outCap < s.arg1.toNat then some (.countAboveOutCap s.arg1) else none
  | .busReset | .busWbit | .busRbit | .busWbyte | .busRbyte | .crcCheck | .sensorStart | .sensorWait
  | .sensorRead | .lineRead | .radioCmd | .radioCmdText | .radioCmdBin | .radioClassify
  | .radioJoin _ | .radioSend _ | .radioConsume | .radioReset | .radioSleep | .radioWake | .skipRom
  | .startConversion | .readScratchpad => none

/-- A host write of CMD: the operation is issued (R24, R240). A reserved word is refused (R83), and so
is a RECEIVE whose operand R246 condition 7 forbids: a refused request changes no block state, so it is
not issued (log 31). -/
def hostIssue (s : State) (w : Word) : Host.Outcome State Fault Refusal :=
  match decodeCmd w with
  | .ok i =>
    match s.operandRefusal i with
    | some r => .refused r
    | none => .next (s.issue i)
  | .error _ => .refused (.reservedEncoding (.cmd w))

/-- A host write of a length register: above OPBUF_CAP it is refused (R36). -/
def hostSetLength (s t : State) (v : Word) : Host.Outcome State Fault Refusal :=
  if s.params.opbufCap < v.toNat then .refused (.lengthAboveCapacity v) else .next t

/-- A host write of a register. -/
def hostWriteReg (s : State) (width : Nat) (num : Byte) (v : Word) :
    Host.Outcome State Fault Refusal :=
  if s.busy then .refused .writeWhileBusy
  else if width ≠ 32 then .refused (.wrongWidth width)
  else
    match Reg.ofNum num.toNat with
    | none => .refused (.noSuchRegister num)
    | some .cmd => hostIssue s v
    | some .arg0 => .next { s with arg0 := v }
    | some .arg1 => .next { s with arg1 := v }
    | some .opaLen => hostSetLength s { s with opaLen := v } v
    | some .opbLen => hostSetLength s { s with opbLen := v } v
    | some .cfg => .next { s with adr := cfgAdr v }
    | some .status => .refused (.readOnlyRegister .status)
    | some .result => .refused (.readOnlyRegister .result)
    | some .tempRaw => .refused (.readOnlyRegister .tempRaw)
    | some .lineLen => .refused (.readOnlyRegister .lineLen)
    | some .rxpayLen => .refused (.readOnlyRegister .rxpayLen)

/-- A host write of byte `i` of a buffer (R61, R72). -/
def hostWriteBuf (s : State) (width : Nat) (space : Byte) (i : Nat) (v : Byte) :
    Host.Outcome State Fault Refusal :=
  if s.busy then .refused .writeWhileBusy
  else if width ≠ 8 then .refused (.wrongWidth width)
  else
    match Buf.ofId space.toNat with
    | none => .refused (.noSuchBuffer space)
    | some b =>
      if b.size s.params ≤ i then .refused (.indexOutOfRange b i)
      else if b.hostWritable then .next (s.writeByte b i v)
      else .refused (.readOnlyBuffer b)

/-! ## Instructions -/

/-- Run the instruction of a word from issue to end: the block's fetch. While an operation runs the
request is refused (R24, R246); a reserved word is refused and no state changes (R83). -/
def runWord (s : State) (iw : InstrWord) : Host.Outcome State Fault Refusal :=
  if s.busy then .refused .writeWhileBusy
  else
    match decode iw with
    | .ok i => exec i s
    | .error _ => .refused (.reservedEncoding iw)

/-- What the outside does, done to the block. -/
def serve (x : Input) (s : State) : Host.Outcome State Fault Refusal :=
  match x with
  | .quiet => seqStep s
  | .rst => .next s.blockReset
  | .call w => runWord s (.cmd w)
  | .busCmd b => runWord s (.busCmd b)
  | .readReg width num => hostReadReg s width num
  | .writeReg width num v => hostWriteReg s width num v
  | .readBuf width space i => hostReadBuf s width space i
  | .writeBuf width space i v => hostWriteBuf s width space i v

/-- One step: what the outside does next, or, if it does nothing more, the block left to itself. -/
def serveNext (s : State) : Host.Outcome State Fault Refusal :=
  match s.inputs with
  | [] => seqStep s
  | x :: rest => serve x { s with inputs := rest }

/-- The request that makes the block run a word. -/
def requestOf : InstrWord → Input
  | .cmd w => .call w
  | .busCmd b => .busCmd b

/-- A state in which the very next step runs a word: the block is idle and the word is asked of it. -/
@[simps] def State.withRequest (s : State) (iw : InstrWord) : State :=
  { s with seq := .idle, inputs := requestOf iw :: s.inputs }

end Sys2Proof.Machine
end

