-- ==== Sys2Proof/Safety.lean ====
section
/-! DEFINITION. The terms the claims are stated in: what a good state is, when an operation is ready to
run, what an operation may change, and the spec's own descriptions of waveforms, received lines and
exchanges, each written without the machine. -/
namespace Sys2Proof.Machine

/-- `n` microseconds on the time base (R44). -/
abbrev us (n : Nat) : Time := BitVec.ofNat 64 n

/-! ## Byte strings in buffers -/

/-- The `n` bytes of a buffer from index `i`, if all have been written since reset. -/
def State.bytes? (s : State) (b : Buf) : Nat → Nat → Option (List Byte)
  | _, 0 => some []
  | i, n + 1 =>
    match s.byte? b i, s.bytes? b (i + 1) n with
    | some v, some vs => some (v :: vs)
    | _, _ => none

/-- The byte string `BUF[0 .. len-1]` of an operand or a line: it lies in the buffer and all of it has
been written (R36, R62). -/
def State.string? (s : State) (b : Buf) (len : Word) : Option (List Byte) :=
  if len.toNat ≤ b.size s.params then s.bytes? b 0 len.toNat else none

/-- A key of the key store (R38). -/
def State.key? (s : State) (b : Buf) : Option (List Byte) := s.bytes? b 0 (b.size s.params)

/-! ## Waveforms (R87 to R92)

Times are those of the slot's start `t`; a slot ends `us (its total)` after it. -/

/-- The reset slot, R88. -/
def resetSlotEvents (c : Config) (t : Time) (level : Bool) : List Event :=
  [.busLow t, .busRel (t + us c.tRstl), .busSmp (t + us c.tRstl + us c.tMsp) level]

/-- The write-1 slot (R89) and the write-0 slot (R90). -/
def writeSlotEvents (c : Config) (t : Time) (b : Bool) : List Event :=
  [.busLow t, .busRel (t + us (if b then c.tLow1 else c.tLow0))]

/-- The read slot, R91. -/
def readSlotEvents (c : Config) (t : Time) (level : Bool) : List Event :=
  [.busLow t, .busRel (t + us c.tRl), .busSmp (t + us c.tRl + us c.tMsr) level]

/-- Write slots back to back (R87, R92). -/
def writeSlotsEvents (c : Config) : Time → List Bool → List Event
  | _, [] => []
  | t, b :: bs => writeSlotEvents c t b ++ writeSlotsEvents c (t + us c.tSlot) bs

/-- Read slots back to back (R87, R92). -/
def readSlotsEvents (c : Config) : Time → List Bool → List Event
  | _, [] => []
  | t, l :: ls => readSlotEvents c t l ++ readSlotsEvents c (t + us c.tSlot) ls

/-- The slots of a written byte: slot k carries bit k (R92, R128). -/
def writeByteEvents (c : Config) (t : Time) (v : Byte) : List Event :=
  writeSlotsEvents c t
    [v.getLsbD 0, v.getLsbD 1, v.getLsbD 2, v.getLsbD 3,
     v.getLsbD 4, v.getLsbD 5, v.getLsbD 6, v.getLsbD 7]

/-- The state after slots: the line released, the events in TRACE, the time passed. -/
def State.afterSlots (s : State) (events : List Event) (n : Nat) : State :=
  { s with busDrive := false, trace := s.trace ++ events, timeUs := s.timeUs + us n }

/-- The next `n` levels the responder leaves on the line (R15). -/
def Env.levels : Nat → Env → List Bool
  | 0, _ => []
  | n + 1, e => e.busLevel :: e.afterBus.levels n

/-- The environment after `n` samples. -/
def Env.dropBus : Nat → Env → Env
  | 0, e => e
  | n + 1, e => e.afterBus.dropBus n

/-- The byte whose bit k is the level of slot k, as a number (R92, R130). -/
def levelsValue : List Bool → Nat
  | [] => 0
  | l :: ls => (if l then 1 else 0) + 2 * levelsValue ls

/-- The next `n` bytes read from the bus, eight levels each, least significant bit first (R92). -/
def Env.busBytes : Nat → Env → List Byte
  | 0, _ => []
  | n + 1, e => BitVec.ofNat 8 (levelsValue (e.levels 8)) :: (e.dropBus 8).busBytes n

/-- Polls that read given levels: a read slot each, and POLL_INTERVAL_MS after every slot that is
followed by another (R150, R151). -/
def pollEvents (c : Config) : Time → List Bool → List Event
  | _, [] => []
  | t, l :: ls => readSlotEvents c t l ++ pollEvents c (t + us (c.tSlot + 10000)) ls

/-! ## Received lines (R172 to R176) -/

/-- What one line read gets: the bytes before the terminator, why it ended, the environment's draws
after it, the events it leaves in TRACE, and how long it waited. -/
structure RawLine where
  bytes : List Byte
  ending : LineEnd
  env : Env
  events : List Event
  waited : Nat
deriving DecidableEq, Repr

/-- The receive loop with room for `room` bytes and `tmo` ms for each wait (R175). -/
def rawLine (tmo : Nat) : Nat → Env → RawLine
  | 0, e => ⟨[], .full, e, [], 0⟩
  | room + 1, e =>
    match e.rxDraw with
    | .timeout => ⟨[], .timeout, e.afterRx, [.rxTimeout], 1000 * tmo⟩
    | .byte b w =>
      if b = 0x0A then ⟨[], .term, e.afterRx, [.rx b], min w (1000 * tmo - 1)⟩
      else
        let r := rawLine tmo room e.afterRx
        ⟨b :: r.bytes, r.ending, r.env, .rx b :: r.events, min w (1000 * tmo - 1) + r.waited⟩

/-- The line: one CR directly before the terminator is stripped (R175, R176). -/
def RawLine.line (r : RawLine) : List Byte :=
  if r.ending = .term ∧ r.bytes.getLast? = some 0x0D then r.bytes.dropLast else r.bytes

/-- Store a byte string in a buffer from index `i`, one byte after the other. -/
def putBytes (m : Memory) (b : Buf) : Nat → List Byte → Memory
  | _, [] => m
  | i, v :: vs => putBytes (m.put (b.addr i) v) b (i + 1) vs

/-- The state after a line read that got `r` (R175). The bytes past the line hold new free values
(R40, R41, I5; log 10). -/
def State.afterLine (s : State) (r : RawLine) : State :=
  { s with
    mem := putBytes s.mem .linebuf 0 r.bytes
    lineLen := wordOfNat r.line.length
    lineEnd := r.ending
    env := r.env
    trace := s.trace ++ r.events
    timeUs := s.timeUs + us r.waited
    heldCount := s.heldCount + 1 }

/-- The line read with LINE_CAP bytes of room from the present draws. -/
def State.nextLine (s : State) (tmo : Nat) : RawLine := rawLine tmo s.params.lineCap s.env

/-- The state after sending a byte string (R170). -/
def State.afterSend (s : State) (bytes : List Byte) : State := bytes.foldl State.uartSend s

/-- One command exchange (R191): the line `text ++ param ++ "\r\n"` is sent and one line is read. -/
def State.exchange (s : State) (text param : List Byte) (tmo : Nat) : State :=
  (s.afterSend (text ++ param ++ [0x0D, 0x0A])).afterLine
    ((s.afterSend (text ++ param ++ [0x0D, 0x0A])).nextLine tmo)

/-- The line an exchange reads. -/
def State.reply (s : State) (text param : List Byte) (tmo : Nat) : List Byte :=
  ((s.afterSend (text ++ param ++ [0x0D, 0x0A])).nextLine tmo).line

/-- Exchanges in order, up to and including the first whose reply is not TOK_OK (R201, R222):
whether all succeeded, and the state after them. -/
def exchangeAll : List (List Byte × List Byte) → State → Bool × State
  | [], s => (true, s)
  | (text, param) :: rest, s =>
    if s.reply text param s.params.tCmdMs = s.params.lits.tokOk then
      exchangeAll rest (s.exchange text param s.params.tCmdMs)
    else (false, s.exchange text param s.params.tCmdMs)

/-- JOIN after the join command's "ok": the accept line with the 30 s timeout (R200, R201): RESULT and
the state at its end. -/
def State.joinAccept (s : State) : Word × State :=
  if (s.nextLine 30000).line = s.params.lits.tokAccepted then
    (1, { s.afterLine (s.nextLine 30000) with joinState := .joined })
  else (0, { s.afterLine (s.nextLine 30000) with joinState := .notJoined })

/-- The join command and its reply, from AwaitingOk (R200, R201). -/
def State.joinReply (s : State) (kw : List Byte) : Word × State :=
  if s.reply s.params.lits.cmdJoin kw s.params.tCmdMs = s.params.lits.tokOk then
    State.joinAccept
      { s.exchange s.params.lits.cmdJoin kw s.params.tCmdMs with joinState := .awaitingAccept }
  else (0, { s.exchange s.params.lits.cmdJoin kw s.params.tCmdMs with joinState := .notJoined })

/-- JOIN from given parameter commands and a mode keyword (R200, R201): RESULT and the state at its
end. -/
def State.joined (s : State) (steps : List (List Byte × List Byte)) (kw : List Byte) : Word × State :=
  match exchangeAll steps { s with joinState := .notJoined } with
  | (true, t) => State.joinReply { t with joinState := .awaitingOk } kw
  | (false, t) => (0, t)

/-! ## Received payloads (R111, R216) -/

/-- `hexval(c)`, the `n`-th free value for a byte that is no hex digit, and the number of the next
free value (R111, I8). -/
def hexNibble (n : Nat) (ch : Byte) : BitVec 4 × Nat :=
  match hexVal? ch with
  | some v => (v, n)
  | none => (Config.freeNibble n, n + 1)

/-- At most `room` bytes from pairs of hex characters; a last character without a partner is dropped
(R216). The second part is the number of the next free value. -/
def hexBytes : Nat → Nat → List Byte → List Byte × Nat
  | room + 1, n, c1 :: c2 :: cs =>
    let hi := hexNibble n c1
    let lo := hexNibble hi.2 c2
    let rest := hexBytes room lo.2 cs
    ((hi.1 ++ lo.1) :: rest.1, rest.2)
  | _, n, _ => ([], n)

/-- The payload text before a terminating zero byte (R216). -/
def payloadText (stored : List Byte) : List Byte := stored.takeWhile (· != 0)

/-! ## What the host sees of a buffer (R40, R41, I5) -/

/-- A byte that was stored as `v`, as a host reads it that no running operation disturbs: `v`, or the
free value held there where the byte is past the current line or payload (log 10). -/
def State.seenByte (s : State) (b : Buf) (i : Nat) (v : Byte) : Byte :=
  if (b = .linebuf ∧ s.lineLen.toNat ≤ i) ∨ (b = .rxpay ∧ s.rxpayLen.toNat ≤ i) then
    Config.heldByte s.heldCount (b.addr i)
  else v

/-! ## Refused requests (R246) -/

/-- The host's request is one of R246's conditions 1 to 7, or the byte asked of the bus is none of R93's
or asked of a busy block (log 4). -/
def State.refuses (s : State) : Input → Prop
  | .quiet | .rst => False
  | .call w =>
    s.seq ≠ .idle ∨ (cmdFields w).wellFormed = false
      ∨ (decodeCmd w = .ok .radioRecv ∧ s.params.outCap < s.arg1.toNat)
  | .busCmd b => s.seq ≠ .idle ∨ busCmdWellFormed b = false
  | .readReg width num => width ≠ 32 ∨ 0x0A < num.toNat
  | .writeReg width num v =>
    s.seq ≠ .idle ∨ width ≠ 32 ∨ 0x0A < num.toNat
      ∨ num = 0x01 ∨ num = 0x04 ∨ num = 0x05 ∨ num = 0x06 ∨ num = 0x07
      ∨ (num = 0x00 ∧ (cmdFields v).wellFormed = false)
      ∨ (num = 0x00 ∧ decodeCmd v = .ok .radioRecv ∧ s.params.outCap < s.arg1.toNat)
      ∨ ((num = 0x08 ∨ num = 0x09) ∧ s.params.opbufCap < v.toNat)
  | .readBuf width space i =>
    width ≠ 8 ∨ space = 0 ∨ 12 < space.toNat
      ∨ ∃ b : Buf, b.id = space.toNat ∧ b.size s.params ≤ i
  | .writeBuf width space i _ =>
    s.seq ≠ .idle ∨ width ≠ 8 ∨ space = 0 ∨ 12 < space.toNat
      ∨ space = 2 ∨ space = 3 ∨ space = 4
      ∨ ∃ b : Buf, b.id = space.toNat ∧ b.size s.params ≤ i

/-! ## Ready to run -/

/-- What an instruction needs of the buffers to run to its end: the bytes it reads have been written
(I4, R264) and lie in their buffers. It is about the state at issue alone. -/
def State.ready (s : State) : Instr → Prop
  | .crcCheck => (s.bytes? .scratch 0 9).isSome
  | .radioCmd => (s.string? .opbufA s.opaLen).isSome
  | .radioCmdText | .radioCmdBin =>
    (s.string? .opbufA s.opaLen).isSome ∧ (s.string? .opbufB s.opbLen).isSome
  | .radioClassify => (s.string? .linebuf s.lineLen).isSome
  | .radioJoin .otaa =>
    (s.key? .keyDeveui).isSome ∧ (s.key? .keyAppeui).isSome ∧ (s.key? .keyAppkey).isSome
  | .radioJoin .abp =>
    (s.key? .keyDevaddr).isSome ∧ (s.key? .keyAppskey).isSome ∧ (s.key? .keyNwkskey).isSome
  | .radioSend _ => (s.string? .opbufB s.opbLen).isSome
  | .radioRecv =>
    s.arg1.toNat ≤ s.params.outCap
      ∧ (s.rxPending = true → (s.string? .rxpay s.rxpayLen).isSome)
  | .busReset | .busWbit | .busRbit | .busWbyte | .busRbyte | .sensorStart | .sensorWait
  | .sensorRead | .lineRead | .radioConsume | .radioReset | .radioSleep | .radioWake | .skipRom
  | .startConversion | .readScratchpad => True

/-! ## What an instruction may change (R84) -/

/-- Where an instruction that went from `s` to `t` may have stored: SCRATCH for a SENSOR_READ,
LINEBUF for a line read, RXPAY up to the new RXPAY_LEN for a SEND that took a downlink, OUTBUF up to
the new RESULT for a RECEIVE. -/
def mayStore (i : Instr) (t : State) (b : Buf) (j : Nat) : Prop :=
  match b with
  | .scratch => i = .sensorRead ∧ t.presence = true ∧ j < 9
  | .linebuf => opReadsLine i = true ∧ j < t.params.lineCap
  | .rxpay => (∃ conf, i = .radioSend conf) ∧ t.rxPending = true ∧ j < t.rxpayLen.toNat
  | .outbuf => i = .radioRecv ∧ j < t.result.toNat
  | .opbufA | .opbufB | .keyDeveui | .keyAppeui | .keyAppkey | .keyDevaddr | .keyAppskey
  | .keyNwkskey => False

/-! ## Good states -/

/-- What is known of the two ports and of the buffers a line or a payload stands in, at a point of an
operation: BUS_DRIVE, the serial output, and how many bytes from index 0 have been written. -/
structure Track where
  drive : Bool
  out : SerialOut
  line : Nat
  pay : Nat

/-- What is known after a line of pseudocode. -/
def Track.after (t : Track) : Act → Track
  | .busDriveLow => { t with drive := true }
  | .busRelease => { t with drive := false }
  | .breakStart _ => { t with out := .space }
  | .breakEnd => { t with out := .mark }
  | .store .linebuf i _ => if i = t.line then { t with line := t.line + 1 } else t
  | .store .rxpay i _ => if i = t.pay then { t with pay := t.pay + 1 } else t
  | _ => t

/-- A line of pseudocode is in order: a store is inside its buffer, a length register is set to a
number of bytes that are there, and the line is driven low from the released state. -/
def Track.allows (c : Config) (t : Track) : Act → Prop
  | .store b i _ => i < b.size c
  | .setLineLen n => n ≤ t.line ∧ n ≤ c.lineCap
  | .setRxpayLen n => n ≤ t.pay ∧ n ≤ c.rxpayCap
  | .busDriveLow => t.drive = false
  | _ => True

/-- Every line of the pseudocode is in order whatever is drawn or read, a sample is taken only while
the line is released (R46), and the end leaves the line released and the serial output idle (R241). -/
def Prog.Safe (c : Config) : Prog → Track → Prop
  | .ret _, t => t.drive = false ∧ t.out = .mark
  | .act a p, t => t.allows c a ∧ p.Safe c (t.after a)
  | .sample k, t => t.drive = false ∧ ∀ l, (k l).Safe c t
  | .recv _ k, t => ∀ r, (k r).Safe c t
  | .nibble k, t => ∀ n, (k n).Safe c t
  | .load _ _ k, t => ∀ v, (k v).Safe c t
  | .reg _ k, t => ∀ w, (k w).Safe c t
  | .refuse _, _ => True

/-- The first `n` bytes of a buffer have been written since reset. -/
def State.written (s : State) (b : Buf) (n : Nat) : Prop := ∀ i, i < n → (s.byte? b i).isSome

/-- What is known is true of a state. -/
structure State.Meets (s : State) (t : Track) : Prop where
  drive : s.busDrive = t.drive
  out : s.serialOut = t.out
  line : s.written .linebuf t.line
  pay : s.written .rxpay t.pay

/-- SEQ and the ports agree: an idle block has released the line and its serial output is idle (R46,
R50), and a running operation stands at a position of its pseudocode from which all is in order. -/
def State.SeqOk (s : State) : Prop :=
  match s.seq with
  | .idle => s.busDrive = false ∧ s.serialOut = .mark
  | .exec i h =>
    i.isOperation = true
      ∧ ∃ p t, (program s.params i).resume h = some p ∧ s.Meets t ∧ p.Safe s.params t

/-- The invariant of the block. -/
structure State.Inv (s : State) : Prop where
  /-- the parameters meet R10's constraints -/
  params : s.params.wf = true
  /-- the buffers' memory is in canonical form -/
  mem : s.mem.wf
  /-- no byte outside a buffer has been written (R61, R62) -/
  inside : ∀ b i, b.size s.params ≤ i → s.byte? b i = none
  /-- 0 ≤ LINE_LEN ≤ LINE_CAP, and the line is there (R36, R40) -/
  lineLen : s.lineLen.toNat ≤ s.params.lineCap
  line : s.written .linebuf s.lineLen.toNat
  /-- 0 ≤ RXPAY_LEN ≤ RXPAY_CAP, and the payload is there (R36, R41) -/
  rxpayLen : s.rxpayLen.toNat ≤ s.params.rxpayCap
  pay : s.written .rxpay s.rxpayLen.toNat
  /-- OPA_LEN and OPB_LEN are at most OPBUF_CAP (R36) -/
  opaLen : s.opaLen.toNat ≤ s.params.opbufCap
  opbLen : s.opbLen.toNat ≤ s.params.opbufCap
  seq : s.SeqOk

/-- `n` steps of the machine. -/
def runSteps (n : Nat) (s : State) : Host.Outcome State Fault Refusal := Sys2Proof.core.run n s

end Sys2Proof.Machine
end

