-- ==== Sys2Proof/Certificates/Slice0/Obligations.lean ====
section
/-! DEFINITION. The statements for the provers. A docstring's rule numbers are those of spec/; "log n"
is notes/assumptions/n.md. A statement about parameters holds for every value that meets the
constraint it names (R11). -/
section
open Sys2Proof Sys2Proof.Machine

/-! ## Encodings (30_encoding.md) -/

/-- One word of each family of the opcode map, written out from R80's bit positions, decodes to its
operation, and one word for each condition of R83 decodes to none (V-ENC of 95_test_vectors.md). -/
def Obligations.WrittenOutWordsDecode : Prop :=
  decodeCmd 0b0000_0000_0000_0000_0000_0000_0000_0001 = .ok .busReset
  ∧ decodeCmd 0b0000_0000_0000_0000_0000_0000_0001_0000 = .ok .crcCheck
  ∧ decodeCmd 0b0000_0000_0000_0000_0000_0000_0010_0010 = .ok .sensorRead
  ∧ decodeCmd 0b0000_0000_0000_0000_0000_0000_0011_0000 = .ok .lineRead
  ∧ decodeCmd 0b0000_0000_0000_0000_0000_1000_0100_0000 = .ok .radioCmdBin
  ∧ decodeCmd 0b0000_0000_0000_0000_0000_0010_0100_0010 = .ok (.radioJoin .abp)
  ∧ decodeCmd 0b0000_0000_0000_0000_0000_0001_0100_0011 = .ok (.radioSend true)
  ∧ decodeBusCmd 0b1100_1100 = .ok .skipRom
  ∧ decodeBusCmd 0b0100_0100 = .ok .startConversion
  ∧ decodeBusCmd 0b1011_1110 = .ok .readScratchpad
  ∧ decodeCmd 0x00000C40 = .error .reservedPkind
  ∧ decodeCmd 0x00000343 = .error .strayMode
  ∧ decodeCmd 0x00000101 = .error .strayConf
  ∧ decodeCmd 0x00000441 = .error .strayPkind
  ∧ decodeCmd 0x00000006 = .error .reservedOp
  ∧ decodeCmd 0x80000048 = .error .reservedBits

/-- A word of either format decodes to an instruction exactly when it is that instruction's encoding:
decoding inverts encoding, and every legal word is some instruction's only word (R80, R82, R93). -/
def Obligations.DecodeExactlyEncode : Prop :=
  ∀ (iw : InstrWord) (i : Instr), decode iw = .ok i ↔ iw = encode i

/-- A CMD word is legal exactly when no condition of R83 holds of it, and an idle block refuses a
write of an illegal one. -/
def Obligations.IllegalWordsAreRefused : Prop :=
  ∀ w : Word,
    let op := w.toNat % 256
    let legal :=
      op ∈ [0x01, 0x02, 0x03, 0x04, 0x05, 0x10, 0x20, 0x21, 0x22, 0x30,
            0x40, 0x41, 0x42, 0x43, 0x44, 0x45, 0x46, 0x47, 0x48]
        ∧ w.toNat / 4096 = 0
        ∧ (w.toNat / 256 % 2 = 1 → op = 0x43)
        ∧ (w.toNat / 512 % 2 = 1 → op = 0x42)
        ∧ (w.toNat / 1024 % 4 ≠ 0 → op = 0x40)
        ∧ w.toNat / 1024 % 4 ≠ 3
    ((∃ i, decodeCmd w = .ok i) ↔ legal)
      ∧ ∀ s : State, s.seq = .idle → ¬ legal →
          serve (.writeReg 32 0x00 w) s = .refused (.reservedEncoding (.cmd w))

/-- R101: a byte string of n bytes is 2n characters, byte 0 first, high nibble first, each nibble
`0x30 + n` or `0x41 + n - 10`; and reading the pairs back gives the byte string (R111). -/
def Obligations.HexTextOfBytes : Prop :=
  (∀ n : BitVec 4, hexChar n =
      if n.toNat ≤ 9 then BitVec.ofNat 8 (0x30 + n.toNat) else BitVec.ofNat 8 (0x41 + n.toNat - 10))
    ∧ ∀ bs : List Byte,
        (hexText bs).length = 2 * bs.length
          ∧ (∀ k v, bs[k]? = some v →
              (hexText bs)[2 * k]? = some (hexChar (v.extractLsb' 4 4))
                ∧ (hexText bs)[2 * k + 1]? = some (hexChar (v.extractLsb' 0 4)))
          ∧ ∀ n, hexBytes bs.length n (hexText bs) = (bs, n)

/-- R102: the decimal text of a number is digits only, its value is the number, it is not empty, and it
begins with '0' only for the number 0, whose text is "0". -/
def Obligations.DecimalTextOfNumber : Prop :=
  ∀ n : Nat,
    (∀ ch ∈ decText n, 0x30 ≤ ch.toNat ∧ ch.toNat ≤ 0x39)
      ∧ (decText n).foldl (fun acc ch => 10 * acc + (ch.toNat - 0x30)) 0 = n
      ∧ ((decText n).head? = some 0x30 ↔ n = 0)
      ∧ (n = 0 → decText n = [0x30])
      ∧ decText n ≠ []

/-! ## A step, issue, end and the sequencer (60_exceptions.md, 10_state.md R48) -/

/-- A step does what the outside does next, or leaves the block to itself; and where an idle block is
asked to run a word that decodes to an instruction, the step is that instruction's meaning. What a
step adds around it: the request is taken from the list (log 1, log 3). That a sensor command byte can be
asked for alone is the model's choice (log 4). -/
def Obligations.StepRunsTheInstruction : Prop :=
  ∀ (s : State) (rest : List Input),
    (∀ x, s.inputs = x :: rest → step s = serve x { s with inputs := rest })
      ∧ (s.inputs = [] → step s = seqStep s)
      ∧ ∀ iw i, s.inputs = requestOf iw :: rest → s.seq = .idle → decode iw = .ok i →
          step s = exec i { s with inputs := rest }

/-- After `withFetchWord` the very next step runs the instruction of that word: its meaning on the
state with the block idle (log 3; for a sensor command byte log 4). -/
def Obligations.FetchedWordRunsNext : Prop :=
  ∀ (s : State) (nbits w : Nat) (i : Instr), decodeTableWord nbits w = some i →
    step (s.withFetchWord nbits w) = exec i { s with seq := .idle }

/-- R24: a write of CMD while idle issues the operation of the word in one step (SEQ, BUSY and DONE as
R240 says, and nothing else), a write while busy is refused, and CMD reads as 0. A write of RECEIVE with
ARG1 > OUT_CAP is no issue: it is the refused request of R246 condition 7. -/
def Obligations.CmdWriteIssues : Prop :=
  ∀ (s : State) (w : Word) (i : Instr), decodeCmd w = .ok i →
    (s.seq = .idle → ¬ (i = .radioRecv ∧ s.params.outCap < s.arg1.toNat) →
      serve (.writeReg 32 0x00 w) s = .next { s with seq := .exec i [], done := false }
        ∧ ({ s with seq := .exec i [], done := false } : State).statusWord.getLsbD 0 = true)
      ∧ (s.seq = .idle → i = .radioRecv → s.params.outCap < s.arg1.toNat →
        serve (.writeReg 32 0x00 w) s = .refused (.countAboveOutCap s.arg1))
      ∧ (s.seq ≠ .idle → serve (.writeReg 32 0x00 w) s = .refused .writeWhileBusy)
      ∧ serve (.readReg 32 0x00) s = .next { s with hostData := 0 }

/-- R241: at `return v` one step sets RESULT, clears BUSY, sets DONE and makes SEQ idle, and nothing
else; and every instruction that starts with the line released and the serial output idle ends so. -/
def Obligations.OperationEnd : Prop :=
  (∀ (s : State) (i : Instr) (h : List Resp) (v : Word),
      s.inputs = [] → s.seq = .exec i h → (program s.params i).resume h = some (.ret v) →
      step s = .next { s with result := v, done := true, seq := .idle }
        ∧ ({ s with result := v, done := true, seq := .idle } : State).statusWord.getLsbD 0 = false)
    ∧ ∀ (i : Instr) (s t : State), exec i s = .next t → s.busDrive = false → s.serialOut = .mark →
        t.busDrive = false ∧ t.serialOut = .mark ∧ (i.isOperation = true → t.done = true)

/-- The sequencer, one primitive a step from the issue, does what the blocking call does: after some
number of steps, during which the block is busy, it has the same outcome (R27, R240 to R242; log 2).
In particular every operation ends after finitely many primitives, for all draws. -/
def Obligations.SequencerDoesWhatTheCallDoes : Prop :=
  ∀ (i : Instr) (s : State), i.isOperation = true →
    ∃ n, runSteps n { s.issue i with inputs := [] } = exec i { s with inputs := [] }
      ∧ ∀ m, m < n → ∃ u, runSteps m { s.issue i with inputs := [] } = .next u ∧ u.busy = true

/-- R48: SEQ leaves Idle only on issue, and returns to Idle only at the operation's end or on block
reset; STATUS.BUSY is SEQ ≠ Idle. -/
def Obligations.SeqLeavesIdleOnlyOnIssue : Prop :=
  (∀ s : State, s.statusWord.getLsbD 0 = true ↔ s.seq ≠ .idle)
    ∧ ∀ s t : State, step s = .next t →
      (s.seq = .idle → t.seq ≠ .idle →
        ∃ w i rest, s.inputs = .writeReg 32 0x00 w :: rest ∧ decodeCmd w = .ok i
          ∧ t = { s with inputs := rest, seq := .exec i [], done := false })
        ∧ (s.seq ≠ .idle → t.seq = .idle →
          (∃ rest, s.inputs = .rst :: rest)
            ∨ ∃ i h v, s.seq = .exec i h ∧ (program s.params i).resume h = some (.ret v)
                ∧ t.result = v ∧ t.done = true)

/-! ## Reset (70_reset_and_hazards.md) -/

/-- R50, R260: RST, at any time, gives every piece of block state its reset value: the registers, the
STATUS word 0x000000C0, the ports, SEQ, TRACE; no buffer byte holds a value; the environment is not
reset. -/
def Obligations.BlockReset : Prop :=
  ∀ s : State, ∃ t, serve .rst s = .next t
    ∧ t.statusWord = 0x000000C0
    ∧ (∀ r, r ≠ .status → t.readReg r = 0)
    ∧ t.busDrive = false ∧ t.serialOut = .mark ∧ t.seq = .idle ∧ t.trace = []
    ∧ (∀ b i, t.byte? b i = none)
    ∧ t.env = s.env

/-- What the machine's reset state holds (R50, R260, R263), and that CLASSIFY right after reset gives
NoResponse (1). The parameters, the draws and the host's
requests of that state are the model's choice (log 1, log 5, log 6) and are not stated. -/
def Obligations.ResetState : Prop :=
  State.reset.statusWord = 0x000000C0
    ∧ (∀ r, r ≠ .status → State.reset.readReg r = 0)
    ∧ State.reset.joinState = .notJoined ∧ State.reset.variant = .unknown
    ∧ State.reset.rxPending = false ∧ State.reset.lineEnd = .noLine
    ∧ State.reset.seq = .idle ∧ State.reset.busDrive = false ∧ State.reset.serialOut = .mark
    ∧ State.reset.trace = []
    ∧ (∀ b i, State.reset.byte? b i = none)
    ∧ ∃ t, exec .radioClassify State.reset = .next t ∧ t.result = 1

/-! ## Registers and buffers as the host sees them (10_state.md, 20_memory.md) -/

/-- R26: the STATUS word, bit by bit. -/
def Obligations.StatusWordLayout : Prop :=
  ∀ s : State,
    s.statusWord.getLsbD 0 = s.busy
      ∧ s.statusWord.getLsbD 1 = s.done
      ∧ s.statusWord.getLsbD 2 = s.presence
      ∧ s.statusWord.getLsbD 3 = s.crcOk
      ∧ s.statusWord.getLsbD 4 = s.timedOut
      ∧ s.statusWord.getLsbD 5 = s.rxPending
      ∧ s.statusWord.toNat / 64 % 4 =
          (match s.lineEnd with | .term => 0 | .full => 1 | .timeout => 2 | .noLine => 3)
      ∧ s.statusWord.toNat / 256 % 8 =
          (match s.joinState with
            | .notJoined => 0 | .awaitingOk => 1 | .awaitingAccept => 2 | .joined => 3)
      ∧ s.statusWord.toNat / 2048 % 4 =
          (match s.variant with | .unknown => 0 | .variantA => 1 | .variantB => 2)
      ∧ s.statusWord.toNat / 8192 = 0

/-- R21, R68: what a host read of each register returns while the block is idle; the read changes
nothing else. -/
def Obligations.RegisterReads : Prop :=
  ∀ s : State, s.seq = .idle →
    let reads := fun (n : Byte) (v : Word) => serve (.readReg 32 n) s = .next { s with hostData := v }
    reads 0x00 0 ∧ reads 0x01 s.statusWord ∧ reads 0x02 s.arg0 ∧ reads 0x03 s.arg1
      ∧ reads 0x04 s.result ∧ reads 0x05 (s.tempRaw.setWidth 32) ∧ reads 0x06 s.lineLen
      ∧ reads 0x07 s.rxpayLen ∧ reads 0x08 s.opaLen ∧ reads 0x09 s.opbLen
      ∧ reads 0x0A (if s.adr then 1 else 0)

/-- R21, R36, R68: what a host write of each writable register stores while the block is idle, and
nothing else: CFG keeps bit 0 only, a length above OPBUF_CAP is refused. -/
def Obligations.RegisterWrites : Prop :=
  ∀ (s : State) (v : Word), s.seq = .idle →
    serve (.writeReg 32 0x02 v) s = .next { s with arg0 := v }
      ∧ serve (.writeReg 32 0x03 v) s = .next { s with arg1 := v }
      ∧ (v.toNat ≤ s.params.opbufCap →
          serve (.writeReg 32 0x08 v) s = .next { s with opaLen := v }
            ∧ serve (.writeReg 32 0x09 v) s = .next { s with opbLen := v })
      ∧ (s.params.opbufCap < v.toNat →
          serve (.writeReg 32 0x08 v) s = .refused (.lengthAboveCapacity v)
            ∧ serve (.writeReg 32 0x09 v) s = .refused (.lengthAboveCapacity v))
      ∧ serve (.writeReg 32 0x0A v) s = .next { s with adr := v.getLsbD 0 }

/-- R62, I4: a byte written in a buffer reads back, every other byte of every buffer is as before, an
operation's read of a byte nothing has written is a fault, and a host access at or above the size is
refused. -/
def Obligations.BufferBytes : Prop :=
  ∀ (s : State) (b : Buf) (i : Nat) (v : Byte),
    (i < b.size s.params → (s.writeByte b i v).readByte b i = .ok v)
      ∧ (∀ b' i', b' ≠ b ∨ i' ≠ i → (s.writeByte b i v).byte? b' i' = s.byte? b' i')
      ∧ (i < b.size s.params → s.byte? b i = none → s.readByte b i = .error (.unwrittenByte b i))
      ∧ (s.seq = .idle → b.size s.params ≤ i →
          serve (.readBuf 8 (BitVec.ofNat 8 b.id) i) s = .refused (.indexOutOfRange b i)
            ∧ serve (.writeBuf 8 (BitVec.ofNat 8 b.id) i v) s = .refused (.indexOutOfRange b i))

/-- R61: a host access of a byte of a buffer while the block is idle. SCRATCH, OPBUF_A, OPBUF_B and
the key store are written; LINEBUF, RXPAY and OUTBUF are not. A read of a byte nothing has written since
reset is a fault (I4). Any other read returns the byte, or, past the current line or payload, the free
value held there (R40, R41, I5; log 10), and changes nothing but what the host has read. -/
def Obligations.HostBufferAccess : Prop :=
  ∀ (s : State) (b : Buf) (i : Nat) (v : Byte), s.seq = .idle → i < b.size s.params →
    serve (.writeBuf 8 (BitVec.ofNat 8 b.id) i v) s =
        (if b = .linebuf ∨ b = .rxpay ∨ b = .outbuf then .refused (.readOnlyBuffer b)
         else .next (s.writeByte b i v))
      ∧ (s.byte? b i = none →
          serve (.readBuf 8 (BitVec.ofNat 8 b.id) i) s = .fault (.unwrittenByte b i))
      ∧ (s.byte? b i = some v →
          serve (.readBuf 8 (BitVec.ofNat 8 b.id) i) s =
            .next { s with hostData := (s.seenByte b i v).setWidth 32 })

/-- R71: while an operation runs, a host read of STATUS or of what the operation may not write (R61,
R84) returns the current value: of a buffer the byte, or the free value held past the current line or
payload (R40, R41, I5), and a byte nothing has written is a fault (I4). A read of what it may write
returns any value, in the model's form: the next free value (log 10), also where nothing has written the
byte yet (log 16); but TEMP_RAW[31:16] read 0, then and at any time (R35). -/
def Obligations.ReadsWhileBusy : Prop :=
  ∀ (s : State) (op : Instr) (h : List Resp), s.seq = .exec op h →
    (∀ r : Reg, serve (.readReg 32 (BitVec.ofNat 8 r.num)) s =
        if opWritesReg op r = true then
          .next { s with
            hostData := if r = .tempRaw then ((Config.freeWord s.freeCount).setWidth 16).setWidth 32
              else Config.freeWord s.freeCount
            freeCount := s.freeCount + 1 }
        else .next { s with hostData := s.readReg r })
      ∧ (∀ t, serve (.readReg 32 0x05) s = .next t → t.hostData.toNat < 65536)
      ∧ opWritesReg op .status = false
      ∧ ∀ (b : Buf) (i : Nat), i < b.size s.params →
          (opWritesBuf op b = true →
            serve (.readBuf 8 (BitVec.ofNat 8 b.id) i) s =
              .next { s with
                hostData := (Config.freeByte s.freeCount).setWidth 32, freeCount := s.freeCount + 1 })
            ∧ (opWritesBuf op b = false → s.byte? b i = none →
              serve (.readBuf 8 (BitVec.ofNat 8 b.id) i) s = .fault (.unwrittenByte b i))
            ∧ ∀ v, opWritesBuf op b = false → s.byte? b i = some v →
              serve (.readBuf 8 (BitVec.ofNat 8 b.id) i) s =
                .next { s with hostData := (s.seenByte b i v).setWidth 32 }

/-- R246: a request is refused exactly when it meets one of the conditions: a reserved CMD word, any
write while busy, a reserved register number or space id, an index at or above the size, a read-only
register or buffer, a wrong width, a length above OPBUF_CAP, a RECEIVE with ARG1 > OUT_CAP, whether by a
write of CMD or by a blocking call. The conditions for the sensor command bytes are the model's choice
(log 4). -/
def Obligations.RefusedExactly : Prop :=
  ∀ (s : State) (x : Input), x ≠ .quiet → ((∃ r, serve x s = .refused r) ↔ s.refuses x)

/-! ## BusLine (40_busline.md) -/

/-- R121: BUS_RESET. -/
def Obligations.BusResetEffect : Prop :=
  decodeCmd 0x00000001 = .ok .busReset
    ∧ ∀ s : State, s.params.timingOk = true →
      exec .busReset s = .next { s with
        presence := !s.env.busLevel
        result := if s.env.busLevel then 0 else 1
        done := true
        seq := .idle
        busDrive := false
        trace := s.trace ++ resetSlotEvents s.params s.timeUs s.env.busLevel
        timeUs := s.timeUs + us s.params.tRstSlot
        env := s.env.afterBus }

/-- R123: BUS_WRITE_BIT, on bit 0 of ARG0 alone. -/
def Obligations.BusWriteBitEffect : Prop :=
  decodeCmd 0x00000002 = .ok .busWbit
    ∧ ∀ s : State, s.params.timingOk = true →
      exec .busWbit s = .next { s with
        result := 0
        done := true
        seq := .idle
        busDrive := false
        trace := s.trace ++ writeSlotEvents s.params s.timeUs (s.arg0.getLsbD 0)
        timeUs := s.timeUs + us s.params.tSlot }

/-- R125, R127: BUS_READ_BIT. -/
def Obligations.BusReadBitEffect : Prop :=
  decodeCmd 0x00000003 = .ok .busRbit
    ∧ ∀ s : State, s.params.timingOk = true →
      exec .busRbit s = .next { s with
        result := if s.env.busLevel then 1 else 0
        done := true
        seq := .idle
        busDrive := false
        trace := s.trace ++ readSlotEvents s.params s.timeUs s.env.busLevel
        timeUs := s.timeUs + us s.params.tSlot
        env := s.env.afterBus }

/-- R128, R129: BUS_WRITE_BYTE sends ARG0[7:0], slot k carrying bit k, in 8·T_SLOT. -/
def Obligations.BusWriteByteEffect : Prop :=
  decodeCmd 0x00000004 = .ok .busWbyte
    ∧ ∀ s : State, s.params.timingOk = true →
      exec .busWbyte s = .next { s with
        result := 0
        done := true
        seq := .idle
        busDrive := false
        trace := s.trace ++ writeByteEvents s.params s.timeUs (s.arg0.setWidth 8)
        timeUs := s.timeUs + us (8 * s.params.tSlot) }

/-- R130, R131: BUS_READ_BYTE reads eight slots, the level of slot k being bit k of RESULT. -/
def Obligations.BusReadByteEffect : Prop :=
  decodeCmd 0x00000005 = .ok .busRbyte
    ∧ ∀ s : State, s.params.timingOk = true →
      exec .busRbyte s = .next { s with
        result := BitVec.ofNat 32 (levelsValue (s.env.levels 8))
        done := true
        seq := .idle
        busDrive := false
        trace := s.trace ++ readSlotsEvents s.params s.timeUs (s.env.levels 8)
        timeUs := s.timeUs + us (8 * s.params.tSlot)
        env := s.env.dropBus 8 }

/-- The three sensor command bytes, each sent alone in eight write slots (R92, R93). That the byte
alone writes no RESULT and no STATUS field is the model's choice (log 4). -/
def Obligations.SensorCommandBytesEffect : Prop :=
  ∀ s : State, s.params.timingOk = true →
    exec .skipRom s =
        .next (s.afterSlots (writeByteEvents s.params s.timeUs 0xCC) (8 * s.params.tSlot))
      ∧ exec .startConversion s =
        .next (s.afterSlots (writeByteEvents s.params s.timeUs 0x44) (8 * s.params.tSlot))
      ∧ exec .readScratchpad s =
        .next (s.afterSlots (writeByteEvents s.params s.timeUs 0xBE) (8 * s.params.tSlot))

/-! ## The CRC-8 validator and the sensor (41_sensor_crc.md) -/

/-- R142: a string followed by its CRC has CRC 0; appending the CRC of eight bytes always validates;
flipping any one bit of the nine makes validation fail; the CRC of zero bytes is 0. -/
def Obligations.CrcProperties : Prop :=
  (∀ d : List Byte, crc8 (d ++ [crc8 d]) = 0)
    ∧ (∀ n : Nat, crc8 (List.replicate n 0) = 0)
    ∧ ∀ (d : List Byte) (j k : Nat), d.length = 8 → j < 9 → k < 8 →
        let m := d ++ [crc8 d]
        let flipped := m.modify j fun b => b ^^^ (1 <<< k)
        some (crc8 (m.take 8)) = m[8]? ∧ some (crc8 (flipped.take 8)) ≠ flipped[8]?

/-- R143: CRC_CHECK on nine bytes that are there. A byte that is not there is a fault (I4). -/
def Obligations.CrcCheckEffect : Prop :=
  decodeCmd 0x00000010 = .ok .crcCheck
    ∧ (∀ (s : State) (d : List Byte) (e : Byte),
        s.bytes? .scratch 0 8 = some d → s.byte? .scratch 8 = some e →
        exec .crcCheck s = .next { s with
          crcOk := decide (crc8 d = e)
          result := (crc8 d).setWidth 32
          done := true
          seq := .idle })
    ∧ ∀ s : State, s.bytes? .scratch 0 9 = none → ∃ j, exec .crcCheck s = .fault (.unwrittenByte .scratch j)

/-- R147: SENSOR_START with a presence pulse (a reset slot, 0xCC, 0x44) and without (the reset slot
alone); RESULT is 0 either way. -/
def Obligations.SensorStartEffect : Prop :=
  decodeCmd 0x00000020 = .ok .sensorStart
    ∧ ∀ s : State, s.params.timingOk = true →
      let reset := resetSlotEvents s.params s.timeUs s.env.busLevel
      let t1 := s.timeUs + us s.params.tRstSlot
      let t2 := t1 + us (8 * s.params.tSlot)
      exec .sensorStart s = .next { s with
        presence := !s.env.busLevel
        result := 0
        done := true
        seq := .idle
        busDrive := false
        trace := s.trace ++
          if s.env.busLevel then reset
          else reset ++ writeByteEvents s.params t1 0xCC ++ writeByteEvents s.params t2 0x44
        timeUs := if s.env.busLevel then t1 else t2 + us (8 * s.params.tSlot)
        env := s.env.afterBus }

/-- R150, R151: SENSOR_WAIT when the first 1 is read by poll k + 1 of at most 100 (k delays of 10 ms),
and when all 100 polls read 0 (100 delays). -/
def Obligations.SensorWaitEffect : Prop :=
  decodeCmd 0x00000021 = .ok .sensorWait
    ∧ (∀ (s : State) (k : Nat), s.params.timingOk = true → k < 100 →
        s.env.levels (k + 1) = List.replicate k false ++ [true] →
        exec .sensorWait s = .next { s with
          timedOut := false
          result := 0
          done := true
          seq := .idle
          busDrive := false
          trace := s.trace ++ pollEvents s.params s.timeUs (s.env.levels (k + 1))
          timeUs := s.timeUs + us (k * (s.params.tSlot + 10000) + s.params.tSlot)
          env := s.env.dropBus (k + 1) })
    ∧ ∀ s : State, s.params.timingOk = true → s.env.levels 100 = List.replicate 100 false →
        exec .sensorWait s = .next { s with
          timedOut := true
          result := 1
          done := true
          seq := .idle
          busDrive := false
          trace := s.trace ++ pollEvents s.params s.timeUs (s.env.levels 100)
          timeUs := s.timeUs + us (100 * (s.params.tSlot + 10000))
          env := s.env.dropBus 100 }

/-- R152: SENSOR_READ without a presence pulse (the reset slot alone, CRC_OK 0, RESULT 0), and with
one (0xCC, 0xBE and nine bytes, all stored in SCRATCH; CRC_OK and RESULT say whether the CRC matched,
and only then TEMP_RAW is written). -/
def Obligations.SensorReadEffect : Prop :=
  decodeCmd 0x00000022 = .ok .sensorRead
    ∧ (∀ s : State, s.params.timingOk = true → s.env.busLevel = true →
        exec .sensorRead s = .next { s with
          presence := false
          crcOk := false
          result := 0
          done := true
          seq := .idle
          busDrive := false
          trace := s.trace ++ resetSlotEvents s.params s.timeUs true
          timeUs := s.timeUs + us s.params.tRstSlot
          env := s.env.afterBus })
    ∧ ∀ (s : State) (d : List Byte) (lo hi e : Byte), s.params.timingOk = true →
        s.env.busLevel = false → s.env.afterBus.busBytes 9 = d ++ [e] →
        d[0]? = some lo → d[1]? = some hi →
        let t1 := s.timeUs + us s.params.tRstSlot
        let t2 := t1 + us (8 * s.params.tSlot)
        let t3 := t2 + us (8 * s.params.tSlot)
        exec .sensorRead s = .next { s with
          presence := true
          crcOk := decide (crc8 d = e)
          tempRaw := if crc8 d = e then hi ++ lo else s.tempRaw
          result := if crc8 d = e then 1 else 0
          done := true
          seq := .idle
          mem := putBytes s.mem .scratch 0 (d ++ [e])
          busDrive := false
          trace := s.trace ++ resetSlotEvents s.params s.timeUs false
            ++ writeByteEvents s.params t1 0xCC ++ writeByteEvents s.params t2 0xBE
            ++ readSlotsEvents s.params t3 (s.env.afterBus.levels 72)
          timeUs := t3 + us (72 * s.params.tSlot)
          env := s.env.afterBus.dropBus 72 }

/-- R154, R155, R156: the raw temperature of bytes lo and hi is their little-endian value as a signed
16-bit number, the host's reading after a valid SENSOR_READ is that number over 16, in [-2048,
2047.9375], and after RESULT = 0 there is none. -/
def Obligations.TemperatureDecode : Prop :=
  (∀ lo hi : Byte, (rawTemperature hi lo).toInt =
      if hi.toNat < 128 then (256 * hi.toNat + lo.toNat : Int)
      else (256 * hi.toNat + lo.toNat : Int) - 65536)
    ∧ ∀ s : State,
        (s.result = 1 → s.hostReading = some ((s.tempRaw.toInt : Rat) / 16)
          ∧ -2048 ≤ (s.tempRaw.toInt : Rat) / 16 ∧ (s.tempRaw.toInt : Rat) / 16 ≤ 2047 + 15 / 16)
        ∧ (s.result = 0 → s.hostReading = none)

/-- R157: a SENSOR_READ that returns 1 or changes TEMP_RAW has stored nine bytes whose CRC matches. -/
def Obligations.TemperatureIsCrcGated : Prop :=
  ∀ s t : State, exec .sensorRead s = .next t → (t.tempRaw ≠ s.tempRaw ∨ t.result = 1) →
    t.crcOk = true
      ∧ ∃ d e, t.bytes? .scratch 0 8 = some d ∧ t.byte? .scratch 8 = some e ∧ crc8 d = e
        ∧ (d[1]?.bind fun hi => d[0]?.map fun lo => hi ++ lo) = some t.tempRaw

/-- R268: on a line that is held low SENSOR_WAIT times out, and SENSOR_READ finds presence, passes the
CRC and gives a valid 0.0 °C. -/
def Obligations.StuckLowBus : Prop :=
  ∀ s : State, s.params.timingOk = true → s.env.bus = [] → s.env.busRest = false →
    (∃ t, exec .sensorWait s = .next t ∧ t.timedOut = true ∧ t.result = 1)
      ∧ ∃ t, exec .sensorRead s = .next t ∧ t.presence = true ∧ t.crcOk = true ∧ t.result = 1
        ∧ t.tempRaw = 0

/-! ## LineTransport (42_line_transport.md) -/

/-- R100, R170: sending a byte string appends one Tx event for each byte, in order, and takes ten bit
times at 57600 baud for each, 3125/18 µs (8N1 is PRESUMED, log 8), of which the whole microseconds
reach TIME_US. -/
def Obligations.SendingTakesCharacterTimes : Prop :=
  ∀ (s : State) (bytes : List Byte),
    (s.afterSend bytes).trace = s.trace ++ bytes.map Event.tx
      ∧ (s.afterSend bytes).timeUs = s.timeUs + us ((s.timeSub.val + 3125 * bytes.length) / 18)
      ∧ (s.afterSend bytes).timeSub.val = (s.timeSub.val + 3125 * bytes.length) % 18

/-- R173, R252: a wait that times out ends when exactly 1000·tmo µs have elapsed on TIME_US modulo 2^64,
and one that ends on a byte ends before that, or at once; each for every 32-bit timeout, also across a
wrap of TIME_US. How long a wait that ends on a byte lasts is the model's reading (log 9). -/
def Obligations.TimeoutBoundary : Prop :=
  (∀ (start : Time) (n : Nat), n < 2 ^ 64 → elapsedUs start (start + us n) = n)
    ∧ ∀ (s : State) (tmo : Nat), tmo < 2 ^ 32 →
      let elapsed := elapsedUs s.timeUs (s.afterRecv tmo).timeUs
      (s.env.rxDraw = .timeout → elapsed = 1000 * tmo)
        ∧ ∀ b w, s.env.rxDraw = .byte b w → elapsed < 1000 * tmo ∨ elapsed = 0

/-- R175, R178: LINE_READ reads one line with the timeout ARG0. How long it waits is the model's reading
(log 9), and `heldCount`, which numbers the free bytes past the line, is the model's own field (log 10). -/
def Obligations.LineReadEffect : Prop :=
  decodeCmd 0x00000030 = .ok .lineRead
    ∧ ∀ s : State,
      let r := rawLine s.arg0.toNat s.params.lineCap s.env
      exec .lineRead s = .next { s with
        mem := putBytes s.mem .linebuf 0 r.bytes
        lineLen := BitVec.ofNat 32 r.line.length
        lineEnd := r.ending
        result := BitVec.ofNat 32 r.line.length
        done := true
        seq := .idle
        env := r.env
        trace := s.trace ++ r.events
        timeUs := s.timeUs + us r.waited
        heldCount := s.heldCount + 1 }

/-- R175, R176: what a line read stores for what is received: a line and CR LF (the CR is stripped), a
line that does not end in CR and LF, LINE_CAP bytes (FULL; the rest stays in the stream), and bytes and
then a timeout. -/
def Obligations.LineReadCases : Prop :=
  ∀ (s : State) (line : List Byte) (draws rest : List RxDraw) (w w' : Nat),
    s.params.lineCap < 2 ^ 32 → 0x0A ∉ line → draws.map RxDraw.byte? = line.map some →
    let gets := fun (ending : LineEnd) => ∃ t, exec .lineRead s = .next t ∧ t.lineEnd = ending
      ∧ t.lineLen.toNat = line.length ∧ t.result = t.lineLen
      ∧ t.string? .linebuf t.lineLen = some line ∧ t.env.rx = rest
    (line.length + 1 < s.params.lineCap →
        s.env.rx = draws ++ .byte 0x0D w :: .byte 0x0A w' :: rest → gets .term)
      ∧ (line.length < s.params.lineCap → line.getLast? ≠ some 0x0D →
        s.env.rx = draws ++ .byte 0x0A w :: rest → gets .term)
      ∧ (line.length = s.params.lineCap → s.env.rx = draws ++ rest → gets .full)
      ∧ (line.length < s.params.lineCap → s.env.rx = draws ++ .timeout :: rest → gets .timeout)

/-! ## RadioDriver (43_radio.md) -/

/-- R191, R195: SEND_COMMAND sends OPBUF_A, the parameter (nothing, OPBUF_B as it is, OPBUF_B in hex)
and CR LF, reads one line with the timeout T_CMD_MS, and succeeds exactly when the line is TOK_OK. The times
are the model's (log 8, log 9). -/
def Obligations.SendCommandEffect : Prop :=
  decodeCmd 0x00000040 = .ok .radioCmd ∧ decodeCmd 0x00000440 = .ok .radioCmdText
    ∧ decodeCmd 0x00000840 = .ok .radioCmdBin
    ∧ ∀ (s : State) (text : List Byte), s.params.capacitiesOk = true →
      s.string? .opbufA s.opaLen = some text →
      let after := fun param => (s.exchange text param s.params.tCmdMs).endOp
        (if s.reply text param s.params.tCmdMs = s.params.lits.tokOk then 1 else 0)
      exec .radioCmd s = .next (after [])
        ∧ ∀ param, s.string? .opbufB s.opbLen = some param →
          exec .radioCmdText s = .next (after param)
            ∧ exec .radioCmdBin s = .next (after (hexText param))

/-- R192, R198: CLASSIFY on the current line changes nothing but RESULT, BUSY and DONE; its RESULT is
the outcome code of R104 that R105's table gives the phrase the line is equal to, and NoResponse (1)
for any other line, the empty one among them. -/
def Obligations.ClassifyEffect : Prop :=
  decodeCmd 0x00000041 = .ok .radioClassify
    ∧ ∀ (s : State) (line : List Byte), s.params.lits.tokensDistinct = true →
      s.params.lits.tokensSingle = true → s.string? .linebuf s.lineLen = some line →
      let table : List (List Byte × Word) :=
        [(s.params.lits.errInvalidParam, 4), (s.params.lits.errNotJoined, 7),
         (s.params.lits.errNoFreeCh, 5), (s.params.lits.errSilent, 9),
         (s.params.lits.errFrameCounter, 6), (s.params.lits.errBusy, 5),
         (s.params.lits.errMacPaused, 4), (s.params.lits.errInvalidDataLen, 3),
         (s.params.lits.errMacErr, 8)]
      (∀ phrase code, (phrase, code) ∈ table → line = phrase →
          exec .radioClassify s = .next { s with result := code, done := true, seq := .idle })
        ∧ ((∀ phrase code, (phrase, code) ∈ table → line ≠ phrase) →
          exec .radioClassify s = .next { s with result := 1, done := true, seq := .idle })

/-- R201, R202, R203: JOIN. OTAA sends device EUI, app EUI and app key, ABP sends device address, app
session key and network session key, each in hex, then the ADR flag, then the join command with the
mode's keyword; the exchanges, JOIN_STATE and RESULT are as `State.joined` writes out from R201. The
times are the model's (log 8, log 9). -/
def Obligations.JoinEffect : Prop :=
  decodeCmd 0x00000042 = .ok (.radioJoin .otaa) ∧ decodeCmd 0x00000242 = .ok (.radioJoin .abp)
    ∧ ∀ (s : State) (k1 k2 k3 : List Byte), s.params.capacitiesOk = true →
      let l := s.params.lits
      let adr := if s.adr then l.txtAdrOn else l.txtAdrOff
      (s.key? .keyDeveui = some k1 → s.key? .keyAppeui = some k2 → s.key? .keyAppkey = some k3 →
          let out := s.joined [(l.cmdSetDeveui, hexText k1), (l.cmdSetAppeui, hexText k2),
            (l.cmdSetAppkey, hexText k3), (l.cmdSetAdr, adr)] l.kwOtaa
          exec (.radioJoin .otaa) s = .next (out.2.endOp out.1))
        ∧ (s.key? .keyDevaddr = some k1 → s.key? .keyAppskey = some k2 →
          s.key? .keyNwkskey = some k3 →
          let out := s.joined [(l.cmdSetDevaddr, hexText k1), (l.cmdSetAppskey, hexText k2),
            (l.cmdSetNwkskey, hexText k3), (l.cmdSetAdr, adr)] l.kwAbp
          exec (.radioJoin .abp) s = .next (out.2.endOp out.1))

/-- R204(4): JOIN_STATE is Joined after every successful JOIN and NotJoined after every failing one. -/
def Obligations.JoinStateTellsTheResult : Prop :=
  ∀ (mode : JoinMode) (s t : State), exec (.radioJoin mode) s = .next t →
    (t.result = 1 ∧ t.joinState = .joined) ∨ (t.result = 0 ∧ t.joinState = .notJoined)

/-- R208, R209, R210, R213: SEND. It clears RX_PENDING, sends the transmit command with the port in
decimal and the payload in hex, and: a reply that is not TOK_OK is classified at once; then the line of
the receive window is empty (Timedout, 2), TOK_TX_OK (NoError, 0), a line with a space (its text after
the second space goes to RXPAY, at most RXPAY_CAP characters; NoError), or classified. The times are the
model's (log 8, log 9), and so is `heldCount`, which numbers the free bytes past the payload (log 10). -/
def Obligations.SendEffect : Prop :=
  decodeCmd 0x00000043 = .ok (.radioSend false) ∧ decodeCmd 0x00000143 = .ok (.radioSend true)
    ∧ ∀ (s : State) (conf : Bool) (payload : List Byte), s.params.capacitiesOk = true →
      s.string? .opbufB s.opbLen = some payload →
      let l := s.params.lits
      let text := (if conf then l.cmdTxCnf else l.cmdTxUncnf) ++ decText (s.arg0.toNat % 256) ++ [0x20]
      let s0 : State := { s with rxPending := false }
      let s1 := s0.exchange text (hexText payload) s.params.tCmdMs
      let r := s0.reply text (hexText payload) s.params.tCmdMs
      let s2 := s1.afterLine (s1.nextLine s.params.tRxwinMs)
      let line := (s1.nextLine s.params.tRxwinMs).line
      (r ≠ l.tokOk → exec (.radioSend conf) s = .next (s1.endOp (classifyLine l r).code))
        ∧ (r = l.tokOk →
          (line = [] → exec (.radioSend conf) s = .next (s2.endOp 2))
            ∧ (line ≠ [] → line = l.tokTxOk → exec (.radioSend conf) s = .next (s2.endOp 0))
            ∧ (line ≠ l.tokTxOk → ∀ (w1 w2 : List Byte), 0x20 ∉ w1 → 0x20 ∉ w2 →
                (line = w1 ++ 0x20 :: w2 → exec (.radioSend conf) s =
                  .next (State.endOp { s2 with
                    rxpayLen := 0, rxPending := true, heldCount := s2.heldCount + 1 } 0))
                ∧ ∀ data, line = w1 ++ 0x20 :: w2 ++ 0x20 :: data → exec (.radioSend conf) s =
                  .next (State.endOp { s2 with
                    mem := putBytes s2.mem .rxpay 0 (data.take s.params.rxpayCap)
                    rxpayLen := BitVec.ofNat 32 (min data.length s.params.rxpayCap)
                    rxPending := true
                    heldCount := s2.heldCount + 1 } 0))
            ∧ (line ≠ [] → line ≠ l.tokTxOk → 0x20 ∉ line →
              exec (.radioSend conf) s = .next (s2.endOp (classifyLine l line).code)))

/-- R216: RECEIVE is refused above OUT_CAP; returns 0 and writes nothing without a pending payload;
else decodes pairs of hex characters of the payload, up to a zero byte, from character 2·offset, at most
`count` of them, into OUTBUF. The free values stand for bytes that are no hex digit (I8; log 11). -/
def Obligations.ReceiveEffect : Prop :=
  decodeCmd 0x00000044 = .ok .radioRecv
    ∧ ∀ s : State,
      (s.params.outCap < s.arg1.toNat → exec .radioRecv s = .refused (.countAboveOutCap s.arg1))
        ∧ (s.arg1.toNat ≤ s.params.outCap → s.rxPending = false →
          exec .radioRecv s = .next { s with result := 0, done := true, seq := .idle })
        ∧ ∀ stored, s.arg1.toNat ≤ s.params.outCap → s.rxPending = true →
          s.string? .rxpay s.rxpayLen = some stored →
          let d := hexBytes s.arg1.toNat s.freeCount ((payloadText stored).drop (2 * s.arg0.toNat))
          exec .radioRecv s = .next { s with
            mem := putBytes s.mem .outbuf 0 d.1
            freeCount := d.2
            result := BitVec.ofNat 32 d.1.length
            done := true
            seq := .idle }

/-- R217(2): RECEIVE's result is min(count, floor(max(0, L - 2·offset) / 2)) with L the length of the
payload before a zero byte. -/
def Obligations.ReceiveCount : Prop :=
  ∀ (s : State) (stored : List Byte), s.arg1.toNat ≤ s.params.outCap → s.rxPending = true →
    s.string? .rxpay s.rxpayLen = some stored →
    ∃ t, exec .radioRecv s = .next t
      ∧ t.result.toNat = min s.arg1.toNat (((payloadText stored).length - 2 * s.arg0.toNat) / 2)

/-- R219: RX_CONSUME clears RX_PENDING and leaves RXPAY and RXPAY_LEN, and after it RECEIVE with a
legal count returns 0. -/
def Obligations.ConsumeEffect : Prop :=
  decodeCmd 0x00000045 = .ok .radioConsume
    ∧ ∀ s : State, ∃ t, exec .radioConsume s = .next t
      ∧ t = { s with rxPending := false, result := 0, done := true, seq := .idle }
      ∧ (s.arg1.toNat ≤ s.params.outCap → ∃ u, exec .radioRecv t = .next u ∧ u.result = 0)

/-- R222, R224: RESET_DEVICE sends the reset command, reads the identity line and takes VariantA if it
contains ID_SUBSTR_A, else VariantB if it contains ID_SUBSTR_B, else fails with VARIANT Unknown; a known
variant's configuration list is sent in order up to the first failure, which leaves VARIANT. The times
are the model's (log 8, log 9). -/
def Obligations.ResetDeviceEffect : Prop :=
  decodeCmd 0x00000046 = .ok .radioReset
    ∧ ∀ s : State, s.params.capacitiesOk = true →
      let l := s.params.lits
      let s1 := s.exchange l.cmdSysReset [] s.params.tResetMs
      let line := s.reply l.cmdSysReset [] s.params.tResetMs
      let configured := fun (v : Variant) (cfg : List (List Byte × List Byte)) =>
        let out := exchangeAll cfg { s1 with variant := v }
        out.2.endOp (if out.1 then 1 else 0)
      (l.idSubstrA <:+: line →
          exec .radioReset s = .next (configured .variantA s.params.configA))
        ∧ (¬ l.idSubstrA <:+: line → l.idSubstrB <:+: line →
          exec .radioReset s = .next (configured .variantB s.params.configB))
        ∧ (¬ l.idSubstrA <:+: line → ¬ l.idSubstrB <:+: line →
          exec .radioReset s = .next (State.endOp { s1 with variant := .unknown } 0))

/-- R227: SLEEP sends its duration in decimal exactly when it is above SLEEP_MIN_MS, and reads no
response. A character's time is the model's (log 8). -/
def Obligations.SleepEffect : Prop :=
  decodeCmd 0x00000047 = .ok .radioSleep
    ∧ ∀ s : State,
      (s.arg0.toNat ≤ s.params.sleepMinMs →
          exec .radioSleep s = .next { s with result := 0, done := true, seq := .idle })
        ∧ (s.params.sleepMinMs < s.arg0.toNat →
          exec .radioSleep s = .next
            ((s.afterSend (s.params.lits.cmdSleep ++ decText s.arg0.toNat ++ [0x0D, 0x0A])).endOp 1))

/-- R229: WAKE sends a break of T_BREAK_US and then the byte SYNC_BYTE. A character's time is the
model's (log 8). -/
def Obligations.WakeEffect : Prop :=
  decodeCmd 0x00000048 = .ok .radioWake
    ∧ ∀ s : State, exec .radioWake s = .next
      (State.endOp (State.afterSend { s with
        serialOut := .mark
        trace := s.trace ++ [.txBreak s.params.tBreakUs]
        timeUs := s.timeUs + us s.params.tBreakUs } [s.params.syncByte]) 0)

/-! ## The whole machine -/

/-- R84: the frame of every instruction. When it gives a next state, every register and STATUS field
but those of its row (and RESULT, BUSY and DONE of an operation), every byte of memory outside what its
row stores, the parameters, the host's requests and what the host has read are as before; and no
instruction writes an operand register or an operand buffer (R22, R43). What is held past the current
line and payload is as before but for an instruction that reads a line (log 10). R84 has no row for the
three sensor command bytes: that each leaves RESULT, every STATUS field (BUSY and DONE among them) and
SEQ as before is the model's choice (log 4). -/
def Obligations.InstructionFrame : Prop :=
  ∀ (i : Instr) (s t : State), exec i s = .next t →
    (∀ r, r ≠ .status → opWritesReg i r = false → t.readReg r = s.readReg r)
      ∧ (opWritesField i .presence = false → t.presence = s.presence)
      ∧ (opWritesField i .crcOk = false → t.crcOk = s.crcOk)
      ∧ (opWritesField i .timedOut = false → t.timedOut = s.timedOut)
      ∧ (opWritesField i .rxPending = false → t.rxPending = s.rxPending)
      ∧ (opWritesField i .lineEnd = false → t.lineEnd = s.lineEnd)
      ∧ (opWritesField i .joinState = false → t.joinState = s.joinState)
      ∧ (opWritesField i .variant = false → t.variant = s.variant)
      ∧ (i.isOperation = false → t.done = s.done ∧ t.seq = s.seq)
      ∧ (∀ b j, ¬ mayStore i t b j → t.byte? b j = s.byte? b j)
      ∧ t.arg0 = s.arg0 ∧ t.arg1 = s.arg1 ∧ t.opaLen = s.opaLen ∧ t.opbLen = s.opbLen
      ∧ t.adr = s.adr ∧ t.params = s.params ∧ t.inputs = s.inputs ∧ t.hostData = s.hostData
      ∧ (opReadsLine i = false → t.heldCount = s.heldCount)

/-- R84: an instruction uses at most one of the two interfaces: one that draws from the bus leaves the
serial draws, the serial time and the serial events alone, and the other way round. -/
def Obligations.OneInterfaceEach : Prop :=
  ∀ (i : Instr) (s t : State), exec i s = .next t →
    ∃ ev, t.trace = s.trace ++ ev
      ∧ ((∀ e ∈ ev, (∃ u, e = .busLow u ∨ e = .busRel u) ∨ ∃ u l, e = .busSmp u l)
            ∧ t.env.rx = s.env.rx ∧ t.env.rxRest = s.env.rxRest ∧ t.timeSub = s.timeSub
          ∨ (∀ e ∈ ev, (∃ b, e = .tx b ∨ e = .rx b) ∨ e = .rxTimeout ∨ ∃ n, e = .txBreak n)
            ∧ t.env.bus = s.env.bus ∧ t.env.busRest = s.env.busRest ∧ t.busDrive = s.busDrive)

/-- Every instruction completes: with parameters that meet R10's constraints and the bytes it reads
written (I4, R264), and for RECEIVE a legal count, its meaning answers a next state, whatever is drawn
(R132, R158, R232, R242). That a sensor command byte runs alone is the model's choice (log 4). -/
def Obligations.EveryInstructionCompletes : Prop :=
  ∀ (i : Instr) (s : State), s.params.wf = true → s.ready i → ∃ t, exec i s = .next t

/-- R45: TRACE is append-only: a step other than block reset keeps what is there. -/
def Obligations.TraceIsAppendOnly : Prop :=
  ∀ s t : State, step s = .next t → (∀ rest, s.inputs ≠ .rst :: rest) → s.trace <+: t.trace

/-- R33, R34, R35: only JOIN and block reset write JOIN_STATE, only RESET_DEVICE and block reset write
VARIANT, and only SENSOR_READ and block reset write TEMP_RAW: a step that changes one of them is a step
of a running such operation, or a blocking call of it. -/
def Obligations.WhoWritesTheStatusMachines : Prop :=
  ∀ s t : State, step s = .next t → (∀ rest, s.inputs ≠ .rst :: rest) →
    let runs := fun op : Instr => (∃ h, s.seq = .exec op h)
      ∨ ∃ w rest, s.inputs = .call w :: rest ∧ decodeCmd w = .ok op
    (t.joinState ≠ s.joinState → ∃ mode, runs (.radioJoin mode))
      ∧ (t.variant ≠ s.variant → runs .radioReset)
      ∧ (t.tempRaw ≠ s.tempRaw → runs .sensorRead)

/-- The invariant holds of the reset state. -/
def Obligations.ResetMeetsTheInvariant : Prop := State.reset.Inv

/-- Every step keeps the invariant: legal parameters, the memory's canonical form, no byte outside a
buffer, LINE_LEN and RXPAY_LEN within their capacities and counting bytes that are there (R36, R40,
R41), OPA_LEN and OPB_LEN at most OPBUF_CAP, and an idle block's line released and serial output idle
(R46, R50, R241). -/
def Obligations.StepKeepsTheInvariant : Prop :=
  ∀ s t : State, s.Inv → step s = .next t → t.Inv

/-- R46: the block samples the line only while it has released it, and the sample is the level the
responder leaves; and while BUS_DRIVE is 1 the level of the line is 0. -/
def Obligations.SamplesAreTakenReleased : Prop :=
  (∀ s : State, s.busDrive = true → s.busLevel = false)
    ∧ ∀ (s t : State) (time : Time) (level : Bool), s.Inv → s.inputs = [] → step s = .next t →
        t.trace = s.trace ++ [.busSmp time level] →
        s.busDrive = false ∧ level = s.env.busLevel ∧ time = s.timeUs

/-- R68: a host read of an idle block has no side effect (only what the host has read changes) and is
idempotent: the same read again answers the same and leaves the same state, also for a byte past the
current line or payload, which holds any value (I5; log 10). -/
def Obligations.IdleReadsAreIdempotent : Prop :=
  ∀ (s t : State) (x : Input), s.seq = .idle →
    ((∃ width num, x = .readReg width num) ∨ ∃ width space i, x = .readBuf width space i) →
    serve x s = .next t → t = { s with hostData := t.hostData } ∧ serve x t = .next t

/-- R44: TIME_US of an idle block that nothing is asked of: a step lets one microsecond pass, TIME_US
increments by one modulo 2^64, and nothing else changes. That a step is a microsecond is the model's
choice (log 24). -/
def Obligations.IdleTimePasses : Prop :=
  ∀ s : State, s.seq = .idle →
    (s.inputs = [] → step s = .next { s with timeUs := s.timeUs + 1 })
      ∧ ∀ rest, s.inputs = .quiet :: rest →
          step s = .next { s with inputs := rest, timeUs := s.timeUs + 1 }

end
end

