-- ==== Sys2Proof/Laws/State.lean ====
section
/-! SUPPORT. One lemma per field and per update, true by rfl, for the updates of the claims' terms; the
updates of Machine/Ops.lean have theirs from `@[simps]` where they are defined, so that a field of an
updated state is simplified and no proof unfolds a record update. Then what each line of pseudocode
leaves alone. -/
namespace Sys2Proof.Machine

section Issue
variable (s : State) (i : Instr)

@[simp] theorem State.issue_busy : (s.issue i).busy = true := rfl
@[simp] theorem State.endOp_busy (v : Word) : (s.endOp v).busy = false := rfl
@[simp] theorem State.busy_idle (h : s.seq = .idle) : s.busy = false := by simp [State.busy, h]

theorem State.busy_eq_false : s.busy = false ↔ s.seq = .idle := by
  unfold State.busy; split <;> simp_all

end Issue

section AfterSlots
variable (s : State) (ev : List Event) (n : Nat)

@[simp] theorem State.afterSlots_params : (s.afterSlots ev n).params = s.params := rfl
@[simp] theorem State.afterSlots_mem : (s.afterSlots ev n).mem = s.mem := rfl
@[simp] theorem State.afterSlots_env : (s.afterSlots ev n).env = s.env := rfl
@[simp] theorem State.afterSlots_timeUs : (s.afterSlots ev n).timeUs = s.timeUs + us n := rfl
@[simp] theorem State.afterSlots_trace : (s.afterSlots ev n).trace = s.trace ++ ev := rfl
@[simp] theorem State.afterSlots_busDrive : (s.afterSlots ev n).busDrive = false := rfl
@[simp] theorem State.afterSlots_arg0 : (s.afterSlots ev n).arg0 = s.arg0 := rfl

end AfterSlots

section AfterLine
variable (s : State) (r : RawLine)

@[simp] theorem State.afterLine_params : (s.afterLine r).params = s.params := rfl
@[simp] theorem State.afterLine_env : (s.afterLine r).env = r.env := rfl
@[simp] theorem State.afterLine_lineEnd : (s.afterLine r).lineEnd = r.ending := rfl
@[simp] theorem State.afterLine_lineLen :
    (s.afterLine r).lineLen = wordOfNat r.line.length := rfl
@[simp] theorem State.afterLine_mem :
    (s.afterLine r).mem = putBytes s.mem .linebuf 0 r.bytes := rfl
@[simp] theorem State.afterLine_heldCount : (s.afterLine r).heldCount = s.heldCount + 1 := rfl
@[simp] theorem State.afterLine_arg0 : (s.afterLine r).arg0 = s.arg0 := rfl

end AfterLine

end Sys2Proof.Machine
end

