-- ==== Sys2Proof/Laws/Memory.lean ====
section
/-! SUPPORT. The laws of the buffers' memory: a read after a write, the canonical form, and the keys. -/
namespace Sys2Proof.Machine

theorem Memory.get_put_same (m : Memory) (a : Nat) (v : Byte) : (m.put a v).get a = some v := by
  induction m with
  | nil => simp [Memory.put, Memory.get]
  | cons p m ih =>
    obtain ⟨k, w⟩ := p
    unfold Memory.put
    split
    · simp [Memory.get]
    · split
      · simp [Memory.get]
      · simp [Memory.get, *]

theorem Memory.get_put_other (m : Memory) (a b : Nat) (v : Byte) (h : b ≠ a) :
    (m.put a v).get b = m.get b := by
  induction m with
  | nil => simp [Memory.put, Memory.get, h.symm]
  | cons p m ih =>
    obtain ⟨k, w⟩ := p
    unfold Memory.put
    split
    · simp [Memory.get, h.symm]
    · split
      · next hk => subst hk; simp [Memory.get, h.symm]
      · simp only [Memory.get, ih]

/-- Every key of `m.put a v` is `a` or a key of `m`. -/
theorem Memory.mem_put {m : Memory} {a : Nat} {v : Byte} {p : Host.Cell} (h : p ∈ m.put a v) :
    p = (a, v) ∨ p ∈ m := by
  induction m with
  | nil => simpa [Memory.put] using h
  | cons q m ih =>
    obtain ⟨k, w⟩ := q
    unfold Memory.put at h
    split at h
    · simpa using h
    · split at h
      · simp only [List.mem_cons] at h ⊢; tauto
      · simp only [List.mem_cons] at h ⊢
        rcases h with h | h
        · tauto
        · rcases ih h with h | h <;> tauto

theorem Memory.put_wf {m : Memory} (h : m.wf) (a : Nat) (v : Byte) : (m.put a v).wf := by
  induction m with
  | nil => simp [Memory.put, Memory.wf]
  | cons p m ih =>
    obtain ⟨k, w⟩ := p
    have hk := List.pairwise_cons.mp h
    unfold Memory.put
    split
    · next hlt =>
      refine List.pairwise_cons.mpr ⟨fun q hq => ?_, h⟩
      rcases List.mem_cons.mp hq with rfl | hq
      · exact hlt
      · exact Nat.lt_trans hlt (hk.1 q hq)
    · split
      · next _ he => subst he; exact List.pairwise_cons.mpr ⟨fun q hq => hk.1 q hq, hk.2⟩
      · next hnl hne =>
        refine List.pairwise_cons.mpr ⟨fun q hq => ?_, ih hk.2⟩
        rcases Memory.mem_put hq with rfl | hq
        · simp only; omega
        · exact hk.1 q hq

/-- No two bytes share a key (log 13). -/
theorem Buf.addr_inj {b b' : Buf} {i i' : Nat} : b.addr i = b'.addr i' ↔ b = b' ∧ i = i' := by
  constructor
  · intro h
    have hb : b = b' := by
      cases b <;> cases b' <;> simp only [Buf.addr, Buf.id] at h <;> first | rfl | omega
    subst hb
    exact ⟨rfl, by simp only [Buf.addr] at h; omega⟩
  · rintro ⟨rfl, rfl⟩; rfl

@[simp] theorem State.byte?_writeByte_same (s : State) (b : Buf) (i : Nat) (v : Byte) :
    (s.writeByte b i v).byte? b i = some v := Memory.get_put_same _ _ _

theorem State.byte?_writeByte_other (s : State) {b b' : Buf} {i i' : Nat} (v : Byte)
    (h : b' ≠ b ∨ i' ≠ i) : (s.writeByte b i v).byte? b' i' = s.byte? b' i' := by
  refine Memory.get_put_other _ _ _ _ fun he => ?_
  obtain ⟨rfl, rfl⟩ := Buf.addr_inj.mp he
  simp at h

/-- Bytes stored by `putBytes` read back, and every other byte is as before. -/
theorem get_putBytes (m : Memory) (b : Buf) (i : Nat) (vs : List Byte) (b' : Buf) (j : Nat) :
    (putBytes m b i vs).get (b'.addr j) =
      if b' = b ∧ i ≤ j ∧ j < i + vs.length then vs[j - i]? else m.get (b'.addr j) := by
  induction vs generalizing m i with
  | nil =>
    rw [if_neg (by simp only [List.length_nil]; omega)]; rfl
  | cons v vs ih =>
    rw [putBytes, ih]
    by_cases hb : b' = b
    · subst hb
      by_cases h1 : i + 1 ≤ j ∧ j < i + 1 + vs.length
      · rw [if_pos ⟨rfl, h1⟩, if_pos ⟨rfl, by omega, by simp; omega⟩]
        obtain ⟨k, rfl⟩ : ∃ k, j = i + 1 + k := ⟨j - (i + 1), by omega⟩
        rw [show i + 1 + k - (i + 1) = k by omega, show i + 1 + k - i = k + 1 by omega]
        simp
      · rw [if_neg (by tauto)]
        by_cases hj : j = i
        · subst hj
          rw [if_pos ⟨rfl, by omega, by simp⟩]
          simp [Memory.get_put_same]
        · rw [if_neg (by simp; omega)]
          exact Memory.get_put_other _ _ _ _ fun he => hj (Buf.addr_inj.mp he).2
    · rw [if_neg (by tauto), if_neg (by tauto)]
      exact Memory.get_put_other _ _ _ _ fun he => hb (Buf.addr_inj.mp he).1

theorem putBytes_wf {m : Memory} (h : m.wf) (b : Buf) (i : Nat) (vs : List Byte) :
    (putBytes m b i vs).wf := by
  induction vs generalizing m i with
  | nil => exact h
  | cons v vs ih => exact ih (Memory.put_wf h _ _) _

/-- A string depends on the buffers' memory alone. -/
theorem State.bytes?_congr {s t : State} (h : t.mem = s.mem) (b : Buf) (i n : Nat) :
    t.bytes? b i n = s.bytes? b i n := by
  induction n generalizing i with
  | zero => rfl
  | succ n ih => simp [State.bytes?, State.byte?, h, ih]

theorem State.string?_congr {s t : State} (h : t.mem = s.mem) (hp : t.params = s.params) (b : Buf)
    (len : Word) : t.string? b len = s.string? b len := by
  simp [State.string?, hp, State.bytes?_congr h]

theorem State.key?_congr {s t : State} (h : t.mem = s.mem) (hp : t.params = s.params) (b : Buf) :
    t.key? b = s.key? b := by
  simp [State.key?, hp, State.bytes?_congr h]

/-- The bytes of a string, one by one. -/
theorem State.bytes?_eq_some {s : State} {b : Buf} {i n : Nat} {vs : List Byte} :
    s.bytes? b i n = some vs ↔
      vs.length = n ∧ ∀ k (h : k < vs.length), s.byte? b (i + k) = some vs[k] := by
  induction n generalizing i vs with
  | zero =>
    simp only [State.bytes?, Option.some.injEq]
    exact ⟨fun h => by subst h; simp, fun h => (List.length_eq_zero_iff.mp h.1).symm⟩
  | succ n ih =>
    constructor
    · intro h
      simp only [State.bytes?] at h
      split at h
      · next v ws hv hws =>
        cases h
        obtain ⟨hl, hk⟩ := ih.mp hws
        refine ⟨by simp [hl], fun k h => ?_⟩
        cases k with
        | zero => simpa using hv
        | succ k => simpa [Nat.add_assoc, Nat.add_comm 1 k] using hk k (by simpa using h)
      · simp at h
    · rintro ⟨hl, hk⟩
      cases vs with
      | nil => simp at hl
      | cons v ws =>
        have h0 := hk 0 (by simp)
        have hw : s.bytes? b (i + 1) n = some ws := ih.mpr ⟨by simpa using hl, fun k h => by
          have := hk (k + 1) (by simpa using h)
          simpa [Nat.add_assoc, Nat.add_comm 1 k] using this⟩
        simp only [Nat.add_zero, List.getElem_cons_zero] at h0
        simp [State.bytes?, h0, hw]

/-- All bytes are there exactly when the string is. -/
theorem State.bytes?_isSome {s : State} {b : Buf} {i n : Nat} :
    (s.bytes? b i n).isSome ↔ ∀ k, k < n → (s.byte? b (i + k)).isSome := by
  induction n generalizing i with
  | zero => simp [State.bytes?]
  | succ n ih =>
    constructor
    · intro h k hk
      obtain ⟨vs, hvs⟩ := Option.isSome_iff_exists.mp h
      obtain ⟨hl, hb⟩ := State.bytes?_eq_some.mp hvs
      rw [hb k (by omega)]; rfl
    · intro h
      obtain ⟨v, hv⟩ := Option.isSome_iff_exists.mp (h 0 (by omega))
      obtain ⟨ws, hws⟩ := Option.isSome_iff_exists.mp (ih (i := i + 1) |>.mpr fun k hk => by
        have := h (k + 1) (by omega)
        simpa [Nat.add_assoc, Nat.add_comm 1 k] using this)
      simp only [Nat.add_zero] at hv
      simp [State.bytes?, hv, hws]

end Sys2Proof.Machine
end

