-- ==== Sys2Proof/Laws/Sequencer.lean ====
section
/-! SUPPORT. One lemma for each primitive and each shared piece of pseudocode: what running it does. A
proof about an operation cites these and unfolds none of them. -/
namespace Sys2Proof.Machine

/-! ## Primitives -/

section Primitives
variable (s : State)

@[simp] theorem Prog.run_ret (v : Word) : (Prog.ret v).run s = .next (v, s) := rfl
@[simp] theorem Prog.run_act (a : Act) (p : Prog) : (Prog.act a p).run s = p.run (a.apply s) := rfl
@[simp] theorem Prog.run_sample (k : Bool → Prog) :
    (Prog.sample k).run s = (k s.busLevel).run s.afterSample := rfl
@[simp] theorem Prog.run_recv (tmo : Nat) (k : Option Byte → Prog) :
    (Prog.recv tmo k).run s = (k s.env.rxDraw.byte?).run (s.afterRecv tmo) := rfl
@[simp] theorem Prog.run_nibble (k : BitVec 4 → Prog) :
    (Prog.nibble k).run s = (k (Config.freeNibble s.freeCount)).run s.useFree := rfl
@[simp] theorem Prog.run_reg (r : Reg) (k : Word → Prog) :
    (Prog.reg r k).run s = (k (s.readReg r)).run s := rfl
@[simp] theorem Prog.run_refuse (r : Refusal) : (Prog.refuse r).run s = .refused r := rfl

/-- A read of a byte that is there. -/
theorem Prog.run_load {s : State} {b : Buf} {i : Nat} {v : Byte} (k : Byte → Prog)
    (hi : i < b.size s.params) (hv : s.byte? b i = some v) :
    (Prog.load b i k).run s = (k v).run s := by
  simp [Prog.run, State.readByte, Nat.not_le.mpr hi, hv]

end Primitives

@[simp] theorem readReg_arg0 (s : State) : s.readReg .arg0 = s.arg0 := rfl
@[simp] theorem readReg_arg1 (s : State) : s.readReg .arg1 = s.arg1 := rfl
@[simp] theorem readReg_lineLen (s : State) : s.readReg .lineLen = s.lineLen := rfl
@[simp] theorem readReg_rxpayLen (s : State) : s.readReg .rxpayLen = s.rxpayLen := rfl
@[simp] theorem readReg_opaLen (s : State) : s.readReg .opaLen = s.opaLen := rfl
@[simp] theorem readReg_opbLen (s : State) : s.readReg .opbLen = s.opbLen := rfl
@[simp] theorem readReg_status (s : State) : s.readReg .status = s.statusWord := rfl
@[simp] theorem readReg_cfg (s : State) : s.readReg .cfg = wordOfBool s.adr := rfl

theorem wordOfBool_eq (b : Bool) : wordOfBool b = if b then 1 else 0 := by cases b <;> rfl

@[simp] theorem cfgAdr_wordOfBool (b : Bool) : cfgAdr (wordOfBool b) = b := by cases b <;> rfl

/-- STATUS bit 5 is RX_PENDING (R26). -/
@[simp] theorem statusRxPending_statusWord (s : State) :
    statusRxPending s.statusWord = s.rxPending := by
  unfold statusRxPending State.statusWord
  cases s.rxPending <;> simp only [BitVec.getLsbD_append] <;> rfl

theorem wordOfNat_toNat {n : Nat} (h : n < 4294967296) : (wordOfNat n).toNat = n := by
  simp [wordOfNat, Nat.mod_eq_of_lt h]

/-! ## Byte strings -/

/-- Reading a byte string that is there. -/
theorem run_loadBytes {s : State} {b : Buf} {i n : Nat} {vs : List Byte} (k : List Byte → Prog)
    (hs : i + n ≤ b.size s.params) (h : s.bytes? b i n = some vs) :
    (loadBytes b i n k).run s = (k vs).run s := by
  induction n generalizing i vs k with
  | zero => simp [State.bytes?] at h; subst h; rfl
  | succ n ih =>
    simp only [State.bytes?] at h
    split at h
    · next v ws hv hws =>
      cases h
      rw [loadBytes, Prog.run_load _ (by omega) hv]
      exact ih _ (by omega) hws
    · simp at h

theorem State.string?_eq_some {s : State} {b : Buf} {len : Word} {vs : List Byte} :
    s.string? b len = some vs ↔ len.toNat ≤ b.size s.params ∧ s.bytes? b 0 len.toNat = some vs := by
  unfold State.string?; split <;> simp_all

/-- Reading a byte-string operand or the current line. -/
theorem run_loadOperand {s : State} {b : Buf} {r : Reg} {vs : List Byte} (k : List Byte → Prog)
    (h : s.string? b (s.readReg r) = some vs) : (loadOperand b r k).run s = (k vs).run s := by
  obtain ⟨hs, hb⟩ := State.string?_eq_some.mp h
  rw [loadOperand, Prog.run_reg]
  exact run_loadBytes k (by simpa using hs) hb

/-- Reading a key. -/
theorem run_loadKey {c : Config} {s : State} {b : Buf} {vs : List Byte} (k : List Byte → Prog)
    (hp : s.params = c) (h : s.key? b = some vs) : (loadKey c b k).run s = (k vs).run s := by
  subst hp
  exact run_loadBytes k (by simp) h

/-- Storing a byte string. -/
theorem run_storeBytes (s : State) (b : Buf) (i : Nat) (vs : List Byte) (p : Prog) :
    (storeBytes b i vs p).run s = p.run { s with mem := putBytes s.mem b i vs } := by
  induction vs generalizing s i with
  | nil => rfl
  | cons v vs ih => rw [storeBytes, Prog.run_act, ih]; rfl

/-! ## Slots (R121 to R131) -/

/-- Time added in two parts is time added at once. -/
theorem us_add (a b : Nat) : us a + us b = us (a + b) := (BitVec.ofNat_add a b).symm

theorem afterSlots_afterSlots (s : State) (e e' : List Event) (n n' : Nat) :
    (s.afterSlots e n).afterSlots e' n' = s.afterSlots (e ++ e') (n + n') := by
  simp [State.afterSlots, BitVec.add_assoc, us_add]

/-- A reset slot (R88, R121). -/
theorem run_resetSlot (c : Config) (s : State) (k : Bool → Prog)
    (h : c.tRstl + c.tMsp ≤ c.tRstSlot) :
    (resetSlot c k).run s =
      (k (!s.env.busLevel)).run
        (({ s with env := s.env.afterBus }).afterSlots
          (resetSlotEvents c s.timeUs s.env.busLevel) c.tRstSlot) := by
  simp only [resetSlot, Prog.run_act, Prog.run_sample, Act.apply, presenceOf]
  simp only [State.busDriveLow, State.delayUs, State.busRelease, State.afterSample, State.busLevel,
    State.afterSlots, resetSlotEvents, Bool.not_false, Bool.true_and, List.append_assoc,
    List.cons_append, List.nil_append, BitVec.add_assoc, us_add]
  rw [show c.tRstl + c.tMsp + (c.tRstSlot - c.tRstl - c.tMsp)
    = c.tRstSlot by omega]

/-- A write slot (R89, R90, R123). -/
theorem run_writeSlot (c : Config) (s : State) (b : Bool) (p : Prog) (h : lowTime c b ≤ c.tSlot) :
    (writeSlot c b p).run s =
      p.run (s.afterSlots (writeSlotEvents c s.timeUs b) c.tSlot) := by
  simp only [writeSlot, Prog.run_act, Act.apply]
  simp only [State.busDriveLow, State.delayUs, State.busRelease, State.afterSlots, writeSlotEvents,
    List.append_assoc, List.cons_append, List.nil_append, BitVec.add_assoc, us_add]
  rw [Nat.add_sub_cancel' h]
  rfl

/-- A read slot (R91, R125). -/
theorem run_readSlot (c : Config) (s : State) (k : Bool → Prog)
    (h : c.tRl + c.tMsr ≤ c.tSlot) :
    (readSlot c k).run s =
      (k s.env.busLevel).run
        (({ s with env := s.env.afterBus }).afterSlots
          (readSlotEvents c s.timeUs s.env.busLevel) c.tSlot) := by
  simp only [readSlot, Prog.run_act, Prog.run_sample, Act.apply]
  simp only [State.busDriveLow, State.delayUs, State.busRelease, State.afterSample, State.busLevel,
    State.afterSlots, readSlotEvents, Bool.not_false, Bool.true_and, List.append_assoc,
    List.cons_append, List.nil_append, BitVec.add_assoc, us_add]
  rw [show c.tRl + c.tMsr + (c.tSlot - c.tRl - c.tMsr)
    = c.tSlot by omega]

/-- The slot times of R10's ranges fit their slots. -/
structure SlotsFit (c : Config) : Prop where
  reset : c.tRstl + c.tMsp ≤ c.tRstSlot
  write : ∀ b, lowTime c b ≤ c.tSlot
  read : c.tRl + c.tMsr ≤ c.tSlot

theorem slotsFit {c : Config} (h : c.timingOk = true) : SlotsFit c := by
  simp only [Config.timingOk, Bool.and_eq_true, decide_eq_true_eq] at h
  refine ⟨by omega, fun b => ?_, by omega⟩
  cases b <;> simp [lowTime] <;> omega

/-- Write slots in a row (R87, R92). -/
theorem run_writeBits (c : Config) (s : State) (b : Bool) (bs : List Bool) (p : Prog) (h : SlotsFit c) :
    (writeBits c (b :: bs) p).run s =
      p.run (s.afterSlots (writeSlotsEvents c s.timeUs (b :: bs))
        ((bs.length + 1) * c.tSlot)) := by
  induction bs generalizing s b with
  | nil => simp [writeBits, writeSlotsEvents, run_writeSlot c s b p (h.write b)]
  | cons d bs ih =>
    rw [writeBits, run_writeSlot c s b _ (h.write b)]
    have h2 := ih (s.afterSlots (writeSlotEvents c s.timeUs b) c.tSlot) d
    rw [h2, afterSlots_afterSlots, List.length_cons, State.afterSlots_timeUs,
      Nat.succ_mul (bs.length + 1), Nat.add_comm (_ * _)]
    conv_rhs => rw [writeSlotsEvents]

/-- A byte written on the bus (R92, R128). -/
theorem run_writeByte (c : Config) (s : State) (v : Byte) (p : Prog) (h : SlotsFit c) :
    (writeByte c v p).run s =
      p.run (s.afterSlots (writeByteEvents c s.timeUs v) (8 * c.tSlot)) :=
  run_writeBits c s _ _ p h

/-- Read slots in a row (R87, R92). -/
theorem run_readBits (c : Config) (s : State) (n : Nat) (k : List Bool → Prog) (h : SlotsFit c) :
    (readBits c (n + 1) k).run s =
      (k (s.env.levels (n + 1))).run
        (({ s with env := s.env.dropBus (n + 1) }).afterSlots
          (readSlotsEvents c s.timeUs (s.env.levels (n + 1))) ((n + 1) * c.tSlot)) := by
  induction n generalizing s k with
  | zero =>
    simp [readBits, readSlotsEvents, run_readSlot c s _ h.read, Env.levels, Env.dropBus]
  | succ n ih =>
    rw [readBits, run_readSlot c s _ h.read]
    have h2 := ih (({ s with env := s.env.afterBus }).afterSlots
      (readSlotEvents c s.timeUs s.env.busLevel) c.tSlot)
      (fun bs => k (s.env.busLevel :: bs))
    simp only [State.afterSlots_env, State.afterSlots_timeUs] at h2
    rw [h2]
    conv_rhs => rw [Env.levels, readSlotsEvents]
    simp only [State.afterSlots, Env.dropBus, BitVec.add_assoc, us_add, List.append_assoc]
    rw [show c.tSlot + (n + 1) * c.tSlot = (n + 1 + 1) * c.tSlot by ring]

/-- A byte read from the bus (R92, R130). -/
theorem run_readByte (c : Config) (s : State) (k : Byte → Prog) (h : SlotsFit c) :
    (readByte c k).run s =
      (k (byteOfBits (s.env.levels 8))).run
        (({ s with env := s.env.dropBus 8 }).afterSlots
          (readSlotsEvents c s.timeUs (s.env.levels 8)) (8 * c.tSlot)) :=
  run_readBits c s 7 _ h

/-- Bit k of the byte is the level of slot k (R92, R130). -/
theorem byteOfBits_toNat (ls : List Bool) (h : ls.length ≤ 8) :
    (byteOfBits ls).toNat = levelsValue ls := by
  suffices ∀ n ≤ 8, ls.length = n → (byteOfBits ls).toNat = levelsValue ls ∧ levelsValue ls < 2 ^ n by
    exact (this _ h rfl).1
  clear h
  induction ls with
  | nil => intro n _ h; subst h; simp [byteOfBits, levelsValue]
  | cons l ls ih =>
    intro n hn h
    obtain ⟨m, rfl⟩ : ∃ m, n = m + 1 := ⟨ls.length, by simpa using h.symm⟩
    obtain ⟨h1, h2⟩ := ih m (by omega) (by simpa using h)
    have h3 : 2 ^ m ≤ 2 ^ 7 := Nat.pow_le_pow_right (by omega) (by omega)
    have h4 : levelsValue ls < 128 := by omega
    have hx : (byteOfBits (l :: ls)).toNat = levelsValue (l :: ls) := by
      have : byteOfBits ls = BitVec.ofNat 8 (levelsValue ls) := by
        apply BitVec.eq_of_toNat_eq; simp [h1]; omega
      rw [byteOfBits, levelsValue, this]
      revert h4
      generalize levelsValue ls = x
      revert x
      cases l <;> decide
    refine ⟨hx, ?_⟩
    rw [levelsValue]
    have : 2 ^ (m + 1) = 2 * 2 ^ m := by ring
    split <;> omega

/-! ## Lines (R170 to R176, R190, R191) -/

section AfterSend
variable (s : State) (bs : List Byte)

theorem afterSend_cons (b : Byte) : s.afterSend (b :: bs) = (s.uartSend b).afterSend bs := rfl

@[simp] theorem State.afterSend_params : (s.afterSend bs).params = s.params := by
  induction bs generalizing s with
  | nil => rfl
  | cons b bs ih => rw [afterSend_cons, ih]; rfl

@[simp] theorem State.afterSend_env : (s.afterSend bs).env = s.env := by
  induction bs generalizing s with
  | nil => rfl
  | cons b bs ih => rw [afterSend_cons, ih]; rfl

@[simp] theorem State.afterSend_mem : (s.afterSend bs).mem = s.mem := by
  induction bs generalizing s with
  | nil => rfl
  | cons b bs ih => rw [afterSend_cons, ih]; rfl

/-- Sending appends one Tx event for each byte, in order (R170). -/
@[simp] theorem State.afterSend_trace :
    (s.afterSend bs).trace = s.trace ++ bs.map Event.tx := by
  induction bs generalizing s with
  | nil => simp [State.afterSend]
  | cons b bs ih => rw [afterSend_cons, ih]; simp

/-- Sending changes TRACE and the time, and nothing else. -/
theorem State.afterSend_frame :
    s.afterSend bs = { s with
      trace := s.trace ++ bs.map Event.tx
      timeUs := (s.afterSend bs).timeUs
      timeSub := (s.afterSend bs).timeSub } := by
  induction bs generalizing s with
  | nil => simp [State.afterSend]
  | cons b bs ih =>
    rw [afterSend_cons]
    conv_lhs => rw [ih]
    simp [State.uartSend]

end AfterSend

theorem afterSend_append (s : State) (bs cs : List Byte) :
    s.afterSend (bs ++ cs) = (s.afterSend bs).afterSend cs := List.foldl_append

theorem run_sendStr (s : State) (bs : List Byte) (p : Prog) :
    (sendStr bs p).run s = p.run (s.afterSend bs) := by
  induction bs generalizing s with
  | nil => rfl
  | cons b bs ih => exact ih _

/-- A command line sent (R171). -/
theorem run_sendLine (s : State) (text param : List Byte) (p : Prog) :
    (sendLine text param p).run s = p.run (s.afterSend (text ++ param ++ [0x0D, 0x0A])) := by
  rw [sendLine, run_sendStr, run_sendStr, afterSend_append, afterSend_append]
  rfl

theorem rawLine_length_le (tmo room : Nat) (e : Env) : (rawLine tmo room e).bytes.length ≤ room := by
  induction room generalizing e with
  | zero => simp [rawLine]
  | succ n ih =>
    unfold rawLine
    split
    · simp
    · split
      · simp
      · simpa using ih _

theorem RawLine.line_length_le (r : RawLine) : r.line.length ≤ r.bytes.length := by
  unfold RawLine.line; split <;> simp

/-- The receive loop of R175. -/
theorem run_recvLoop (s : State) (tmo room n : Nat) (k : Nat → LineEnd → Prog) :
    (recvLoop tmo room n k).run s =
      (k (n + (rawLine tmo room s.env).bytes.length) (rawLine tmo room s.env).ending).run
        { s with
          mem := putBytes s.mem .linebuf n (rawLine tmo room s.env).bytes
          env := (rawLine tmo room s.env).env
          trace := s.trace ++ (rawLine tmo room s.env).events
          timeUs := s.timeUs + us (rawLine tmo room s.env).waited } := by
  induction room generalizing s n with
  | zero => simp [recvLoop, rawLine, putBytes]
  | succ m ih =>
    rw [recvLoop, Prog.run_recv, rawLine]
    cases hd : s.env.rxDraw with
    | timeout =>
      simp [RxDraw.byte?, State.afterRecv, hd, RxDraw.event, RxDraw.waited, putBytes]
    | byte b w =>
      simp only [RxDraw.byte?]
      by_cases hb : b = 0x0A
      · rw [if_pos (show b = lf from hb), if_pos hb]
        simp [State.afterRecv, hd, RxDraw.event, RxDraw.waited, putBytes]
      · rw [if_neg (show ¬ b = lf from hb), if_neg hb, Prog.run_act, ih]
        simp only [Act.apply, State.writeByte, State.afterRecv, hd, RxDraw.event, RxDraw.waited,
          putBytes, List.length_cons, BitVec.add_assoc, us_add, List.append_assoc,
          List.cons_append, List.nil_append]
        rw [Nat.add_right_comm n 1]
        rfl

/-- A line read (R175). -/
theorem run_readLine (c : Config) (s : State) (tmo : Nat) (k : Nat → Prog) (hp : s.params = c) :
    (readLine c tmo k).run s =
      (k (s.nextLine tmo).line.length).run (s.afterLine (s.nextLine tmo)) := by
  subst hp
  rw [readLine, run_recvLoop, Nat.zero_add,
    show rawLine tmo s.params.lineCap s.env = s.nextLine tmo from rfl]
  have hlen : (s.nextLine tmo).bytes.length ≤ s.params.lineCap := rawLine_length_le _ _ _
  generalize s.nextLine tmo = r at hlen ⊢
  unfold stripCr
  split
  · next h =>
    obtain ⟨he, hn⟩ := h
    have hlast : r.bytes.getLast? = r.bytes[r.bytes.length - 1]? := by
      rw [List.getLast?_eq_getElem?]
    obtain ⟨b, hb⟩ : ∃ b, r.bytes[r.bytes.length - 1]? = some b :=
      ⟨_, List.getElem?_eq_getElem (by omega)⟩
    rw [Prog.run_load (v := b) _ (by simp only [Buf.size]; omega)
      (by
        rw [State.byte?, get_putBytes, if_pos ⟨rfl, by omega, by omega⟩]
        simpa using hb)]
    by_cases hc : b = 0x0D
    · rw [if_pos (show b = cr from hc)]
      simp [Act.apply, State.afterLine, RawLine.line, he, hlast, hb, hc]
    · have hl : r.line = r.bytes := by
        unfold RawLine.line
        rw [if_neg]
        rintro ⟨-, h⟩
        rw [hlast, hb] at h
        exact hc (Option.some.inj h)
      rw [if_neg (show ¬ b = cr from hc)]
      simp [Act.apply, State.afterLine, he, hl]
  · next h =>
    simp only [Prog.run_act, Act.apply]
    have hline : r.line = r.bytes := by
      unfold RawLine.line
      split
      · next h' =>
        rcases Nat.eq_zero_or_pos r.bytes.length with h0 | h0
        · simp [List.length_eq_zero_iff.mp h0]
        · exact absurd ⟨h'.1, h0⟩ h
      · rfl
    simp [State.afterLine, hline]

/-- The line a line read stored is the current line. -/
theorem string?_afterLine (s : State) (r : RawLine) (hr : r.bytes.length ≤ s.params.lineCap)
    (hc : s.params.lineCap < 4294967296) :
    (s.afterLine r).string? .linebuf (s.afterLine r).lineLen = some r.line := by
  have hl := r.line_length_le
  refine State.string?_eq_some.mpr ⟨?_, State.bytes?_eq_some.mpr ⟨?_, fun k hk => ?_⟩⟩
  · simp only [State.afterLine_lineLen, State.afterLine_params, Buf.size]
    rw [wordOfNat_toNat (by omega)]; omega
  · rw [State.afterLine_lineLen, wordOfNat_toNat (by omega)]
  · rw [State.byte?, State.afterLine_mem, get_putBytes, if_pos ⟨rfl, by omega, by omega⟩]
    simp only [Nat.sub_zero, Nat.zero_add]
    rw [List.getElem?_eq_getElem (by omega)]
    congr 1
    unfold RawLine.line
    split <;> simp

theorem string?_nextLine (s : State) (tmo : Nat) (hc : s.params.lineCap < 4294967296) :
    (s.afterLine (s.nextLine tmo)).string? .linebuf (s.afterLine (s.nextLine tmo)).lineLen
      = some (s.nextLine tmo).line :=
  string?_afterLine s _ (rawLine_length_le _ _ _) hc

/-- The test of the current line against a token (R190). -/
theorem run_tokEq {s : State} {line : List Byte} (tok : List Byte) (k : Bool → Prog)
    (h : s.string? .linebuf s.lineLen = some line) :
    (tokEq tok k).run s = (k (line == tok)).run s :=
  run_loadOperand (r := .lineLen) _ h

/-- One command and its response (R191). -/
theorem run_sendCmd (c : Config) (s : State) (text param : List Byte) (k : Bool → Prog)
    (hp : s.params = c) (hc : c.lineCap < 4294967296) :
    (sendCmd c text param k).run s =
      (k (s.reply text param c.tCmdMs == c.lits.tokOk)).run (s.exchange text param c.tCmdMs) := by
  subst hp
  rw [sendCmd, run_sendLine, run_readLine _ _ _ _ (by simp),
    run_tokEq _ _ (string?_nextLine _ _ (by simpa using hc))]
  rfl

@[simp] theorem State.exchange_params (s : State) (text param : List Byte) (tmo : Nat) :
    (s.exchange text param tmo).params = s.params := by simp [State.exchange]

/-- After an exchange the current line is the reply. -/
theorem string?_exchange (s : State) (text param : List Byte) (tmo : Nat)
    (hc : s.params.lineCap < 4294967296) :
    (s.exchange text param tmo).string? .linebuf (s.exchange text param tmo).lineLen
      = some (s.reply text param tmo) :=
  string?_nextLine _ _ (by simpa using hc)

@[simp] theorem exchangeAll_params (l : List (List Byte × List Byte)) (s : State) :
    (exchangeAll l s).2.params = s.params := by
  induction l generalizing s with
  | nil => rfl
  | cons e l ih => rw [exchangeAll]; split <;> simp [ih]

/-- Commands in order with short-circuit (R201, R222). -/
theorem run_sendAll (c : Config) (s : State) (l : List (List Byte × List Byte)) (k : Bool → Prog)
    (hp : s.params = c) (hc : c.lineCap < 4294967296) :
    (sendAll c l k).run s = (k (exchangeAll l s).1).run (exchangeAll l s).2 := by
  subst hp
  induction l generalizing s with
  | nil => rfl
  | cons e l ih =>
    obtain ⟨text, param⟩ := e
    rw [sendAll, run_sendCmd _ s _ _ _ rfl hc, exchangeAll]
    by_cases h : s.reply text param s.params.tCmdMs = s.params.lits.tokOk
    · rw [if_pos h, if_pos (by simpa using h)]
      have := ih (s.exchange text param s.params.tCmdMs) (by simpa using hc)
      simpa using this
    · rw [if_neg h, if_neg (by simpa using h)]

end Sys2Proof.Machine
end

