-- ==== Sys2Proof/Laws/Dispatch.lean ====
section
/-! SUPPORT. Every instruction's meaning is the run of its pseudocode: what a proof about an instruction
starts from. -/
namespace Sys2Proof.Machine

/-- A meaning is a run of the instruction's pseudocode, with issue and end around it where the
instruction is an operation (R240, R241). -/
theorem exec_eq_run (i : Instr) (s : State) :
    exec i s =
      if i.isOperation then runOp i (program s.params i) s else runPart (program s.params i) s := by
  cases i <;> rfl

theorem runOp_of_run {i : Instr} {p : Prog} {s t : State} {v : Word}
    (h : p.run (s.issue i) = .next (v, t)) : runOp i p s = .next (t.endOp v) := by
  simp [runOp, h]

/-- An operation whose pseudocode runs to `return v` completes. -/
theorem exec_of_run {i : Instr} {s t : State} {v : Word} (hi : i.isOperation = true)
    (h : (program s.params i).run (s.issue i) = .next (v, t)) : exec i s = .next (t.endOp v) := by
  rw [exec_eq_run, if_pos hi, runOp_of_run h]

/-- An operation that completes ran its pseudocode to `return`. -/
theorem run_of_exec {i : Instr} {s t : State} (hi : i.isOperation = true) (h : exec i s = .next t) :
    ∃ v u, (program s.params i).run (s.issue i) = .next (v, u) ∧ t = u.endOp v := by
  rw [exec_eq_run, if_pos hi, runOp] at h
  split at h
  · next v u hu => exact ⟨v, u, hu, by simpa using h.symm⟩
  · simp at h
  · simp at h

/-- A command byte that completes ran its pseudocode to the end. -/
theorem run_of_exec_part {i : Instr} {s t : State} (hi : i.isOperation = false)
    (h : exec i s = .next t) : ∃ v, (program s.params i).run s = .next (v, t) := by
  rw [exec_eq_run, if_neg (by simp [hi]), runPart] at h
  split at h
  · next v u hu => exact ⟨v, by simpa [hu] using h⟩
  · simp at h
  · simp at h

/-- The end overwrites what the issue set. -/
@[simp] theorem State.endOp_issue (s : State) (i : Instr) (v : Word) :
    (s.issue i).endOp v = s.endOp v := rfl

end Sys2Proof.Machine
end

