-- ==== Sys2Proof/Laws/Frame.lean ====
section
/-! SUPPORT. Said once: which lines an instruction's pseudocode may hold, by R84's table. A frame, a
rule about who writes a field, and a rule about the two interfaces each follow from it by one induction
over pseudocode (`Prog.run_rel`, `Prog.stepOnce_rel`). -/
namespace Sys2Proof
open Machine

/-- R84, column "interface": the bus. -/
def Instr.usesBus : Instr → Bool
  | .busReset | .busWbit | .busRbit | .busWbyte | .busRbyte | .sensorStart | .sensorWait
  | .sensorRead | .skipRom | .startConversion | .readScratchpad => true
  | .crcCheck | .lineRead | .radioCmd | .radioCmdText | .radioCmdBin | .radioClassify
  | .radioJoin _ | .radioSend _ | .radioRecv | .radioConsume | .radioReset | .radioSleep
  | .radioWake => false

/-- R84, column "interface": the serial link. -/
def Instr.usesSerial : Instr → Bool
  | .lineRead | .radioCmd | .radioCmdText | .radioCmdBin | .radioJoin _ | .radioSend _
  | .radioReset | .radioSleep | .radioWake => true
  | .busReset | .busWbit | .busRbit | .busWbyte | .busRbyte | .crcCheck | .sensorStart
  | .sensorWait | .sensorRead | .radioClassify | .radioRecv | .radioConsume | .skipRom
  | .startConversion | .readScratchpad => false

/-- R84, columns "STATUS fields written" and "buffers / registers written", for one line. -/
def Instr.mayDo (i : Instr) : Act → Prop
  | .busDriveLow | .busRelease => i.usesBus = true
  | .delayUs _ => i.usesBus = true ∨ i.usesSerial = true
  | .uartSend _ | .breakStart _ | .breakEnd => i.usesSerial = true
  | .setPresence _ => opWritesField i .presence = true
  | .setCrcOk _ => opWritesField i .crcOk = true
  | .setTimedOut _ => opWritesField i .timedOut = true
  | .setRxPending _ => opWritesField i .rxPending = true
  | .setLineEnd _ => opWritesField i .lineEnd = true
  | .setJoinState _ => opWritesField i .joinState = true
  | .setVariant _ => opWritesField i .variant = true
  | .setLineLen _ => opWritesReg i .lineLen = true
  | .setRxpayLen _ => opWritesReg i .rxpayLen = true
  | .setTempRaw _ => opWritesReg i .tempRaw = true
  | .store b _ _ => opWritesBuf i b = true

end Sys2Proof

namespace Sys2Proof.Machine

/-- Every line of the pseudocode is one the instruction may hold. -/
def Prog.Within (i : Instr) : Prog → Prop
  | .ret _ => True
  | .act a p => i.mayDo a ∧ p.Within i
  | .sample k => i.usesBus = true ∧ ∀ l, (k l).Within i
  | .recv _ k => i.usesSerial = true ∧ ∀ r, (k r).Within i
  | .nibble k => ∀ n, (k n).Within i
  | .load _ _ k => ∀ v, (k v).Within i
  | .reg _ k => ∀ w, (k w).Within i
  | .refuse _ => i = .radioRecv

section
variable {c : Config} {i : Instr}

theorem within_resetSlot {k : Bool → Prog} (h : i.usesBus = true) (hk : ∀ b, (k b).Within i) :
    (resetSlot c k).Within i := ⟨h, .inl h, h, .inl h, h, fun _ => ⟨.inl h, hk _⟩⟩

theorem within_writeSlot {b : Bool} {p : Prog} (h : i.usesBus = true) (hp : p.Within i) :
    (writeSlot c b p).Within i := ⟨h, .inl h, h, .inl h, hp⟩

theorem within_readSlot {k : Bool → Prog} (h : i.usesBus = true) (hk : ∀ b, (k b).Within i) :
    (readSlot c k).Within i := ⟨h, .inl h, h, .inl h, h, fun _ => ⟨.inl h, hk _⟩⟩

theorem within_writeBits {bs : List Bool} {p : Prog} (h : i.usesBus = true) (hp : p.Within i) :
    (writeBits c bs p).Within i := by
  induction bs with
  | nil => exact hp
  | cons b bs ih => exact within_writeSlot h ih

theorem within_readBits {n : Nat} {k : List Bool → Prog} (h : i.usesBus = true)
    (hk : ∀ bs, (k bs).Within i) : (readBits c n k).Within i := by
  induction n generalizing k with
  | zero => exact hk _
  | succ n ih => exact within_readSlot h fun _ => ih fun _ => hk _

theorem within_loadBytes {b : Buf} {j n : Nat} {k : List Byte → Prog}
    (hk : ∀ vs, (k vs).Within i) : (loadBytes b j n k).Within i := by
  induction n generalizing j k with
  | zero => exact hk _
  | succ n ih => exact fun v => ih fun vs => hk _

theorem within_loadOperand {b : Buf} {r : Reg} {k : List Byte → Prog}
    (hk : ∀ vs, (k vs).Within i) : (loadOperand b r k).Within i := fun _ => within_loadBytes hk

theorem within_checkScratch {k : Byte → Bool → Prog} (hk : ∀ a b, (k a b).Within i) :
    (checkScratch k).Within i := within_loadBytes fun _ _ => hk _ _

theorem within_pollLoop {n : Nat} (h : i.usesBus = true) (ht : opWritesField i .timedOut = true) :
    (pollLoop c n).Within i := by
  induction n with
  | zero => exact ⟨ht, trivial⟩
  | succ n ih =>
    refine within_readSlot h fun b => ?_
    cases b
    · exact ⟨.inl h, ih⟩
    · exact ⟨ht, trivial⟩

theorem within_readScratch {j n : Nat} {p : Prog} (h : i.usesBus = true)
    (hs : opWritesBuf i .scratch = true) (hp : p.Within i) : (readScratch c j n p).Within i := by
  induction n generalizing j with
  | zero => exact hp
  | succ n ih => exact within_readBits h fun _ => ⟨hs, ih⟩

theorem within_sendStr {bs : List Byte} {p : Prog} (h : i.usesSerial = true) (hp : p.Within i) :
    (sendStr bs p).Within i := by
  induction bs with
  | nil => exact hp
  | cons b bs ih => exact ⟨h, ih⟩

theorem within_sendLine {text param : List Byte} {p : Prog} (h : i.usesSerial = true)
    (hp : p.Within i) : (sendLine text param p).Within i :=
  within_sendStr h (within_sendStr h ⟨h, h, hp⟩)

theorem within_recvLoop {tmo room n : Nat} {k : Nat → LineEnd → Prog} (h : i.usesSerial = true)
    (hs : opWritesBuf i .linebuf = true) (hk : ∀ m e, (k m e).Within i) :
    (recvLoop tmo room n k).Within i := by
  induction room generalizing n with
  | zero => exact hk _ _
  | succ room ih =>
    refine ⟨h, fun r => ?_⟩
    cases r with
    | none => exact hk _ _
    | some b =>
      dsimp only
      split
      · exact hk _ _
      · exact ⟨hs, ih⟩

theorem within_readLine {tmo : Nat} {k : Nat → Prog} (h : opReadsLine i = true)
    (hk : ∀ m, (k m).Within i) : (readLine c tmo k).Within i := by
  have hs : i.usesSerial = true := by cases i <;> first | rfl | exact h
  refine within_recvLoop hs (by exact h) fun m e => ?_
  unfold stripCr
  split
  · intro b
    dsimp only
    split
    · exact ⟨h, h, hk _⟩
    · exact ⟨h, h, hk _⟩
  · exact ⟨h, h, hk _⟩

theorem within_sendCmd {text param : List Byte} {k : Bool → Prog} (h : opReadsLine i = true)
    (hk : ∀ b, (k b).Within i) : (sendCmd c text param k).Within i := by
  have hs : i.usesSerial = true := by cases i <;> first | rfl | exact h
  exact within_sendLine hs (within_readLine h fun _ => within_loadOperand fun _ => hk _)

theorem within_sendAll {l : List (List Byte × List Byte)} {k : Bool → Prog}
    (h : opReadsLine i = true) (hk : ∀ b, (k b).Within i) : (sendAll c l k).Within i := by
  induction l with
  | nil => exact hk _
  | cons e l ih =>
    refine within_sendCmd h fun b => ?_
    cases b
    · exact hk _
    · exact ih

theorem within_loadKeys {l : List (List Byte × Buf)} {k : List (List Byte × List Byte) → Prog}
    (hk : ∀ vs, (k vs).Within i) : (loadKeys c l k).Within i := by
  induction l generalizing k with
  | nil => exact hk _
  | cons e l ih => exact within_loadBytes fun _ => ih fun _ => hk _

theorem within_classify : (classifyProg c).Within i := within_loadOperand fun _ => trivial

theorem within_storeBytes {b : Buf} {j : Nat} {vs : List Byte} {p : Prog}
    (h : opWritesBuf i b = true) (hp : p.Within i) : (storeBytes b j vs p).Within i := by
  induction vs generalizing j with
  | nil => exact hp
  | cons v vs ih => exact ⟨h, ih⟩

theorem within_receiveWindow {conf : Bool} : (receiveWindow c).Within (.radioSend conf) := by
  refine within_readLine rfl fun m => ?_
  split
  · trivial
  · refine within_loadOperand fun line => ?_
    dsimp only
    split
    · trivial
    · refine within_loadOperand fun line => ?_
      split
      · exact within_storeBytes (by cases conf <;> rfl)
          ⟨by cases conf <;> rfl, by cases conf <;> rfl, trivial⟩
      · exact within_classify

theorem within_hexVal {ch : Byte} {k : BitVec 4 → Prog} (hk : ∀ v, (k v).Within i) :
    (hexVal ch k).Within i := by
  unfold hexVal; split
  · exact hk _
  · exact hk

theorem within_copyLoop {len room j p : Nat} (h : opWritesBuf i .outbuf = true) :
    (copyLoop len room j p).Within i := by
  induction room generalizing j p with
  | zero => trivial
  | succ room ih =>
    unfold copyLoop
    split
    · exact fun _ => within_hexVal fun _ _ => within_hexVal fun _ => ⟨h, ih⟩
    · trivial

theorem within_payloadLength {j n : Nat} {k : Nat → Prog} (hk : ∀ m, (k m).Within i) :
    (payloadLength j n k).Within i := by
  induction n generalizing j with
  | zero => exact hk _
  | succ n ih =>
    intro b
    dsimp only
    split
    · exact hk _
    · exact ih

theorem within_joinExchange {mode : JoinMode} : (joinExchange c mode).Within (.radioJoin mode) := by
  have hj : opWritesField (.radioJoin mode) .joinState = true := by cases mode <;> rfl
  refine ⟨hj, within_sendCmd rfl fun ok => ?_⟩
  cases ok
  · exact ⟨hj, trivial⟩
  · refine ⟨hj, within_readLine rfl fun _ => within_loadOperand fun line => ?_⟩
    dsimp only
    split
    · exact ⟨hj, trivial⟩
    · exact ⟨hj, trivial⟩

end

/-- Every instruction's pseudocode holds only lines of its row. -/
theorem within_program (c : Config) (i : Instr) : (program c i).Within i := by
  cases i with
  | busReset =>
    rw [program, busResetProg]
    exact within_resetSlot rfl fun _ => ⟨rfl, trivial⟩
  | busWbit => exact fun _ => within_writeSlot rfl trivial
  | busRbit => exact within_readSlot rfl fun _ => trivial
  | busWbyte => exact fun _ => within_writeBits rfl trivial
  | busRbyte => exact within_readBits rfl fun _ => trivial
  | crcCheck =>
    rw [program, crcCheckProg]
    exact within_checkScratch fun _ _ => ⟨rfl, trivial⟩
  | sensorStart =>
    rw [program, sensorStartProg]
    refine within_resetSlot rfl fun b => ⟨rfl, ?_⟩
    cases b
    · trivial
    · exact within_writeBits rfl (within_writeBits rfl trivial)
  | sensorWait => exact within_pollLoop rfl rfl
  | sensorRead =>
    rw [program, sensorReadProg]
    refine within_resetSlot rfl fun b => ⟨rfl, ?_⟩
    cases b
    · exact ⟨rfl, trivial⟩
    · refine within_writeBits rfl (within_writeBits rfl (within_readScratch rfl rfl
        (within_checkScratch fun _ ok => ?_)))
      cases ok
      · exact ⟨rfl, trivial⟩
      · exact ⟨rfl, fun _ _ => ⟨rfl, trivial⟩⟩
  | lineRead => exact fun _ => within_readLine rfl fun _ => trivial
  | radioCmd => exact within_loadOperand fun _ => within_sendCmd rfl fun _ => trivial
  | radioCmdText =>
    exact within_loadOperand fun _ => within_loadOperand fun _ => within_sendCmd rfl fun _ => trivial
  | radioCmdBin =>
    exact within_loadOperand fun _ => within_loadOperand fun _ => within_sendCmd rfl fun _ => trivial
  | radioClassify => exact within_classify
  | radioJoin mode =>
    refine ⟨by cases mode <;> rfl, fun _ => within_loadKeys fun _ =>
      within_sendAll rfl fun ok => ?_⟩
    cases ok
    · trivial
    · exact within_joinExchange
  | radioSend conf =>
    refine ⟨by cases conf <;> rfl, fun _ => within_loadOperand fun _ =>
      within_sendCmd rfl fun ok => ?_⟩
    cases ok
    · exact within_classify
    · exact within_receiveWindow
  | radioRecv =>
    intro off cnt
    dsimp only
    split
    · rfl
    · intro st
      dsimp only
      split
      · refine fun n => within_payloadLength fun len => ?_
        split
        · trivial
        · exact within_copyLoop rfl
      · trivial
  | radioConsume => exact ⟨rfl, trivial⟩
  | radioReset =>
    refine within_sendLine rfl (within_readLine rfl fun _ => within_loadOperand fun line =>
      ⟨rfl, ?_⟩)
    split
    · trivial
    · exact within_sendAll rfl fun _ => trivial
  | radioSleep =>
    intro d
    dsimp only
    split
    · trivial
    · exact within_sendLine rfl trivial
  | radioWake => exact ⟨rfl, .inr rfl, rfl, rfl, trivial⟩
  | skipRom => exact within_writeBits rfl trivial
  | startConversion => exact within_writeBits rfl trivial
  | readScratchpad => exact within_writeBits rfl trivial

/-- What every allowed line, every draw and every free value keeps, a whole run keeps. -/
theorem Prog.run_rel {i : Instr} {R : State → State → Prop} (refl : ∀ s, R s s)
    (trans : ∀ s t u, R s t → R t u → R s u) (act : ∀ a s, i.mayDo a → R s (a.apply s))
    (sample : ∀ s, i.usesBus = true → R s s.afterSample)
    (recv : ∀ s tmo, i.usesSerial = true → R s (s.afterRecv tmo)) (free : ∀ s, R s s.useFree)
    {p : Prog} {s u : State} {v : Word} (hp : p.Within i) (h : p.run s = .next (v, u)) : R s u := by
  induction p generalizing s with
  | ret w =>
    obtain ⟨rfl, rfl⟩ : w = v ∧ s = u := by simpa [Prog.run] using h
    exact refl s
  | act a p ih => exact trans _ _ _ (act a s hp.1) (ih hp.2 h)
  | sample f ih => exact trans _ _ _ (sample s hp.1) (ih _ (hp.2 _) h)
  | recv tmo f ih => exact trans _ _ _ (recv s tmo hp.1) (ih _ (hp.2 _) h)
  | nibble f ih => exact trans _ _ _ (free s) (ih _ (hp _) h)
  | load b j f ih =>
    simp only [Prog.run] at h
    split at h
    · exact ih _ (hp _) h
    · simp at h
  | reg r f ih => exact ih _ (hp _) h
  | refuse r => simp [Prog.run] at h

/-- The same for one primitive of a running operation. -/
theorem Prog.stepOnce_rel {i : Instr} {R : State → State → Prop}
    (act : ∀ a s, i.mayDo a → R s (a.apply s)) (sample : ∀ s, i.usesBus = true → R s s.afterSample)
    (recv : ∀ s tmo, i.usesSerial = true → R s (s.afterRecv tmo)) (free : ∀ s, R s s.useFree)
    (refl : ∀ s, R s s) (phase : ∀ s t h, R s t → R s (t.atPhase i h)) (fin : ∀ s v, R s (s.endOp v))
    {h : List Resp} {p : Prog} {s t : State} (hp : p.Within i) (hs : p.stepOnce i h s = .next t) :
    R s t := by
  cases p <;> simp only [Prog.stepOnce, Host.Outcome.next.injEq, reduceCtorEq] at hs
  · exact hs ▸ fin _ _
  · exact hs ▸ phase _ _ _ (act _ _ hp.1)
  · exact hs ▸ phase _ _ _ (sample _ hp.1)
  · exact hs ▸ phase _ _ _ (recv _ _ hp.1)
  · exact hs ▸ phase _ _ _ (free _)
  · split at hs
    · exact Host.Outcome.next.inj hs ▸ phase _ _ _ (refl _)
    · simp at hs
  · exact hs ▸ phase _ _ _ (refl _)

/-- Only RECEIVE's pseudocode refuses. -/
theorem Prog.run_refused {i : Instr} {p : Prog} {s : State} {r : Refusal} (hp : p.Within i)
    (h : p.run s = .refused r) : i = .radioRecv := by
  induction p generalizing s with
  | ret w => simp [Prog.run] at h
  | act a p ih => exact ih hp.2 h
  | sample f ih => exact ih _ (hp.2 _) h
  | recv tmo f ih => exact ih _ (hp.2 _) h
  | nibble f ih => exact ih _ (hp _) h
  | load b j f ih =>
    simp only [Prog.run] at h
    split at h
    · exact ih _ (hp _) h
    · simp at h
  | reg r f ih => exact ih _ (hp _) h
  | refuse r => exact hp

/-- The rest of pseudocode that holds only allowed lines holds only allowed lines. -/
theorem Prog.Within.resume {i : Instr} {h : List Resp} {p q : Prog} (hp : p.Within i)
    (hq : p.resume h = some q) : q.Within i := by
  induction h generalizing p with
  | nil =>
    obtain rfl : p = q := by simpa [Prog.resume] using hq
    exact hp
  | cons x h ih =>
    cases x <;> cases p <;> simp only [Prog.resume, reduceCtorEq] at hq
    · exact ih hp.2 hq
    · exact ih (hp.2 _) hq
    · exact ih (hp.2 _) hq
    · exact ih (hp _) hq
    · exact ih (hp _) hq
    · exact ih (hp _) hq

end Sys2Proof.Machine
end

