-- ==== Sys2Proof/Laws/HostPort.lean ====
section
/-! SUPPORT. What a host access finds: a space id or register number written as its byte names its
buffer or register, and a host read, said once, changes only what the host has read and the counter of
the free values. -/
namespace Sys2Proof.Machine

theorem Buf.ofId_id (b : Buf) : Buf.ofId (BitVec.ofNat 8 b.id).toNat = some b := by
  cases b <;> decide

theorem Reg.ofNum_num (r : Reg) : Reg.ofNum (BitVec.ofNat 8 r.num).toNat = some r := by
  cases r <;> decide

@[simp] theorem State.answer_readReg (s : State) (v : Word) (r : Reg) :
    (s.answer v).readReg r = s.readReg r := by
  cases r <;> rfl

@[simp] theorem State.answer_pastLength (s : State) (v : Word) (b : Buf) (i : Nat) :
    (s.answer v).pastLength b i = s.pastLength b i := by
  cases b <;> rfl

theorem Reg.reads_tempRaw_lt (w : Word) : (Reg.reads .tempRaw w).toNat < 65536 := by
  simp only [Reg.reads, BitVec.toNat_setWidth]; omega

@[simp] theorem Reg.reads_of_ne {r : Reg} (h : r ≠ .tempRaw) (w : Word) : r.reads w = w := by
  cases r <;> first | rfl | exact absurd rfl h

theorem State.operandRefusal_eq_some {s : State} {i : Instr} {r : Refusal} :
    s.operandRefusal i = some r ↔
      i = .radioRecv ∧ s.params.outCap < s.arg1.toNat ∧ r = .countAboveOutCap s.arg1 := by
  cases i <;> simp [State.operandRefusal, eq_comm]

/-- A write of CMD that is not refused issues the operation of its word, whose operands are legal
(R24, R240, R246). -/
theorem hostIssue_next {s t : State} {w : Word} (h : hostIssue s w = .next t) :
    ∃ i, decodeCmd w = .ok i ∧ ¬ (i = .radioRecv ∧ s.params.outCap < s.arg1.toNat)
      ∧ t = s.issue i := by
  unfold hostIssue at h
  split at h
  · next i hi =>
    split at h
    · simp at h
    · next hn =>
      refine ⟨i, hi, fun hc => ?_, by simpa using h.symm⟩
      rw [State.operandRefusal_eq_some.mpr ⟨hc.1, hc.2, rfl⟩] at hn
      simp at hn
  · simp at h

theorem State.seenByte_eq (s : State) (b : Buf) (i : Nat) (v : Byte) :
    s.seenByte b i v =
      if s.pastLength b i then Config.heldByte s.heldCount (b.addr i) else v := by
  cases b <;> simp [State.seenByte, State.pastLength]

section
variable {s : State} {b : Buf} {i : Nat}

/-- A read of a buffer the running operation may write (R71). -/
theorem hostReadBuf_inFlight (hi : i < b.size s.params) (h : s.bufInFlight b = true) :
    hostReadBuf s 8 (BitVec.ofNat 8 b.id) i =
      .next (s.useFree.answer ((Config.freeByte s.freeCount).setWidth 32)) := by
  simp only [hostReadBuf, Buf.ofId_id]
  simp [Nat.not_le.mpr hi, h, wordOfByte]

/-- A read of a byte nothing has written since reset (I4). -/
theorem hostReadBuf_unwritten (hi : i < b.size s.params) (h : s.bufInFlight b = false)
    (hb : s.byte? b i = none) :
    hostReadBuf s 8 (BitVec.ofNat 8 b.id) i = .fault (.unwrittenByte b i) := by
  simp only [hostReadBuf, Buf.ofId_id]
  simp [Nat.not_le.mpr hi, h, hb]

/-- A read of a written byte no running operation may write (R61, R71). -/
theorem hostReadBuf_written {v : Byte} (hi : i < b.size s.params) (h : s.bufInFlight b = false)
    (hb : s.byte? b i = some v) :
    hostReadBuf s 8 (BitVec.ofNat 8 b.id) i = .next (s.answer ((s.seenByte b i v).setWidth 32)) := by
  simp only [hostReadBuf, Buf.ofId_id, State.seenByte_eq]
  cases hp : s.pastLength b i <;> simp [Nat.not_le.mpr hi, h, hb, wordOfByte]

end

/-- A host read of a register changes what the host has read, and the counter of the free values where
the register is in flight; nothing else. -/
theorem hostReadReg_next {s t : State} {width : Nat} {num : Byte}
    (h : hostReadReg s width num = .next t) :
    ∃ r, Reg.ofNum num.toNat = some r ∧ width = 32
      ∧ ((s.regInFlight r = true ∧ t = s.useFree.answer (r.reads (Config.freeWord s.freeCount)))
        ∨ (s.regInFlight r = false ∧ t = s.answer (s.readReg r))) := by
  unfold hostReadReg at h
  split at h
  · simp at h
  · next hw =>
    split at h
    · simp at h
    · next r hr =>
      refine ⟨r, hr, by simpa using hw, ?_⟩
      split at h <;> simp_all

/-- A host read of a buffer byte likewise; and the byte has been written unless the buffer is in
flight. -/
theorem hostReadBuf_next {s t : State} {width : Nat} {space : Byte} {i : Nat}
    (h : hostReadBuf s width space i = .next t) :
    ∃ b, Buf.ofId space.toNat = some b ∧ width = 8 ∧ i < b.size s.params
      ∧ ((s.bufInFlight b = true
            ∧ t = s.useFree.answer ((Config.freeByte s.freeCount).setWidth 32))
        ∨ (s.bufInFlight b = false ∧ ∃ v, s.byte? b i = some v
            ∧ t = s.answer ((s.seenByte b i v).setWidth 32))) := by
  unfold hostReadBuf at h
  split at h
  · simp at h
  · next hw =>
    split at h
    · simp at h
    · next b hb =>
      split at h
      · simp at h
      · next hi =>
        refine ⟨b, hb, by simpa using hw, Nat.not_le.mp hi, ?_⟩
        split at h
        · next hf => exact .inl ⟨hf, by simpa [wordOfByte] using h.symm⟩
        · next hf =>
          split at h
          · simp at h
          · next v hv =>
            refine .inr ⟨by simpa using hf, v, hv, ?_⟩
            rw [State.seenByte_eq]
            split at h <;> simp_all [wordOfByte]

end Sys2Proof.Machine
end

