-- ==== Sys2Proof/Laws/Safe.lean ====
section
/-! SUPPORT. Every operation's pseudocode is in order: it drives the line low from the released state,
samples it while released, stores inside its buffers, sets a length register to a number of bytes that
are there, and ends with both ports idle. -/
namespace Sys2Proof.Machine

/-- Both ports idle. -/
def Track.Idle (t : Track) : Prop := t.drive = false ∧ t.out = .mark

section
variable {c : Config} {t : Track}

theorem safe_act {a : Act} {p : Prog} (ha : t.allows c a) (hp : p.Safe c (t.after a)) :
    (Prog.act a p).Safe c t := ⟨ha, hp⟩

theorem safe_resetSlot {k : Bool → Prog} (h : t.Idle)
    (hk : ∀ b t', t'.Idle → (k b).Safe c t') : (resetSlot c k).Safe c t := by
  obtain ⟨h1, h2⟩ := h
  simp only [resetSlot, Prog.Safe, Track.allows, Track.after, true_and]
  exact ⟨h1, fun l => hk _ _ ⟨rfl, h2⟩⟩

theorem safe_writeSlot {b : Bool} {p : Prog} (h : t.Idle) (hp : ∀ t', t'.Idle → p.Safe c t') :
    (writeSlot c b p).Safe c t := by
  obtain ⟨h1, h2⟩ := h
  simp only [writeSlot, Prog.Safe, Track.allows, Track.after, true_and]
  exact ⟨h1, hp _ ⟨rfl, h2⟩⟩

theorem safe_readSlot {k : Bool → Prog} (h : t.Idle)
    (hk : ∀ b t', t'.Idle → (k b).Safe c t') : (readSlot c k).Safe c t := by
  obtain ⟨h1, h2⟩ := h
  simp only [readSlot, Prog.Safe, Track.allows, Track.after, true_and]
  exact ⟨h1, fun l => hk _ _ ⟨rfl, h2⟩⟩

theorem safe_writeBits {bs : List Bool} {p : Prog} (h : t.Idle)
    (hp : ∀ t', t'.Idle → p.Safe c t') : (writeBits c bs p).Safe c t := by
  induction bs generalizing t with
  | nil => exact hp _ h
  | cons b bs ih => exact safe_writeSlot h fun _ h' => ih h'

theorem safe_readBits {n : Nat} {k : List Bool → Prog} (h : t.Idle)
    (hk : ∀ bs t', t'.Idle → (k bs).Safe c t') : (readBits c n k).Safe c t := by
  induction n generalizing t k with
  | zero => exact hk _ _ h
  | succ n ih => exact safe_readSlot h fun _ _ h' => ih h' fun _ _ h'' => hk _ _ h''

theorem safe_loadBytes {b : Buf} {i n : Nat} {k : List Byte → Prog}
    (hk : ∀ vs, (k vs).Safe c t) : (loadBytes b i n k).Safe c t := by
  induction n generalizing i k with
  | zero => exact hk _
  | succ n ih => exact fun v => ih fun vs => hk _

theorem safe_loadOperand {b : Buf} {r : Reg} {k : List Byte → Prog}
    (hk : ∀ vs, (k vs).Safe c t) : (loadOperand b r k).Safe c t := fun _ => safe_loadBytes hk

theorem safe_checkScratch {k : Byte → Bool → Prog} (hk : ∀ a b, (k a b).Safe c t) :
    (checkScratch k).Safe c t := safe_loadBytes fun _ _ => hk _ _

theorem safe_pollLoop {n : Nat} (h : t.Idle) : (pollLoop c n).Safe c t := by
  induction n generalizing t with
  | zero => exact ⟨trivial, h⟩
  | succ n ih =>
    refine safe_readSlot h fun b t' h' => ?_
    cases b
    · exact ⟨trivial, ih h'⟩
    · exact ⟨trivial, h'⟩

theorem safe_readScratch {j n : Nat} {p : Prog} (h : t.Idle) (hj : j + n ≤ 9)
    (hp : ∀ t', t'.Idle → p.Safe c t') : (readScratch c j n p).Safe c t := by
  induction n generalizing j t with
  | zero => exact hp _ h
  | succ n ih =>
    refine safe_readBits h fun bs t' h' => ⟨?_, ih h' (by omega)⟩
    simp only [Track.allows, Buf.size, Config.scratchLen]; omega

theorem safe_sendStr {bs : List Byte} {p : Prog} (hp : p.Safe c t) : (sendStr bs p).Safe c t := by
  induction bs with
  | nil => exact hp
  | cons b bs ih => exact ⟨trivial, ih⟩

theorem safe_sendLine {text param : List Byte} {p : Prog} (hp : p.Safe c t) :
    (sendLine text param p).Safe c t :=
  safe_sendStr (safe_sendStr ⟨trivial, trivial, hp⟩)

theorem safe_recvLoop {tmo room n : Nat} {k : Nat → LineEnd → Prog} (h : t.Idle)
    (hn : n ≤ t.line) (hr : n + room = c.lineCap)
    (hk : ∀ m e t', t'.Idle → m ≤ t'.line → m ≤ c.lineCap → (k m e).Safe c t') :
    (recvLoop tmo room n k).Safe c t := by
  induction room generalizing n t with
  | zero => exact hk _ _ _ h hn (by omega)
  | succ room ih =>
    intro r
    cases r with
    | none => exact hk _ _ _ h hn (by omega)
    | some b =>
      dsimp only
      split
      · exact hk _ _ _ h hn (by omega)
      · refine ⟨?_, ih ?_ ?_ (by omega)⟩
        · simp only [Track.allows, Buf.size]; omega
        · simp only [Track.after]; split <;> exact h
        · simp only [Track.after]; split <;> simp_all; omega

theorem safe_readLine {tmo : Nat} {k : Nat → Prog} (h : t.Idle)
    (hk : ∀ m t', t'.Idle → (k m).Safe c t') : (readLine c tmo k).Safe c t := by
  refine safe_recvLoop h (Nat.zero_le _) (Nat.zero_add _) fun m e t' h' hm hc => ?_
  unfold stripCr
  split
  · intro b
    dsimp only
    split
    · exact ⟨⟨by omega, by omega⟩, trivial, hk _ _ h'⟩
    · exact ⟨⟨hm, hc⟩, trivial, hk _ _ h'⟩
  · exact ⟨⟨hm, hc⟩, trivial, hk _ _ h'⟩

theorem safe_sendCmd {text param : List Byte} {k : Bool → Prog} (h : t.Idle)
    (hk : ∀ b t', t'.Idle → (k b).Safe c t') : (sendCmd c text param k).Safe c t :=
  safe_sendLine (safe_readLine h fun _ _ h' => safe_loadOperand fun _ => hk _ _ h')

theorem safe_sendAll {l : List (List Byte × List Byte)} {k : Bool → Prog} (h : t.Idle)
    (hk : ∀ b t', t'.Idle → (k b).Safe c t') : (sendAll c l k).Safe c t := by
  induction l generalizing t with
  | nil => exact hk _ _ h
  | cons e l ih =>
    refine safe_sendCmd h fun b t' h' => ?_
    cases b
    · exact hk _ _ h'
    · exact ih h'

theorem safe_loadKeys {l : List (List Byte × Buf)} {k : List (List Byte × List Byte) → Prog}
    (hk : ∀ vs, (k vs).Safe c t) : (loadKeys c l k).Safe c t := by
  induction l generalizing k with
  | nil => exact hk _
  | cons e l ih => exact safe_loadBytes fun _ => ih fun _ => hk _

theorem safe_classify (h : t.Idle) : (classifyProg c).Safe c t := safe_loadOperand fun _ => h

theorem safe_storePay {i : Nat} {vs : List Byte} {p : Prog} (h : t.Idle) (hi : i ≤ t.pay)
    (hs : i + vs.length ≤ c.rxpayCap)
    (hp : ∀ t', t'.Idle → i + vs.length ≤ t'.pay → p.Safe c t') :
    (storeBytes .rxpay i vs p).Safe c t := by
  induction vs generalizing i t with
  | nil => exact hp _ h hi
  | cons v vs ih =>
    simp only [List.length_cons] at hs hp
    refine ⟨?_, ih ?_ ?_ (by omega) ?_⟩
    · simp only [Track.allows, Buf.size]; omega
    · simp only [Track.after]; split <;> exact h
    · simp only [Track.after]; split <;> simp_all; omega
    · exact fun t' h' hle => hp _ h' (by omega)

theorem safe_receiveWindow (h : t.Idle) : (receiveWindow c).Safe c t := by
  refine safe_readLine h fun m t' h' => ?_
  split
  · exact h'
  · refine safe_loadOperand fun line => ?_
    dsimp only
    split
    · exact h'
    · refine safe_loadOperand fun line => ?_
      split
      · refine safe_storePay h' (Nat.zero_le _) (by simp) fun t'' h'' hp => ?_
        exact ⟨⟨by omega, by simp⟩, trivial, h''⟩
      · exact safe_classify h'

theorem safe_hexVal {ch : Byte} {k : BitVec 4 → Prog} (hk : ∀ v, (k v).Safe c t) :
    (hexVal ch k).Safe c t := by
  unfold hexVal; split
  · exact hk _
  · exact hk

theorem safe_copyLoop {len room j p : Nat} (h : t.Idle) (hj : j + room ≤ c.outCap) :
    (copyLoop len room j p).Safe c t := by
  induction room generalizing j p t with
  | zero => exact h
  | succ room ih =>
    unfold copyLoop
    split
    · refine fun _ => safe_hexVal fun _ _ => safe_hexVal fun _ => ⟨?_, ih h (by omega)⟩
      simp only [Track.allows, Buf.size]; omega
    · exact h

theorem safe_payloadLength {i n : Nat} {k : Nat → Prog} (hk : ∀ m, (k m).Safe c t) :
    (payloadLength i n k).Safe c t := by
  induction n generalizing i with
  | zero => exact hk _
  | succ n ih =>
    intro b
    dsimp only
    split
    · exact hk _
    · exact ih

theorem safe_joinExchange {mode : JoinMode} (h : t.Idle) : (joinExchange c mode).Safe c t := by
  refine ⟨trivial, safe_sendCmd h fun ok t' h' => ?_⟩
  cases ok
  · exact ⟨trivial, h'⟩
  · refine ⟨trivial, safe_readLine h' fun _ t'' h'' => safe_loadOperand fun line => ?_⟩
    dsimp only
    split
    · exact ⟨trivial, h''⟩
    · exact ⟨trivial, h''⟩

end

/-- Every instruction's pseudocode is in order, from idle ports. -/
theorem safe_program (c : Config) (i : Instr) {t : Track} (h : t.Idle) : (program c i).Safe c t := by
  cases i with
  | busReset =>
    rw [program, busResetProg]
    exact safe_resetSlot h fun _ _ h' => ⟨trivial, h'⟩
  | busWbit => exact fun _ => safe_writeSlot h fun _ h' => h'
  | busRbit => exact safe_readSlot h fun _ _ h' => h'
  | busWbyte => exact fun _ => safe_writeBits h fun _ h' => h'
  | busRbyte => exact safe_readBits h fun _ _ h' => h'
  | crcCheck =>
    rw [program, crcCheckProg]
    exact safe_checkScratch fun _ _ => ⟨trivial, h⟩
  | sensorStart =>
    rw [program, sensorStartProg]
    refine safe_resetSlot h fun b t' h' => ⟨trivial, ?_⟩
    cases b
    · exact h'
    · exact safe_writeBits h' fun _ h'' => safe_writeBits h'' fun _ h3 => h3
  | sensorWait => exact safe_pollLoop h
  | sensorRead =>
    rw [program, sensorReadProg]
    refine safe_resetSlot h fun b t' h' => ⟨trivial, ?_⟩
    cases b
    · exact ⟨trivial, h'⟩
    · refine safe_writeBits h' fun _ h'' => safe_writeBits h'' fun _ h3 =>
        safe_readScratch h3 (Nat.le_refl _) fun _ h4 => safe_checkScratch fun _ ok => ?_
      cases ok
      · exact ⟨trivial, h4⟩
      · exact ⟨trivial, fun _ _ => ⟨trivial, h4⟩⟩
  | lineRead => exact fun _ => safe_readLine h fun _ _ h' => h'
  | radioCmd => exact safe_loadOperand fun _ => safe_sendCmd h fun _ _ h' => h'
  | radioCmdText =>
    exact safe_loadOperand fun _ => safe_loadOperand fun _ => safe_sendCmd h fun _ _ h' => h'
  | radioCmdBin =>
    exact safe_loadOperand fun _ => safe_loadOperand fun _ => safe_sendCmd h fun _ _ h' => h'
  | radioClassify => exact safe_classify h
  | radioJoin mode =>
    refine ⟨trivial, fun _ => safe_loadKeys fun _ => safe_sendAll h fun ok t' h' => ?_⟩
    cases ok
    · exact h'
    · exact safe_joinExchange h'
  | radioSend conf =>
    refine ⟨trivial, fun _ => safe_loadOperand fun _ => safe_sendCmd h fun ok t' h' => ?_⟩
    cases ok
    · exact safe_classify h'
    · exact safe_receiveWindow h'
  | radioRecv =>
    intro off cnt
    dsimp only
    split
    · trivial
    · intro st
      dsimp only
      split
      · refine fun n => safe_payloadLength fun len => ?_
        split
        · exact h
        · exact safe_copyLoop h (by omega)
      · exact h
  | radioConsume => exact ⟨trivial, h⟩
  | radioReset =>
    refine safe_sendLine (safe_readLine h fun _ t' h' => safe_loadOperand fun line =>
      safe_act (by trivial) ?_)
    split
    · exact h'
    · exact safe_sendAll h' fun _ _ h'' => h''
  | radioSleep =>
    intro d
    dsimp only
    split
    · exact h
    · exact safe_sendLine h
  | radioWake =>
    exact ⟨trivial, trivial, trivial, trivial, h.1, rfl⟩
  | skipRom => exact safe_writeBits h fun _ h' => h'
  | startConversion => exact safe_writeBits h fun _ h' => h'
  | readScratchpad => exact safe_writeBits h fun _ h' => h'

end Sys2Proof.Machine
end

