-- ==== Sys2Proof/Laws/Invariant.lean ====
section
/-! SUPPORT. What is known of the ports and the buffers is kept by every line of pseudocode that is in
order, and so by a whole run and by every single primitive. -/
namespace Sys2Proof.Machine

/-- The invariant but for SEQ. -/
structure State.DataOk (s : State) : Prop where
  params : s.params.wf = true
  mem : s.mem.wf
  inside : ∀ b i, b.size s.params ≤ i → s.byte? b i = none
  lineLen : s.lineLen.toNat ≤ s.params.lineCap
  line : s.written .linebuf s.lineLen.toNat
  rxpayLen : s.rxpayLen.toNat ≤ s.params.rxpayCap
  pay : s.written .rxpay s.rxpayLen.toNat
  opaLen : s.opaLen.toNat ≤ s.params.opbufCap
  opbLen : s.opbLen.toNat ≤ s.params.opbufCap

theorem State.inv_iff (s : State) : s.Inv ↔ s.DataOk ∧ s.SeqOk :=
  ⟨fun ⟨a, b, c, d, e, f, g, h, i, j⟩ => ⟨⟨a, b, c, d, e, f, g, h, i⟩, j⟩,
    fun ⟨⟨a, b, c, d, e, f, g, h, i⟩, j⟩ => ⟨a, b, c, d, e, f, g, h, i, j⟩⟩

/-- A written byte stays written. -/
theorem State.written_writeByte {s : State} {b b' : Buf} {i n : Nat} (v : Byte)
    (h : s.written b n) : (s.writeByte b' i v).written b n := by
  intro j hj
  by_cases hs : b = b' ∧ j = i
  · obtain ⟨rfl, rfl⟩ := hs; simp
  · rw [State.byte?_writeByte_other _ _ (by tauto)]; exact h j hj

/-- A write inside a buffer keeps what is known of the data. -/
theorem State.DataOk.writeByte {s : State} {b : Buf} {i : Nat} (v : Byte) (h : s.DataOk)
    (hi : i < b.size s.params) : (s.writeByte b i v).DataOk where
  params := h.params
  mem := Memory.put_wf h.mem _ _
  inside := by
    intro b' i' hb
    rw [State.byte?_writeByte_other]
    · exact h.inside b' i' hb
    · by_cases hbb : b' = b
      · subst hbb
        exact .inr fun he => by subst he; exact absurd hi (Nat.not_lt.mpr hb)
      · exact .inl hbb
  lineLen := h.lineLen
  line := State.written_writeByte v h.line
  rxpayLen := h.rxpayLen
  pay := State.written_writeByte v h.pay
  opaLen := h.opaLen
  opbLen := h.opbLen

/-- A state that differs in none of the data the invariant speaks of. -/
theorem State.DataOk.congr {s t : State} (h : s.DataOk) (hp : t.params = s.params)
    (hm : t.mem = s.mem) (hl : t.lineLen = s.lineLen) (hr : t.rxpayLen = s.rxpayLen)
    (ha : t.opaLen = s.opaLen) (hb : t.opbLen = s.opbLen) : t.DataOk := by
  obtain ⟨a, b, c, d, e, f, g, i, j⟩ := h
  simp only [State.written, State.byte?] at *
  exact ⟨hp ▸ a, hm ▸ b, by simpa only [State.byte?, hp, hm] using c, by rw [hl, hp]; exact d,
    by simpa only [State.written, State.byte?, hm, hl] using e, by rw [hr, hp]; exact f,
    by simpa only [State.written, State.byte?, hm, hr] using g, by rw [ha, hp]; exact i,
    by rw [hb, hp]; exact j⟩

theorem State.Meets.congr {s t : State} {k : Track} (h : s.Meets k) (hm : t.mem = s.mem)
    (hd : t.busDrive = s.busDrive) (ho : t.serialOut = s.serialOut) : t.Meets k := by
  obtain ⟨a, b, c, d⟩ := h
  refine ⟨hd ▸ a, ho ▸ b, ?_, ?_⟩
  · simpa only [State.written, State.byte?, hm] using c
  · simpa only [State.written, State.byte?, hm] using d

@[simp] theorem Act.apply_params (a : Act) (s : State) : (a.apply s).params = s.params := by
  cases a <;> rfl

@[simp] theorem Act.apply_seq (a : Act) (s : State) : (a.apply s).seq = s.seq := by
  cases a <;> rfl

@[simp] theorem Act.apply_inputs (a : Act) (s : State) : (a.apply s).inputs = s.inputs := by
  cases a <;> rfl

theorem State.Meets.writeByte {s : State} {k : Track} {b : Buf} {i : Nat} {v : Byte}
    (h : s.Meets k) : (s.writeByte b i v).Meets (k.after (.store b i v)) := by
  obtain ⟨h1, h2, h3, h4⟩ := h
  have e : ∀ {b : Buf} {n : Nat}, s.written b n → (s.writeByte b n v).written b (n + 1) := by
    intro b n hw j hj
    by_cases hjn : j = n
    · subst hjn; simp
    · exact State.written_writeByte v hw j (by omega)
  have keep : ∀ {n : Nat}, s.written .linebuf n → (s.writeByte b i v).written .linebuf n :=
    fun hw => State.written_writeByte v hw
  have keep' : ∀ {n : Nat}, s.written .rxpay n → (s.writeByte b i v).written .rxpay n :=
    fun hw => State.written_writeByte v hw
  cases b
  case linebuf =>
    simp only [Track.after]
    split
    · next he => subst he; exact ⟨h1, h2, e h3, keep' h4⟩
    · exact ⟨h1, h2, keep h3, keep' h4⟩
  case rxpay =>
    simp only [Track.after]
    split
    · next he => subst he; exact ⟨h1, h2, keep h3, e h4⟩
    · exact ⟨h1, h2, keep h3, keep' h4⟩
  all_goals exact ⟨h1, h2, keep h3, keep' h4⟩

/-- A line of pseudocode that is in order keeps what is known. -/
theorem Act.keeps {a : Act} {s : State} {k : Track} (hs : s.DataOk) (hk : s.Meets k)
    (ha : k.allows s.params a) : (a.apply s).DataOk ∧ (a.apply s).Meets (k.after a) := by
  obtain ⟨h1, h2, h3, h4⟩ := hk
  cases a
  case store b i v => exact ⟨hs.writeByte v ha, State.Meets.writeByte ⟨h1, h2, h3, h4⟩⟩
  case setLineLen n =>
    obtain ⟨hn, hc⟩ := ha
    have hle : (wordOfNat n).toNat ≤ n := by
      simp only [wordOfNat, BitVec.toNat_ofNat]; exact Nat.mod_le _ _
    refine ⟨{ hs with lineLen := ?_, line := ?_ }, ⟨h1, h2, h3, h4⟩⟩
    · exact Nat.le_trans hle hc
    · exact fun i hi => h3 i (Nat.lt_of_lt_of_le hi (Nat.le_trans hle hn))
  case setRxpayLen n =>
    obtain ⟨hn, hc⟩ := ha
    have hle : (wordOfNat n).toNat ≤ n := by
      simp only [wordOfNat, BitVec.toNat_ofNat]; exact Nat.mod_le _ _
    refine ⟨{ hs with rxpayLen := ?_, pay := ?_ }, ⟨h1, h2, h3, h4⟩⟩
    · exact Nat.le_trans hle hc
    · exact fun i hi => h4 i (Nat.lt_of_lt_of_le hi (Nat.le_trans hle hn))
  case busDriveLow => exact ⟨hs.congr rfl rfl rfl rfl rfl rfl, ⟨rfl, h2, h3, h4⟩⟩
  case busRelease => exact ⟨hs.congr rfl rfl rfl rfl rfl rfl, ⟨rfl, h2, h3, h4⟩⟩
  case breakStart => exact ⟨hs.congr rfl rfl rfl rfl rfl rfl, ⟨h1, rfl, h3, h4⟩⟩
  case breakEnd => exact ⟨hs.congr rfl rfl rfl rfl rfl rfl, ⟨h1, rfl, h3, h4⟩⟩
  all_goals exact ⟨hs.congr rfl rfl rfl rfl rfl rfl, ⟨h1, h2, h3, h4⟩⟩

/-- A run of pseudocode that is in order keeps what is known of the data and leaves both ports idle. -/
theorem Prog.run_keeps {p : Prog} {s u : State} {k : Track} {v : Word} (hs : s.DataOk)
    (hk : s.Meets k) (hp : p.Safe s.params k) (h : p.run s = .next (v, u)) :
    u.DataOk ∧ u.params = s.params ∧ u.seq = s.seq ∧ u.busDrive = false ∧ u.serialOut = .mark := by
  induction p generalizing s k with
  | ret w =>
    obtain ⟨rfl, rfl⟩ : w = v ∧ s = u := by simpa [Prog.run] using h
    exact ⟨hs, rfl, rfl, hk.drive.trans hp.1, hk.out.trans hp.2⟩
  | act a p ih =>
    obtain ⟨h1, h2⟩ := Act.keeps hs hk hp.1
    have := ih h1 h2 (by simpa using hp.2) h
    simpa using this
  | sample f ih =>
    exact ih _ (s := s.afterSample) (hs.congr rfl rfl rfl rfl rfl rfl) (hk.congr rfl rfl rfl)
      (hp.2 _) h
  | recv tmo f ih =>
    exact ih _ (s := s.afterRecv tmo) (hs.congr rfl rfl rfl rfl rfl rfl) (hk.congr rfl rfl rfl)
      (hp _) h
  | nibble f ih =>
    exact ih _ (s := s.useFree) (hs.congr rfl rfl rfl rfl rfl rfl) (hk.congr rfl rfl rfl) (hp _) h
  | load b i f ih =>
    simp only [Prog.run] at h
    split at h
    · exact ih _ hs hk (hp _) h
    · simp at h
  | reg r f ih => exact ih _ hs hk (hp _) h
  | refuse r => simp [Prog.run] at h

/-- The position after one more answer. -/
theorem Prog.resume_append (h : List Resp) (r : Resp) (p : Prog) :
    p.resume (h ++ [r]) = (p.resume h).bind fun q => q.resume [r] := by
  induction h generalizing p with
  | nil => simp [Prog.resume]
  | cons x h ih =>
    cases x <;> cases p <;> simp [Prog.resume, ih]

end Sys2Proof.Machine
end

