-- ==== Sys2Proof/Laws/PerInstr.lean ====
section
/-! SUPPORT. Each instruction's encoding has the bits that its row of spec/opcode_table.json fixes, and
the row's word decodes to it. -/
namespace Sys2Proof.Laws.TableRow

/-- A row of spec/opcode_table.json: its width in bits, `match` and `mask`. -/
structure Row where
  nbits : Nat
  bits : Nat
  mask : Nat

/-- The table. -/
def row : Instr → Row
  | .busReset => ⟨32, 0x00000001, 0xFFFFFFFF⟩
  | .busWbit => ⟨32, 0x00000002, 0xFFFFFFFF⟩
  | .busRbit => ⟨32, 0x00000003, 0xFFFFFFFF⟩
  | .busWbyte => ⟨32, 0x00000004, 0xFFFFFFFF⟩
  | .busRbyte => ⟨32, 0x00000005, 0xFFFFFFFF⟩
  | .crcCheck => ⟨32, 0x00000010, 0xFFFFFFFF⟩
  | .sensorStart => ⟨32, 0x00000020, 0xFFFFFFFF⟩
  | .sensorWait => ⟨32, 0x00000021, 0xFFFFFFFF⟩
  | .sensorRead => ⟨32, 0x00000022, 0xFFFFFFFF⟩
  | .lineRead => ⟨32, 0x00000030, 0xFFFFFFFF⟩
  | .radioCmd => ⟨32, 0x00000040, 0xFFFFFFFF⟩
  | .radioCmdText => ⟨32, 0x00000440, 0xFFFFFFFF⟩
  | .radioCmdBin => ⟨32, 0x00000840, 0xFFFFFFFF⟩
  | .radioClassify => ⟨32, 0x00000041, 0xFFFFFFFF⟩
  | .radioJoin _ => ⟨32, 0x00000042, 0xFFFFFDFF⟩
  | .radioSend _ => ⟨32, 0x00000043, 0xFFFFFEFF⟩
  | .radioRecv => ⟨32, 0x00000044, 0xFFFFFFFF⟩
  | .radioConsume => ⟨32, 0x00000045, 0xFFFFFFFF⟩
  | .radioReset => ⟨32, 0x00000046, 0xFFFFFFFF⟩
  | .radioSleep => ⟨32, 0x00000047, 0xFFFFFFFF⟩
  | .radioWake => ⟨32, 0x00000048, 0xFFFFFFFF⟩
  | .skipRom => ⟨8, 0xCC, 0xFF⟩
  | .startConversion => ⟨8, 0x44, 0xFF⟩
  | .readScratchpad => ⟨8, 0xBE, 0xFF⟩

/-- A word's bits. -/
def value : InstrWord → Nat
  | .cmd w => w.toNat
  | .busCmd b => b.toNat

/-- The encoding has the row's fixed bits and no others outside the mask, and decodes, as a word of the
row's width, to the instruction. -/
def Statement (i : Instr) : Prop :=
  value (encode i) &&& (row i).mask = (row i).bits
    ∧ value (encode i) < 2 ^ (row i).nbits
    ∧ decodeTableWord (row i).nbits (value (encode i)) = some i

theorem busReset : Statement .busReset := by unfold Statement; decide +kernel
theorem busWbit : Statement .busWbit := by unfold Statement; decide +kernel
theorem busRbit : Statement .busRbit := by unfold Statement; decide +kernel
theorem busWbyte : Statement .busWbyte := by unfold Statement; decide +kernel
theorem busRbyte : Statement .busRbyte := by unfold Statement; decide +kernel
theorem crcCheck : Statement .crcCheck := by unfold Statement; decide +kernel
theorem sensorStart : Statement .sensorStart := by unfold Statement; decide +kernel
theorem sensorWait : Statement .sensorWait := by unfold Statement; decide +kernel
theorem sensorRead : Statement .sensorRead := by unfold Statement; decide +kernel
theorem lineRead : Statement .lineRead := by unfold Statement; decide +kernel
theorem radioCmd : Statement .radioCmd := by unfold Statement; decide +kernel
theorem radioCmdText : Statement .radioCmdText := by unfold Statement; decide +kernel
theorem radioCmdBin : Statement .radioCmdBin := by unfold Statement; decide +kernel
theorem radioClassify : Statement .radioClassify := by unfold Statement; decide +kernel
theorem radioJoin (mode : JoinMode) : Statement (.radioJoin mode) := by
  cases mode <;> (unfold Statement; decide +kernel)
theorem radioSend (conf : Bool) : Statement (.radioSend conf) := by
  cases conf <;> (unfold Statement; decide +kernel)
theorem radioRecv : Statement .radioRecv := by unfold Statement; decide +kernel
theorem radioConsume : Statement .radioConsume := by unfold Statement; decide +kernel
theorem radioReset : Statement .radioReset := by unfold Statement; decide +kernel
theorem radioSleep : Statement .radioSleep := by unfold Statement; decide +kernel
theorem radioWake : Statement .radioWake := by unfold Statement; decide +kernel
theorem skipRom : Statement .skipRom := by unfold Statement; decide +kernel
theorem startConversion : Statement .startConversion := by unfold Statement; decide +kernel
theorem readScratchpad : Statement .readScratchpad := by unfold Statement; decide +kernel

end Sys2Proof.Laws.TableRow
end

