-- ==== Sys2Proof/Laws/Radio.lean ====
section
/-! SUPPORT. Issue and field updates commute with sending and with reading lines, so that a proof about
a command exchange starts from the state before the issue. -/
namespace Sys2Proof.Machine

section Issue
variable (s : State) (i : Instr)

@[simp] theorem State.afterSend_issue (bs : List Byte) :
    (s.issue i).afterSend bs = (s.afterSend bs).issue i := by
  induction bs generalizing s with
  | nil => rfl
  | cons b bs ih => exact ih (s.uartSend b)

@[simp] theorem State.nextLine_issue (tmo : Nat) : (s.issue i).nextLine tmo = s.nextLine tmo := rfl

@[simp] theorem State.afterLine_issue (r : RawLine) :
    (s.issue i).afterLine r = (s.afterLine r).issue i := rfl

@[simp] theorem State.exchange_issue (text param : List Byte) (tmo : Nat) :
    (s.issue i).exchange text param tmo = (s.exchange text param tmo).issue i := by
  simp [State.exchange]

@[simp] theorem State.reply_issue (text param : List Byte) (tmo : Nat) :
    (s.issue i).reply text param tmo = s.reply text param tmo := by
  simp [State.reply]

@[simp] theorem exchangeAll_issue (l : List (List Byte × List Byte)) :
    exchangeAll l (s.issue i) = ((exchangeAll l s).1, (exchangeAll l s).2.issue i) := by
  induction l generalizing s with
  | nil => rfl
  | cons e l ih =>
    simp only [exchangeAll, State.reply_issue, State.issue_params, State.exchange_issue]
    split
    · exact ih _
    · rfl

end Issue

/-- The keys of a JOIN that are there, each with its command text (R201). -/
theorem run_loadKeys_cons {c : Config} {s : State} {text v : List Byte} {b : Buf}
    (rest : List (List Byte × Buf)) (k : List (List Byte × List Byte) → Prog) (hp : s.params = c)
    (h : s.key? b = some v) :
    (loadKeys c ((text, b) :: rest) k).run s =
      (loadKeys c rest fun steps => k ((text, hexText v) :: steps)).run s := by
  rw [loadKeys, run_loadKey _ hp h]

/-- The capacity bound every line read needs (R10; log 20). -/
theorem lineCap_lt {c : Config} (h : c.capacitiesOk = true) : c.lineCap < 4294967296 := by
  simp only [Config.capacitiesOk, Bool.and_eq_true, decide_eq_true_eq] at h; omega

end Sys2Proof.Machine
end

