-- ==== Sys2Proof/Laws/Sensor.lean ====
section
/-! SUPPORT. Draws of the bus in a row, and what the sensor's pseudocode over them does. -/
namespace Sys2Proof.Machine

theorem Env.dropBus_add (e : Env) (n m : Nat) : (e.dropBus n).dropBus m = e.dropBus (n + m) := by
  induction n generalizing e with
  | zero => simp [Env.dropBus]
  | succ n ih => rw [Nat.add_right_comm]; simp [Env.dropBus, ih]

theorem Env.levels_add (e : Env) (n m : Nat) :
    e.levels (n + m) = e.levels n ++ (e.dropBus n).levels m := by
  induction n generalizing e with
  | zero => simp [Env.dropBus, Env.levels]
  | succ n ih => rw [Nat.add_right_comm]; simp [Env.dropBus, ih, Env.levels]

@[simp] theorem Env.levels_length (e : Env) (n : Nat) : (e.levels n).length = n := by
  induction n generalizing e <;> simp [Env.levels, *]

@[simp] theorem Env.busBytes_length (e : Env) (n : Nat) : (e.busBytes n).length = n := by
  induction n generalizing e <;> simp [Env.busBytes, *]

theorem readSlotsEvents_append (c : Config) (t : Time) (a b : List Bool) :
    readSlotsEvents c t (a ++ b) =
      readSlotsEvents c t a ++ readSlotsEvents c (t + us (a.length * c.tSlot)) b := by
  induction a generalizing t with
  | nil => simp [readSlotsEvents]
  | cons x a ih =>
    simp only [List.cons_append, readSlotsEvents, ih, List.append_assoc, List.length_cons,
      BitVec.add_assoc, us_add]
    rw [show c.tSlot + a.length * c.tSlot = (a.length + 1) * c.tSlot by ring]

/-- The byte of eight slots is its levels' value (R92, R130). -/
theorem byteOfBits_levels (e : Env) :
    byteOfBits (e.levels 8) = BitVec.ofNat 8 (levelsValue (e.levels 8)) := by
  rw [← byteOfBits_toNat _ (by simp)]; simp

/-- `n` bytes read from the bus into SCRATCH from index `j` (R152). -/
theorem run_readScratch (c : Config) (h : SlotsFit c) (s : State) (j n : Nat) (p : Prog) :
    (readScratch c j n p).run s = p.run { s with
      mem := putBytes s.mem .scratch j (s.env.busBytes n)
      busDrive := if n = 0 then s.busDrive else false
      trace := s.trace ++ readSlotsEvents c s.timeUs (s.env.levels (8 * n))
      timeUs := s.timeUs + us (8 * n * c.tSlot)
      env := s.env.dropBus (8 * n) } := by
  induction n generalizing s j with
  | zero => simp [readScratch, putBytes, Env.busBytes, Env.levels, readSlotsEvents, Env.dropBus]
  | succ n ih =>
    rw [readScratch, run_readByte _ _ _ h, Prog.run_act, ih, byteOfBits_levels]
    have e1 : 8 * (n + 1) = 8 + 8 * n := by omega
    simp only [e1, Env.levels_add, readSlotsEvents_append, Env.levels_length, ← Env.dropBus_add,
      Env.busBytes, putBytes]
    simp only [Act.apply, State.afterSlots, State.writeByte, BitVec.add_assoc, us_add,
      List.append_assoc]
    congr 2
    · split <;> rfl
    · rw [show 8 * c.tSlot + 8 * n * c.tSlot = (8 + 8 * n) * c.tSlot by ring]

/-- The CRC comparison on nine bytes that are there (R143, R152). -/
theorem run_checkScratch {s : State} {d : List Byte} {e : Byte} (k : Byte → Bool → Prog)
    (hd : s.bytes? .scratch 0 8 = some d) (he : s.byte? .scratch 8 = some e) :
    (checkScratch k).run s = (k (crc8 d) (crc8 d == e)).run s := by
  rw [checkScratch, run_loadBytes _ (by simp [Buf.size, Config.scratchLen]) hd,
    Prog.run_load _ (by simp [Buf.size, Config.scratchLen]) he]

/-- Nine bytes stored in SCRATCH are there. -/
theorem scratch_putBytes {s : State} {m : Memory} {d : List Byte} {e : Byte} (hd : d.length = 8)
    (hm : s.mem = putBytes m .scratch 0 (d ++ [e])) :
    s.bytes? .scratch 0 8 = some d ∧ ∀ i, i < 9 → s.byte? .scratch i = (d ++ [e])[i]? := by
  have h : ∀ i, i < 9 → s.byte? .scratch i = (d ++ [e])[i]? := by
    intro i hi
    rw [State.byte?, hm, get_putBytes, if_pos (by simp [hd]; omega), Nat.sub_zero]
  refine ⟨State.bytes?_eq_some.mpr ⟨hd, fun k hk => ?_⟩, h⟩
  rw [h _ (by omega)]; simp [List.getElem?_append_left hk]

end Sys2Proof.Machine
end

