-- ==== Sys2Proof/Machine/HostProgram.lean ====
section
/-! DEFINITION. Host programs in the assembler syntax of 30_encoding.md R85 and R86: each line as the
host accesses it stands for. The machine's step does not use this file: it makes lists for
`State.inputs`. -/
namespace Sys2Proof.Machine

/-- A line of a host program (R85), the pseudo-operation of R86 among them. -/
inductive HostLine where
  | busReset
  | busWbit (bit : Bool)
  | busRbit
  | busWbyte (v : Byte)
  | busRbyte
  | crcCheck
  | sensorStart
  | sensorWait
  | sensorRead
  /-- `sensor.measure` -/
  | sensorMeasure
  | lineRead (tmoMs : Word)
  /-- `radio.cmd "text"` -/
  | radioCmd (text : List Byte)
  /-- `radio.cmd "text" text "param"` -/
  | radioCmdText (text param : List Byte)
  /-- `radio.cmd "text" bin bytes` -/
  | radioCmdBin (text bytes : List Byte)
  | radioClassify
  | radioJoin (mode : JoinMode)
  | radioSend (conf : Bool) (port : Byte) (payload : List Byte)
  | radioRecv (offset count : Word)
  | radioConsume
  | radioReset
  | radioSleep (ms : Word)
  | radioWake
  /-- `read STATUS` and the like -/
  | readReg (r : Reg)
  /-- `write CFG` and the like -/
  | writeReg (r : Reg) (v : Word)
  /-- `read LINEBUF[i]` and the like -/
  | readBuf (b : Buf) (i : Nat)
  /-- `write KEY_DEVEUI` and the like, from index 0 -/
  | writeBuf (b : Buf) (bytes : List Byte)
deriving DecidableEq, Repr

/-- The host's write of a register. -/
def writeRegInput (r : Reg) (v : Word) : Input := .writeReg 32 (BitVec.ofNat 8 r.num) v

/-- The host's writes of a byte string to a buffer, from index `i`. -/
def writeBufInputs (b : Buf) : Nat → List Byte → List Input
  | _, [] => []
  | i, v :: vs => .writeBuf 8 (BitVec.ofNat 8 b.id) i v :: writeBufInputs b (i + 1) vs

/-- The host's blocking call of an instruction. -/
def callInput (i : Instr) : Input := requestOf (encode i)

/-- A byte-string operand: the buffer's bytes and then its length register (R85). -/
def operandInputs (b : Buf) (len : Reg) (bytes : List Byte) : List Input :=
  writeBufInputs b 0 bytes ++ [writeRegInput len (wordOfNat bytes.length)]

/-- The host accesses a line stands for, in order: the operand writes, then the CMD write (R85). -/
def HostLine.inputs : HostLine → List Input
  | .busReset => [callInput .busReset]
  | .busWbit bit => [writeRegInput .arg0 (wordOfBool bit), callInput .busWbit]
  | .busRbit => [callInput .busRbit]
  | .busWbyte v => [writeRegInput .arg0 (wordOfByte v), callInput .busWbyte]
  | .busRbyte => [callInput .busRbyte]
  | .crcCheck => [callInput .crcCheck]
  | .sensorStart => [callInput .sensorStart]
  | .sensorWait => [callInput .sensorWait]
  | .sensorRead => [callInput .sensorRead]
  | .sensorMeasure => [callInput .sensorStart, callInput .sensorWait, callInput .sensorRead]
  | .lineRead tmo => [writeRegInput .arg0 tmo, callInput .lineRead]
  | .radioCmd text => operandInputs .opbufA .opaLen text ++ [callInput .radioCmd]
  | .radioCmdText text param =>
    operandInputs .opbufA .opaLen text ++ operandInputs .opbufB .opbLen param
      ++ [callInput .radioCmdText]
  | .radioCmdBin text bytes =>
    operandInputs .opbufA .opaLen text ++ operandInputs .opbufB .opbLen bytes
      ++ [callInput .radioCmdBin]
  | .radioClassify => [callInput .radioClassify]
  | .radioJoin mode => [callInput (.radioJoin mode)]
  | .radioSend conf port payload =>
    operandInputs .opbufB .opbLen payload
      ++ [writeRegInput .arg0 (wordOfByte port), callInput (.radioSend conf)]
  | .radioRecv offset count =>
    [writeRegInput .arg0 offset, writeRegInput .arg1 count, callInput .radioRecv]
  | .radioConsume => [callInput .radioConsume]
  | .radioReset => [callInput .radioReset]
  | .radioSleep ms => [writeRegInput .arg0 ms, callInput .radioSleep]
  | .radioWake => [callInput .radioWake]
  | .readReg r => [.readReg 32 (BitVec.ofNat 8 r.num)]
  | .writeReg r v => [writeRegInput r v]
  | .readBuf b i => [.readBuf 8 (BitVec.ofNat 8 b.id) i]
  | .writeBuf b bytes => writeBufInputs b 0 bytes

/-- A host program's accesses. -/
def hostProgram (lines : List HostLine) : List Input := lines.flatMap HostLine.inputs

end Sys2Proof.Machine
end

