-- ==== Sys2Proof/Tests/Slice0.lean ====
section
/-! SUPPORT. Tests: words written out from the encodings, one small step per instruction with expected
values from the spec's vectors (95_test_vectors.md, named in each comment), and a witness for the
hypotheses of each statement. -/
namespace Sys2Proof.Tests
set_option Elab.async false
open Sys2Proof Sys2Proof.Machine

/-! ## Small states -/

/-- The reset state at time 0. -/
def idle : State := { State.reset with timeUs := 0, timeSub := 0 }

/-- A state whose responder leaves given levels on the line. -/
def onBus (levels : List Bool) (s : State) : State := { s with env := { s.env with bus := levels } }

/-- A state whose radio module sends given draws. -/
def onSerial (draws : List RxDraw) (s : State) : State := { s with env := { s.env with rx := draws } }

/-- A state whose buffer holds given bytes from index 0. -/
def holding (b : Buf) (bs : List Byte) (s : State) : State := { s with mem := putBytes s.mem b 0 bs }

/-- Characters as received at once. -/
def chars (cs : List Char) : List RxDraw := (ascii cs).map fun b => .byte b 0

/-- A received line with CR LF. -/
def lineOf (cs : List Char) : List RxDraw := chars cs ++ [.byte 0x0D 0, .byte 0x0A 0]

/-- The levels of a byte's slots. -/
def slots (b : Byte) : List Bool := (List.range 8).map fun k => b.getLsbD k

/-- The answer is a next state with a property. -/
def ends (o : Host.Outcome State Fault Refusal) (p : State → Bool) : Bool :=
  match o with
  | .next t => p t
  | _ => false

theorem next_of_ends {o : Host.Outcome State Fault Refusal} {p : State → Bool}
    (h : ends o p = true) : ∃ t, o = .next t ∧ p t = true := by
  cases o with
  | next t => exact ⟨t, rfl, h⟩
  | _ => simp [ends] at h

/-- The times at which the line was released. -/
def releases (t : State) : List Nat :=
  t.trace.filterMap fun e => match e with | .busRel u => some u.toNat | _ => none

/-- The bytes sent. -/
def sent (t : State) : List Byte :=
  t.trace.filterMap fun e => match e with | .tx b => some b | _ => none

/-- A line received in parts. -/
def linesOf (ls : List (List Char)) : List RxDraw := ls.flatMap lineOf

/-- The line that was read. -/
def lineText (t : State) : Option (List Byte) := t.string? .linebuf t.lineLen

/-- The payload that was stored. -/
def payloadStored (t : State) : Option (List Byte) := t.string? .rxpay t.rxpayLen

/-- A state in which every instruction is ready to run. -/
def loaded : State :=
  holding .scratch [0x50, 0x05, 0x4B, 0x46, 0x7F, 0xFF, 0x0C, 0x10, 0x1C] <|
  holding .linebuf (ascii ['b', 'u', 's', 'y']) <|
  holding .rxpay (ascii ['0', 'A', '0', 'B', '0', 'C']) <|
  holding .opbufA (ascii ['x']) <|
  holding .opbufB [0x01, 0x02] <|
  holding .keyDeveui [0x00, 0x04, 0xA3, 0x0B, 0x00, 0x1F, 0x2E, 0x3D] <|
  holding .keyAppeui [0x70, 0xB3, 0xD5, 0x7E, 0xD0, 0x00, 0x00, 0x01] <|
  holding .keyAppkey ((List.range 16).map fun n => BitVec.ofNat 8 n) <|
  holding .keyDevaddr [0x26, 0x01, 0x1F, 0x2A] <|
  holding .keyAppskey ((List.range 16).map fun n => BitVec.ofNat 8 (0x10 + n)) <|
  holding .keyNwkskey ((List.range 16).map fun n => BitVec.ofNat 8 (0x20 + n))
  { idle with
    arg1 := 8
    lineLen := 4
    rxpayLen := 6
    rxPending := true
    opaLen := 1
    opbLen := 2 }

/-! ## Well-formedness: one ill-formed term for each check, refused -/

theorem test_wf_legal : CmdFields.wellFormed ⟨0x42, false, true, 0, 0⟩ = true := by decide
theorem test_wf_reservedOp : CmdFields.opKnown ⟨0x49, false, false, 0, 0⟩ = false
    ∧ CmdFields.wellFormed ⟨0x49, false, false, 0, 0⟩ = false := by decide
theorem test_wf_reservedBits : CmdFields.reservedClear ⟨0x01, false, false, 0, 1⟩ = false
    ∧ CmdFields.wellFormed ⟨0x01, false, false, 0, 1⟩ = false := by decide
theorem test_wf_strayConf : CmdFields.confAllowed ⟨0x01, true, false, 0, 0⟩ = false
    ∧ CmdFields.wellFormed ⟨0x01, true, false, 0, 0⟩ = false := by decide
theorem test_wf_strayMode : CmdFields.modeAllowed ⟨0x43, true, true, 0, 0⟩ = false
    ∧ CmdFields.wellFormed ⟨0x43, true, true, 0, 0⟩ = false := by decide
theorem test_wf_strayPkind : CmdFields.pkindAllowed ⟨0x41, false, false, 1, 0⟩ = false
    ∧ CmdFields.wellFormed ⟨0x41, false, false, 1, 0⟩ = false := by decide
theorem test_wf_reservedPkind : CmdFields.pkindLegal ⟨0x40, false, false, 3, 0⟩ = false
    ∧ CmdFields.wellFormed ⟨0x40, false, false, 3, 0⟩ = false := by decide
theorem test_wf_busCmd : busCmdWellFormed 0xCD = false ∧ busCmdWellFormed 0xCC = true := by decide

theorem test_wf_config : Config.reference.wf = true := by decide +kernel
theorem test_wf_timing :
    ({ Config.reference with tRstl := 479 } : Config).wf = false
    ∧ ({ Config.reference with tMsr := 16 } : Config).wf = false
    ∧ ({ Config.reference with tLow0 := 71 } : Config).wf = false := by decide +kernel
theorem test_wf_timeouts : ({ Config.reference with tRxwinMs := 9999 } : Config).wf = false := by
  decide +kernel
theorem test_wf_capacities : ({ Config.reference with rxpayCap := 1 } : Config).wf = false := by
  decide +kernel
theorem test_wf_keys : ({ Config.reference with lenDevaddr := 0 } : Config).wf = false := by
  decide +kernel
theorem test_wf_tokensDistinct :
    ({ Config.reference with lits := { Literals.default with tokTxOk := ascii ['o', 'k'] } } :
      Config).wf = false := by decide +kernel
theorem test_wf_tokensSingle :
    ({ Config.reference with lits := { Literals.default with errBusy := ascii ['b', ' '] } } :
      Config).wf = false := by decide +kernel
theorem test_wf_commandTexts :
    ({ Config.reference with lits := { Literals.default with cmdJoin := [0x0A] } } :
      Config).wf = false := by decide +kernel

/-! ## Decoding: every constructor's word, bit by bit from R80, R82 and R93 -/

theorem test_decode_bus :
    decodeCmd 0b0000_0000_0000_0000_0000_0000_0000_0001 = .ok .busReset
    ∧ decodeCmd 0b0000_0000_0000_0000_0000_0000_0000_0010 = .ok .busWbit
    ∧ decodeCmd 0b0000_0000_0000_0000_0000_0000_0000_0011 = .ok .busRbit
    ∧ decodeCmd 0b0000_0000_0000_0000_0000_0000_0000_0100 = .ok .busWbyte
    ∧ decodeCmd 0b0000_0000_0000_0000_0000_0000_0000_0101 = .ok .busRbyte := by decide +kernel
theorem test_decode_sensor :
    decodeCmd 0b0000_0000_0000_0000_0000_0000_0001_0000 = .ok .crcCheck
    ∧ decodeCmd 0b0000_0000_0000_0000_0000_0000_0010_0000 = .ok .sensorStart
    ∧ decodeCmd 0b0000_0000_0000_0000_0000_0000_0010_0001 = .ok .sensorWait
    ∧ decodeCmd 0b0000_0000_0000_0000_0000_0000_0010_0010 = .ok .sensorRead := by decide +kernel
theorem test_decode_line :
    decodeCmd 0b0000_0000_0000_0000_0000_0000_0011_0000 = .ok .lineRead
    ∧ decodeCmd 0b0000_0000_0000_0000_0000_0000_0100_0000 = .ok .radioCmd
    ∧ decodeCmd 0b0000_0000_0000_0000_0000_0100_0100_0000 = .ok .radioCmdText
    ∧ decodeCmd 0b0000_0000_0000_0000_0000_1000_0100_0000 = .ok .radioCmdBin
    ∧ decodeCmd 0b0000_0000_0000_0000_0000_0000_0100_0001 = .ok .radioClassify := by decide +kernel
theorem test_decode_radio :
    decodeCmd 0b0000_0000_0000_0000_0000_0000_0100_0010 = .ok (.radioJoin .otaa)
    ∧ decodeCmd 0b0000_0000_0000_0000_0000_0010_0100_0010 = .ok (.radioJoin .abp)
    ∧ decodeCmd 0b0000_0000_0000_0000_0000_0000_0100_0011 = .ok (.radioSend false)
    ∧ decodeCmd 0b0000_0000_0000_0000_0000_0001_0100_0011 = .ok (.radioSend true)
    ∧ decodeCmd 0b0000_0000_0000_0000_0000_0000_0100_0100 = .ok .radioRecv
    ∧ decodeCmd 0b0000_0000_0000_0000_0000_0000_0100_0101 = .ok .radioConsume
    ∧ decodeCmd 0b0000_0000_0000_0000_0000_0000_0100_0110 = .ok .radioReset
    ∧ decodeCmd 0b0000_0000_0000_0000_0000_0000_0100_0111 = .ok .radioSleep
    ∧ decodeCmd 0b0000_0000_0000_0000_0000_0000_0100_1000 = .ok .radioWake := by decide +kernel
theorem test_decode_busCmd :
    decodeBusCmd 0b1100_1100 = .ok .skipRom
    ∧ decodeBusCmd 0b0100_0100 = .ok .startConversion
    ∧ decodeBusCmd 0b1011_1110 = .ok .readScratchpad
    ∧ decodeBusCmd 0b1011_1111 = .error .unknownBusCmd := by decide +kernel
/-- V-ENC, the refused words. -/
theorem test_decode_refused :
    decodeCmd 0x00000C40 = .error .reservedPkind
    ∧ decodeCmd 0x00000343 = .error .strayMode
    ∧ decodeCmd 0x00000101 = .error .strayConf
    ∧ decodeCmd 0x00000640 = .error .strayMode
    ∧ decodeCmd 0x00000006 = .error .reservedOp
    ∧ decodeCmd 0x00000000 = .error .reservedOp
    ∧ decodeCmd 0x00001001 = .error .reservedBits
    ∧ decodeCmd 0x80000048 = .error .reservedBits
    ∧ decodeCmd 0x00000049 = .error .reservedOp := by decide +kernel

/-! ## Operand forms and CRC -/

/-- H4, H6, H7, DEC1, DEC3, DEC5 -/
theorem test_text :
    hexText [0x00, 0x0F, 0xA5, 0xFF] = ascii ['0', '0', '0', 'F', 'A', '5', 'F', 'F']
    ∧ hexBytes 2 0 (ascii ['0', 'a', 'F', 'f']) = ([0x0A, 0xFF], 0)
    ∧ decText 0 = ascii ['0'] ∧ decText 223 = ascii ['2', '2', '3']
    ∧ decText 60000 = ascii ['6', '0', '0', '0', '0'] := by decide +kernel
/-- CRC3, CRC7, CRC12 -/
theorem test_crc8 :
    crc8 [0x01] = 0x5E ∧ crc8 (List.replicate 8 0xFF) = 0xC9
    ∧ crc8 (ascii ['1', '2', '3', '4', '5', '6', '7', '8', '9']) = 0xA1 := by decide +kernel
/-- V-TMP -/
theorem test_temperature :
    (rawTemperature 0x05 0x50).toInt = 1360 ∧ (rawTemperature 0xFF 0xF8).toInt = -8
    ∧ (rawTemperature 0x80 0x00).toInt = -32768 := by decide +kernel
/-- T1, T2, T5: the elapsed time at the instant of the timeout. -/
theorem test_elapsed :
    elapsedUs 0 1000 = 1000 ∧ elapsedUs (BitVec.ofNat 64 (2 ^ 64 - 500)) 499 = 999
    ∧ elapsedUs (BitVec.ofNat 64 (2 ^ 64 - 1)) 29999999 = 30000000 := by decide +kernel

/-! ## One step of each instruction -/

/-- BS1 -/
theorem test_busReset_presence :
    ends (exec .busReset (onBus [false] idle)) (fun t =>
      t.trace == [.busLow 0, .busRel 480, .busSmp 535 false] && t.result == 1 && t.presence
        && t.timeUs == 960) = true := by decide +kernel
/-- BS2 -/
theorem test_busReset_absent :
    ends (exec .busReset (onBus [true] idle)) (fun t => t.result == 0 && !t.presence) = true := by
  decide +kernel
/-- BS3 -/
theorem test_busWbit_one :
    ends (exec .busWbit { idle with arg0 := 1 }) (fun t =>
      t.trace == [.busLow 0, .busRel 6] && t.timeUs == 70) = true := by decide +kernel
/-- BS4, V-ENC operand slices -/
theorem test_busWbit_zero :
    ends (exec .busWbit { idle with arg0 := 0xFFFFFFFE }) (fun t =>
      t.trace == [.busLow 0, .busRel 60] && t.timeUs == 70) = true := by decide +kernel
/-- BS5 -/
theorem test_busRbit_one :
    ends (exec .busRbit (onBus [true] idle)) (fun t =>
      t.trace == [.busLow 0, .busRel 6, .busSmp 15 true] && t.result == 1 && t.timeUs == 70)
      = true := by decide +kernel
/-- BS9 with V-ENC operand slices: slot bits 0,0,1,1,0,0,1,1 -/
theorem test_busWbyte_slots :
    ends (exec .busWbyte { idle with arg0 := 0x123456CC }) (fun t =>
      releases t == [60, 130, 146, 216, 340, 410, 426, 496] && t.timeUs == 560) = true := by
  decide +kernel
/-- BS7 -/
theorem test_busRbyte_lsbFirst :
    ends (exec .busRbyte (onBus [false, true, false, true, false, false, false, false] idle))
      (fun t => t.result == 0x0A && t.timeUs == 560) = true := by decide +kernel
/-- CK1 -/
theorem test_crcCheck_match :
    ends (exec .crcCheck loaded) (fun t => t.result == 0x1C && t.crcOk) = true := by decide +kernel
/-- CK3 -/
theorem test_crcCheck_mismatch :
    ends (exec .crcCheck
      (holding .scratch [0x91, 0x01, 0x4B, 0x46, 0x7F, 0xFF, 0x0C, 0x10, 0x71] idle))
      (fun t => t.result == 0x70 && !t.crcOk) = true := by decide +kernel
/-- ST1 -/
theorem test_sensorStart_presence :
    ends (exec .sensorStart (onBus [false] idle)) (fun t =>
      t.trace.length == 35 && t.result == 0 && t.presence && t.timeUs == 2080) = true := by
  decide +kernel
/-- ST2 -/
theorem test_sensorStart_absent :
    ends (exec .sensorStart (onBus [true] idle)) (fun t =>
      t.trace.length == 3 && t.result == 0 && t.timeUs == 960) = true := by decide +kernel
/-- W3 -/
theorem test_sensorWait_timeout :
    ends (exec .sensorWait (onBus (List.replicate 100 false) idle)) (fun t =>
      t.result == 1 && t.timedOut && t.timeUs == 1007000) = true := by decide +kernel
/-- W4 -/
theorem test_sensorWait_last :
    ends (exec .sensorWait (onBus (List.replicate 99 false ++ [true]) idle)) (fun t =>
      t.result == 0 && !t.timedOut && t.timeUs == 997000) = true := by decide +kernel
/-- SR1 -/
theorem test_sensorRead_valid :
    ends (exec .sensorRead (onBus (false ::
      [0x91, 0x01, 0x4B, 0x46, 0x7F, 0xFF, 0x0C, 0x10, 0x70].flatMap slots) idle)) (fun t =>
      t.result == 1 && t.crcOk && t.tempRaw == 0x0191 && t.timeUs == 7120) = true := by
  decide +kernel
/-- SR3 -/
theorem test_sensorRead_mismatch :
    ends (exec .sensorRead (onBus (false ::
      [0x91, 0x01, 0x4B, 0x46, 0x7F, 0xFF, 0x0C, 0x10, 0x71].flatMap slots) idle)) (fun t =>
      t.result == 0 && t.presence && !t.crcOk && t.tempRaw == 0
        && t.byte? .scratch 8 == some 0x71) = true := by decide +kernel
/-- LR4 -/
theorem test_lineRead_cr :
    ends (exec .lineRead (onSerial (lineOf ['a', '\r', 'b']) idle)) (fun t =>
      t.result == 3 && t.lineEnd == .term && lineText t == some [0x61, 0x0D, 0x62]) = true := by
  decide +kernel
/-- LR12: with LINE_CAP 8 the CR LF stays in the stream. -/
theorem test_lineRead_full :
    ends (exec .lineRead (onSerial (lineOf ['1', '2', '3', '4', '5', '6', '7', '8'])
      { idle with params := { Config.reference with lineCap := 8 } })) (fun t =>
      t.result == 8 && t.lineEnd == .full && t.env.rx == [.byte 0x0D 0, .byte 0x0A 0]) = true := by
  decide +kernel
/-- M6 -/
theorem test_radioCmd_trailingSpace :
    ends (exec .radioCmd (onSerial (lineOf ['o', 'k', ' ']) loaded)) (fun t =>
      sent t == ascii ['x', '\r', '\n'] && t.result == 0) = true := by decide +kernel
/-- M1 -/
theorem test_radioCmdText_ok :
    ends (exec .radioCmdText (onSerial (lineOf ['o', 'k']) <|
      holding .opbufA (ascii ['m', 'a', 'c', ' ', 's', 'e', 't', ' ', 'a', 'd', 'r', ' ']) <|
      holding .opbufB (ascii ['o', 'n']) { idle with opaLen := 12, opbLen := 2 })) (fun t =>
      sent t == ascii ['m', 'a', 'c', ' ', 's', 'e', 't', ' ', 'a', 'd', 'r', ' ', 'o', 'n', '\r',
        '\n'] && t.result == 1) = true := by decide +kernel
/-- M3, shortened -/
theorem test_radioCmdBin_hex :
    ends (exec .radioCmdBin (onSerial (lineOf ['i', 'n', 'v']) <|
      holding .opbufA (ascii ['x', ' ']) <|
      holding .opbufB [0x00, 0xA3] { idle with opaLen := 2, opbLen := 2 })) (fun t =>
      sent t == ascii ['x', ' ', '0', '0', 'A', '3', '\r', '\n'] && t.result == 0) = true := by
  decide +kernel
/-- V-CLS -/
theorem test_radioClassify_busy :
    ends (exec .radioClassify loaded) (fun t => t.result == 5) = true := by decide +kernel
theorem test_radioClassify_trailingSpace :
    ends (exec .radioClassify (holding .linebuf (ascii ['b', 'u', 's', 'y', ' '])
      { idle with lineLen := 5 })) (fun t => t.result == 1) = true := by decide +kernel
/-- JN4 -/
theorem test_radioJoin_otaa_noOk :
    ends (exec (.radioJoin .otaa) (onSerial (linesOf [['o', 'k'], ['o', 'k'], ['o', 'k'], ['o', 'k'],
      ['a', 'c', 'c', 'e', 'p', 't', 'e', 'd']]) loaded)) (fun t =>
      t.result == 0 && t.joinState == .notJoined) = true := by decide +kernel
/-- JN6 -/
theorem test_radioJoin_abp_joined :
    ends (exec (.radioJoin .abp) (onSerial (linesOf [['o', 'k'], ['o', 'k'], ['o', 'k'], ['o', 'k'],
      ['o', 'k'], ['a', 'c', 'c', 'e', 'p', 't', 'e', 'd']]) loaded)) (fun t =>
      t.result == 1 && t.joinState == .joined && (sent t).length == 157) = true := by decide +kernel
/-- S4 -/
theorem test_radioSend_downlink :
    ends (exec (.radioSend true) (onSerial
      (linesOf [['o', 'k'], ['r', 'x', ' ', '7', ' ', 'C', 'A', 'F', 'E', '0', '1']])
      (holding .opbufB [0xAB] { idle with arg0 := 7, opbLen := 1 }))) (fun t =>
      sent t == ascii ['m', 'a', 'c', ' ', 't', 'x', ' ', 'c', 'n', 'f', ' ', '7', ' ', 'A', 'B', '\r',
        '\n'] && t.result == 0 && t.rxPending
        && payloadStored t == some (ascii ['C', 'A', 'F', 'E', '0', '1'])) = true := by
  decide +kernel
/-- S1 -/
theorem test_radioSend_rejected :
    ends (exec (.radioSend false) (onSerial
      (linesOf [['i', 'n', 'v', 'a', 'l', 'i', 'd', '_', 'p', 'a', 'r', 'a', 'm'], ['o', 'k']])
      { loaded with arg0 := 1 })) (fun t =>
      t.result == 4 && !t.rxPending && t.env.rx == lineOf ['o', 'k']) = true := by decide +kernel
/-- RV2 -/
theorem test_radioRecv_offset :
    ends (exec .radioRecv { loaded with arg0 := 1 }) (fun t =>
      t.result == 2 && t.bytes? .outbuf 0 2 == some [0x0B, 0x0C]) = true := by decide +kernel
/-- RV17 -/
theorem test_radioRecv_pastEnd :
    ends (exec .radioRecv { loaded with arg0 := 0xFFFFFFFF }) (fun t => t.result == 0) = true := by
  decide +kernel
/-- R219's example -/
theorem test_radioConsume_keepsPayload :
    ends (exec .radioConsume loaded) (fun t =>
      !t.rxPending && payloadStored t == some (ascii ['0', 'A', '0', 'B', '0', 'C'])) = true := by
  decide +kernel
/-- RD3 and RD6 with RD's configuration lists. -/
theorem test_radioReset_bothSubstrings :
    ends (exec .radioReset (onSerial
      (linesOf [['R', 'N', '2', '9', '0', '3', ' ', 'R', 'N', '2', '4', '8', '3'], ['o', 'k']])
      { idle with params := { Config.reference with configA := [(ascii ['c', ' '], ascii ['1'])] } }))
      (fun t => t.result == 1 && t.variant == .variantA) = true := by decide +kernel
theorem test_radioReset_configFails :
    ends (exec .radioReset (onSerial
      (linesOf [['R', 'N', '2', '9', '0', '3'], ['o', 'k'], ['n', 'o']])
      { idle with params := { Config.reference with
          configB := [(ascii ['c', ' '], ascii ['2']), (ascii ['d', ' '], ascii ['3'])] } }))
      (fun t => t.result == 0 && t.variant == .variantB) = true := by decide +kernel
/-- SL2 -/
theorem test_radioSleep_threshold :
    ends (exec .radioSleep { idle with arg0 := 100 }) (fun t => t.result == 0 && t.trace == [])
      = true := by decide +kernel
/-- SL3 -/
theorem test_radioSleep_sent :
    ends (exec .radioSleep { idle with arg0 := 101 }) (fun t =>
      t.result == 1 && sent t == ascii ['s', 'y', 's', ' ', 's', 'l', 'e', 'e', 'p', ' ', '1', '0', '1',
        '\r', '\n']) = true := by decide +kernel
/-- SL5 -/
theorem test_radioWake :
    ends (exec .radioWake idle) (fun t =>
      t.result == 0 && t.trace == [.txBreak 500, .tx 0x55] && t.serialOut == .mark) = true := by
  decide +kernel
/-- BS9, BS10, BS11: the slot bits of the three command bytes. -/
theorem test_skipRom :
    ends (exec .skipRom idle) (fun t => releases t == [60, 130, 146, 216, 340, 410, 426, 496])
      = true := by decide +kernel
theorem test_startConversion :
    ends (exec .startConversion idle) (fun t =>
      releases t == [60, 130, 146, 270, 340, 410, 426, 550]) = true := by decide +kernel
theorem test_readScratchpad :
    ends (exec .readScratchpad idle) (fun t => releases t == [60, 76, 146, 216, 286, 356, 480, 496])
      = true := by decide +kernel

/-! ## The host's accesses and the sequencer -/

/-- X9: a reset while SENSOR_WAIT runs. -/
theorem test_reset_whileBusy :
    ends (step { idle with
      inputs := [.rst]
      seq := .exec .sensorWait [.done]
      busDrive := true
      result := 7 }) (fun t =>
      t.result == 0 && !t.done && !t.busDrive && t.statusWord == 0x000000C0) = true := by
  decide +kernel
/-- X5, X7 -/
theorem test_cfg_reservedBits :
    ends (step { idle with inputs := [.writeReg 32 0x0A 0xFFFFFFFF] }) (fun t =>
      t.readReg .cfg == 1 && t.readReg .cmd == 0) = true := by decide +kernel
/-- P1 step 1: STATUS after SENSOR_START. -/
theorem test_status_afterStart :
    ends (exec .sensorStart (onBus [false] idle)) (fun t => t.statusWord == 0x000000C6) = true := by
  decide +kernel

/-! ## Witnesses: for each statement with hypotheses, a concrete input that meets them all -/

/-- An encoding without an ill-formed bit, and the smallest and largest illegal neighbours. -/
theorem witness_IllegalWordsAreRefused :
    idle.seq = .idle
    ∧ (0x00000048 : Word).toNat % 256 ∈ [0x01, 0x02, 0x03, 0x04, 0x05, 0x10, 0x20, 0x21, 0x22, 0x30,
        0x40, 0x41, 0x42, 0x43, 0x44, 0x45, 0x46, 0x47, 0x48]
    ∧ (0x00000049 : Word).toNat % 256 ∉ [0x01, 0x02, 0x03, 0x04, 0x05, 0x10, 0x20, 0x21, 0x22, 0x30,
        0x40, 0x41, 0x42, 0x43, 0x44, 0x45, 0x46, 0x47, 0x48]
    ∧ (0x00001001 : Word).toNat / 4096 ≠ 0 ∧ (0x00000C40 : Word).toNat / 1024 % 4 = 3 := by
  decide +kernel

theorem witness_HexTextOfBytes : ([0x12, 0x34] : List Byte)[1]? = some 0x34 := by decide

theorem witness_DecimalTextOfNumber : (0x32 : Byte) ∈ decText 223 ∧ decText 0 = [0x30] := by
  decide +kernel

theorem witness_StepRunsTheInstruction :
    ({ idle with inputs := [requestOf (.cmd 0x00000242)] } : State).seq = .idle
    ∧ decode (.cmd 0x00000242) = .ok (.radioJoin .abp)
    ∧ decode (.busCmd 0xBE) = .ok .readScratchpad ∧ idle.inputs = [] := by decide +kernel

theorem witness_FetchedWordRunsNext :
    decodeTableWord 32 0x00000143 = some (.radioSend true)
    ∧ decodeTableWord 8 0xCC = some .skipRom := by decide +kernel

/-- SENSOR_WAIT, and RECEIVE with ARG1 at OUT_CAP (issued) and one above it (refused). -/
theorem witness_CmdWriteIssues :
    decodeCmd 0x00000021 = .ok .sensorWait ∧ idle.seq = .idle
    ∧ decodeCmd 0x00000044 = .ok .radioRecv ∧ ({ loaded with arg1 := 17 } : State).seq = .idle
    ∧ loaded.params.outCap < ({ loaded with arg1 := 17 } : State).arg1.toNat
    ∧ ¬ loaded.params.outCap < ({ loaded with arg1 := 16 } : State).arg1.toNat
    ∧ ({ idle with seq := .exec .sensorWait [] } : State).seq ≠ .idle := by decide +kernel

/-- RX_CONSUME after its one line. -/
theorem witness_OperationEnd_return :
    let s : State := { idle with seq := .exec .radioConsume [.done] }
    s.inputs = [] ∧ s.seq = .exec .radioConsume [.done]
    ∧ (program s.params .radioConsume).resume [.done] = some (.ret 0) := ⟨rfl, rfl, rfl⟩

theorem witness_OperationEnd_exec :
    (∃ t, exec .radioWake idle = .next t) ∧ idle.busDrive = false ∧ idle.serialOut = .mark := by
  obtain ⟨t, h, -⟩ := next_of_ends (p := fun _ => true) (o := exec .radioWake idle) (by decide +kernel)
  exact ⟨⟨t, h⟩, rfl, rfl⟩

theorem witness_SequencerDoesWhatTheCallDoes : Instr.isOperation .sensorRead = true := rfl

theorem witness_SeqLeavesIdleOnlyOnIssue :
    (∃ t, step { idle with inputs := [.writeReg 32 0x00 0x00000020] } = .next t
      ∧ idle.seq = .idle ∧ t.seq ≠ .idle)
    ∧ ∃ t, step { idle with seq := .exec .radioConsume [.done] } = .next t ∧ t.seq = .idle :=
  ⟨⟨_, rfl, rfl, by decide⟩, ⟨_, rfl, rfl⟩⟩

theorem witness_BlockReset : Reg.cfg ≠ .status ∧ Reg.result ≠ .status := by decide

theorem witness_RegisterReads : idle.seq = .idle := rfl

/-- OPBUF_CAP itself is a legal length, the next value is not. -/
theorem witness_RegisterWrites :
    idle.seq = .idle ∧ (16 : Word).toNat ≤ idle.params.opbufCap
    ∧ idle.params.opbufCap < (17 : Word).toNat := by decide +kernel

theorem witness_BufferBytes :
    8 < Buf.size loaded.params .scratch ∧ Buf.linebuf ≠ Buf.scratch
    ∧ idle.byte? .scratch 8 = none ∧ idle.seq = .idle ∧ Buf.size idle.params .scratch ≤ 9 := by
  decide +kernel

/-- A byte of the line, the first byte past it, a byte of a buffer the host may write, and the first byte
of LINEBUF that nothing has written. -/
theorem witness_HostBufferAccess :
    loaded.seq = .idle ∧ 3 < Buf.size loaded.params .linebuf
    ∧ loaded.byte? .linebuf 3 = some 0x79 ∧ ¬ loaded.lineLen.toNat ≤ 3
    ∧ ({ loaded with lineLen := 3 } : State).lineLen.toNat ≤ 3
    ∧ ({ loaded with lineLen := 3 } : State).byte? .linebuf 3 = some 0x79
    ∧ ({ loaded with rxpayLen := 5 } : State).byte? .rxpay 5 = some 0x43
    ∧ loaded.byte? .scratch 8 = some 0x1C
    ∧ 4 < Buf.size loaded.params .linebuf ∧ loaded.byte? .linebuf 4 = none := by decide +kernel

/-- LINEBUF while a line is read (a written byte and an unwritten one), and while BUS_RESET runs (in the
line, past it, unwritten). -/
theorem witness_ReadsWhileBusy :
    let s : State := { loaded with seq := .exec .lineRead [] }
    let r : State := { loaded with seq := .exec .busReset [], lineLen := 3 }
    s.seq = .exec .lineRead [] ∧ opWritesReg .lineRead .lineLen = true
    ∧ opWritesReg .lineRead .arg0 = false
    ∧ opWritesBuf .lineRead .linebuf = true ∧ s.byte? .linebuf 0 = some 0x62
    ∧ s.byte? .linebuf 4 = none ∧ 4 < Buf.size s.params .linebuf
    ∧ opWritesBuf .lineRead .scratch = false ∧ s.byte? .scratch 8 = some 0x1C
    ∧ r.seq = .exec .busReset [] ∧ opWritesBuf .busReset .linebuf = false
    ∧ r.byte? .linebuf 2 = some 0x73 ∧ r.byte? .linebuf 3 = some 0x79 ∧ r.lineLen.toNat ≤ 3
    ∧ r.byte? .linebuf 4 = none
    ∧ opWritesReg .sensorRead .tempRaw = true
    ∧ (∃ t, serve (.readReg 32 0x05) { loaded with seq := .exec .sensorRead [] } = .next t) := by
  refine ⟨?_, ?_, ?_, ?_, ?_, ?_, ?_, ?_, ?_, ?_, ?_, ?_, ?_, ?_, ?_, ?_, ⟨_, rfl⟩⟩ <;> decide +kernel

/-- A request on each side of the boundary of each condition of R246, in its order. For condition 7 the
write of CMD and the blocking call are refused one above OUT_CAP and not at OUT_CAP. -/
theorem witness_RefusedExactly_conditions :
    let above : State := { loaded with arg1 := 17 }
    let busy : State := { idle with seq := .exec .sensorWait [] }
    serve (.writeReg 32 0x00 0x49) idle = .refused (.reservedEncoding (.cmd 0x49))
    ∧ (∃ t, serve (.writeReg 32 0x00 0x48) idle = .next t)
    ∧ serve (.writeReg 32 0x02 0) busy = .refused .writeWhileBusy
    ∧ (∃ t, serve (.writeReg 32 0x02 0) idle = .next t)
    ∧ serve (.readBuf 8 13 0) loaded = .refused (.noSuchBuffer 13)
    ∧ (∃ t, serve (.readBuf 8 12 0) loaded = .next t)
    ∧ serve (.writeReg 32 0x07 0) idle = .refused (.readOnlyRegister .rxpayLen)
    ∧ serve (.writeBuf 8 4 0 0) idle = .refused (.readOnlyBuffer .outbuf)
    ∧ serve (.readReg 8 0x04) idle = .refused (.wrongWidth 8)
    ∧ serve (.writeReg 32 0x08 17) idle = .refused (.lengthAboveCapacity 17)
    ∧ (∃ t, serve (.writeReg 32 0x08 16) idle = .next t)
    ∧ serve (.call 0x44) above = .refused (.countAboveOutCap 17)
    ∧ (∃ t, serve (.call 0x44) { above with arg1 := 16 } = .next t)
    ∧ serve (.writeReg 32 0x00 0x44) above = .refused (.countAboveOutCap 17)
    ∧ (∃ t, serve (.writeReg 32 0x00 0x44) { above with arg1 := 16 } = .next t)
    ∧ serve (.busCmd 0xCD) idle = .refused (.reservedEncoding (.busCmd 0xCD)) := by
  obtain ⟨t, h, -⟩ := next_of_ends (p := fun _ => true)
    (o := serve (.call 0x44) { loaded with arg1 := 16 }) (by decide +kernel)
  exact ⟨rfl, ⟨_, rfl⟩, rfl, ⟨_, rfl⟩, rfl, ⟨_, rfl⟩, rfl, rfl, rfl, rfl, ⟨_, rfl⟩, rfl, ⟨t, h⟩,
    rfl, ⟨_, rfl⟩, rfl⟩

/-- The first reserved register number is refused, the last real one is not; and so for a buffer. -/
theorem witness_RefusedExactly :
    serve (.readReg 32 0x0B) idle = .refused (.noSuchRegister 0x0B)
    ∧ (∃ t, serve (.readReg 32 0x0A) idle = .next t)
    ∧ serve (.writeBuf 8 1 9 0) idle = .refused (.indexOutOfRange .scratch 9)
    ∧ (∃ t, serve (.writeBuf 8 1 8 0) idle = .next t)
    ∧ Input.readReg 32 0x0B ≠ .quiet := ⟨rfl, ⟨_, rfl⟩, rfl, ⟨_, rfl⟩, by decide⟩

/-- For BusResetEffect, BusWriteBitEffect, BusReadBitEffect, BusWriteByteEffect, BusReadByteEffect,
SensorCommandBytesEffect and SensorStartEffect: the default slot times meet R10. -/
theorem witness_timingOk : idle.params.timingOk = true := by decide +kernel

theorem witness_CrcProperties : ([1, 2, 3, 4, 5, 6, 7, 8] : List Byte).length = 8 ∧ 8 < 9 ∧ 7 < 8 := by
  decide

theorem witness_CrcCheckEffect :
    loaded.bytes? .scratch 0 8 = some [0x50, 0x05, 0x4B, 0x46, 0x7F, 0xFF, 0x0C, 0x10]
    ∧ loaded.byte? .scratch 8 = some 0x1C ∧ idle.bytes? .scratch 0 9 = none := by decide +kernel

/-- The first poll, the last poll, and none. -/
theorem witness_SensorWaitEffect :
    idle.params.timingOk = true
    ∧ (onBus [true] idle).env.levels (0 + 1) = List.replicate 0 false ++ [true]
    ∧ (onBus (List.replicate 99 false ++ [true]) idle).env.levels (99 + 1)
        = List.replicate 99 false ++ [true]
    ∧ (onBus (List.replicate 100 false) idle).env.levels 100 = List.replicate 100 false := by
  decide +kernel

theorem witness_SensorReadEffect :
    let d : List Byte := [0x91, 0x01, 0x4B, 0x46, 0x7F, 0xFF, 0x0C, 0x10]
    let s := onBus (false :: (d ++ [0x70]).flatMap slots) idle
    (onBus [true] idle).env.busLevel = true
    ∧ s.params.timingOk = true ∧ s.env.busLevel = false
    ∧ s.env.afterBus.busBytes 9 = d ++ [0x70] ∧ d[0]? = some 0x91 ∧ d[1]? = some 0x01 := by
  decide +kernel

theorem witness_TemperatureDecode :
    ({ idle with result := 1, tempRaw := 0xFFF8 } : State).result = 1 ∧ idle.result = 0
    ∧ (127 : Byte).toNat < 128 ∧ ¬ (128 : Byte).toNat < 128 := by decide +kernel

theorem witness_TemperatureIsCrcGated :
    ∃ t, exec .sensorRead (onBus (false ::
        [0x91, 0x01, 0x4B, 0x46, 0x7F, 0xFF, 0x0C, 0x10, 0x70].flatMap slots) idle) = .next t
      ∧ (t.tempRaw ≠ idle.tempRaw ∧ t.result = 1) := by
  obtain ⟨t, h, p⟩ := next_of_ends (p := fun t => decide (t.tempRaw ≠ idle.tempRaw ∧ t.result = 1))
    (o := exec .sensorRead (onBus (false ::
      [0x91, 0x01, 0x4B, 0x46, 0x7F, 0xFF, 0x0C, 0x10, 0x70].flatMap slots) idle)) (by decide +kernel)
  exact ⟨t, h, of_decide_eq_true p⟩

theorem witness_StuckLowBus :
    let s : State := { idle with env := { idle.env with bus := [], busRest := false } }
    s.params.timingOk = true ∧ s.env.bus = [] ∧ s.env.busRest = false := by decide +kernel

theorem witness_TimeoutBoundary :
    2 ^ 64 - 1 < 2 ^ 64 ∧ 2 ^ 32 - 1 < 2 ^ 32 ∧ idle.env.rxDraw = .timeout
    ∧ (onSerial (chars ['a']) idle).env.rxDraw = .byte 0x61 0 := by decide +kernel

/-- V-LR: LR1, LR2, LR9 and LR6. -/
theorem witness_LineReadCases :
    let ok : List Byte := [0x6F, 0x6B]
    let s8 : State := { idle with params := { Config.reference with lineCap := 2 } }
    idle.params.lineCap < 2 ^ 32 ∧ 0x0A ∉ ok ∧ (chars ['o', 'k']).map RxDraw.byte? = ok.map some
    ∧ ok.length + 1 < idle.params.lineCap
    ∧ (onSerial (lineOf ['o', 'k']) idle).env.rx
        = chars ['o', 'k'] ++ .byte 0x0D 0 :: .byte 0x0A 0 :: []
    ∧ ([] : List Byte).getLast? ≠ some 0x0D
    ∧ (onSerial [.byte 0x0A 0] idle).env.rx = [] ++ .byte 0x0A 0 :: []
    ∧ ok.length = s8.params.lineCap
    ∧ (onSerial (chars ['o', 'k', '9']) s8).env.rx = chars ['o', 'k'] ++ chars ['9']
    ∧ (onSerial (chars ['o', 'k'] ++ [.timeout]) idle).env.rx
        = chars ['o', 'k'] ++ .timeout :: [] := by decide +kernel

theorem witness_SendCommandEffect :
    loaded.params.capacitiesOk = true ∧ loaded.string? .opbufA loaded.opaLen = some [0x78]
    ∧ loaded.string? .opbufB loaded.opbLen = some [0x01, 0x02] := by decide +kernel

theorem witness_ClassifyEffect :
    loaded.params.lits.tokensDistinct = true ∧ loaded.params.lits.tokensSingle = true
    ∧ loaded.string? .linebuf loaded.lineLen = some loaded.params.lits.errBusy
    ∧ idle.string? .linebuf idle.lineLen = some [] := by decide +kernel

theorem witness_JoinEffect :
    loaded.params.capacitiesOk = true
    ∧ loaded.key? .keyDeveui = some [0x00, 0x04, 0xA3, 0x0B, 0x00, 0x1F, 0x2E, 0x3D]
    ∧ (loaded.key? .keyAppeui).isSome ∧ (loaded.key? .keyAppkey).isSome
    ∧ loaded.key? .keyDevaddr = some [0x26, 0x01, 0x1F, 0x2A]
    ∧ (loaded.key? .keyAppskey).isSome ∧ (loaded.key? .keyNwkskey).isSome := by decide +kernel

theorem witness_JoinStateTellsTheResult : ∃ t, exec (.radioJoin .otaa) loaded = .next t := by
  obtain ⟨t, h, -⟩ := next_of_ends (p := fun _ => true) (o := exec (.radioJoin .otaa) loaded)
    (by decide +kernel)
  exact ⟨t, h⟩

/-- The reply to the transmit command, and the lines of the receive window: none, TOK_TX_OK, one space,
two spaces, and a single token. -/
theorem witness_SendEffect :
    let text := ascii ['m', 'a', 'c', ' ', 't', 'x', ' ', 'u', 'n', 'c', 'n', 'f', ' ', '0', ' ']
    let from_ := fun ls => onSerial (linesOf ls) { loaded with rxPending := false }
    let reply := fun s : State => s.reply text (hexText [0x01, 0x02]) s.params.tCmdMs
    let window := fun s : State =>
      ((s.exchange text (hexText [0x01, 0x02]) s.params.tCmdMs).nextLine s.params.tRxwinMs).line
    loaded.params.capacitiesOk = true ∧ loaded.string? .opbufB loaded.opbLen = some [0x01, 0x02]
    ∧ reply (from_ [['b', 'u', 's', 'y']]) ≠ loaded.params.lits.tokOk
    ∧ reply (from_ [['o', 'k'], []]) = loaded.params.lits.tokOk
    ∧ window (from_ [['o', 'k'], []]) = []
    ∧ window (from_ [['o', 'k'], ['m', 'a', 'c', '_', 't', 'x', '_', 'o', 'k']])
        = loaded.params.lits.tokTxOk
    ∧ window (from_ [['o', 'k'], ['r', 'x', ' ', '3']]) = [0x72, 0x78] ++ 0x20 :: [0x33]
    ∧ window (from_ [['o', 'k'], ['r', 'x', ' ', '3', ' ', 'A', ' ']])
        = [0x72, 0x78] ++ 0x20 :: [0x33] ++ 0x20 :: [0x41, 0x20]
    ∧ (0x20 : Byte) ∉ ([0x72, 0x78] : List Byte) ∧ (0x20 : Byte) ∉ ([0x33] : List Byte)
    ∧ (0x20 : Byte) ∉ window (from_ [['o', 'k'], ['z']])
    ∧ window (from_ [['o', 'k'], ['z']]) ≠ [] := by decide +kernel

/-- OUT_CAP itself is a legal count, the next value is not. -/
theorem witness_ReceiveEffect :
    ({ loaded with arg1 := 16 } : State).arg1.toNat ≤ loaded.params.outCap
    ∧ loaded.params.outCap < ({ loaded with arg1 := 17 } : State).arg1.toNat
    ∧ idle.rxPending = false ∧ loaded.rxPending = true
    ∧ loaded.string? .rxpay loaded.rxpayLen = some (ascii ['0', 'A', '0', 'B', '0', 'C']) := by
  decide +kernel

theorem witness_ReceiveCount :
    loaded.arg1.toNat ≤ loaded.params.outCap ∧ loaded.rxPending = true
    ∧ (loaded.string? .rxpay loaded.rxpayLen).isSome := by decide +kernel

theorem witness_ConsumeEffect : loaded.arg1.toNat ≤ loaded.params.outCap := by decide +kernel

/-- Identity lines that name variant A, variant B and neither. -/
theorem witness_ResetDeviceEffect :
    let a := onSerial (linesOf [['R', 'N', '2', '4', '8', '3', ' ', '1']]) idle
    let b := onSerial (linesOf [['R', 'N', '2', '9', '0', '3']]) idle
    let l := idle.params.lits
    let reply := fun s : State => s.reply l.cmdSysReset [] s.params.tResetMs
    idle.params.capacitiesOk = true ∧ l.idSubstrA <:+: reply a
    ∧ ¬ l.idSubstrA <:+: reply b ∧ l.idSubstrB <:+: reply b
    ∧ ¬ l.idSubstrA <:+: reply idle ∧ ¬ l.idSubstrB <:+: reply idle := by decide +kernel

/-- SLEEP_MIN_MS itself, and the next value. -/
theorem witness_SleepEffect :
    ({ idle with arg0 := 100 } : State).arg0.toNat ≤ idle.params.sleepMinMs
    ∧ idle.params.sleepMinMs < ({ idle with arg0 := 101 } : State).arg0.toNat := by decide +kernel

theorem witness_InstructionFrame :
    ∃ t, exec .radioRecv loaded = .next t ∧ Reg.arg0 ≠ .status ∧ opWritesReg .radioRecv .arg0 = false
      ∧ opWritesField .radioRecv .rxPending = false ∧ ¬ mayStore .radioRecv t .scratch 0
      ∧ ¬ mayStore .radioRecv t .outbuf 3 := by
  obtain ⟨t, h, p⟩ := next_of_ends (p := fun t => decide (t.result.toNat = 3))
    (o := exec .radioRecv loaded) (by decide +kernel)
  exact ⟨t, h, by decide, by decide, by decide, by simp [mayStore],
    by simp [mayStore, of_decide_eq_true p]⟩

theorem witness_OneInterfaceEach :
    (∃ t, exec .busReset idle = .next t) ∧ ∃ t, exec .radioWake idle = .next t := by
  obtain ⟨t, h, -⟩ := next_of_ends (p := fun _ => true) (o := exec .busReset idle) (by decide +kernel)
  obtain ⟨u, g, -⟩ := next_of_ends (p := fun _ => true) (o := exec .radioWake idle) (by decide +kernel)
  exact ⟨⟨t, h⟩, ⟨u, g⟩⟩

/-- Every instruction is ready in `loaded`, whose parameters meet R10. -/
theorem witness_EveryInstructionCompletes : loaded.params.wf = true ∧ ∀ i, loaded.ready i := by
  refine ⟨by decide +kernel, fun i => ?_⟩
  cases i with
  | radioJoin mode => cases mode <;> (unfold State.ready; decide +kernel)
  | radioSend conf => cases conf <;> (unfold State.ready; decide +kernel)
  | radioRecv =>
    exact ⟨by decide +kernel, fun _ => by decide +kernel⟩
  | _ => unfold State.ready; decide +kernel

theorem witness_TraceIsAppendOnly :
    ∃ t, step { idle with seq := .exec .busReset [] } = .next t
      ∧ ∀ rest, ({ idle with seq := .exec .busReset [] } : State).inputs ≠ .rst :: rest :=
  ⟨_, rfl, fun _ => by simp [idle, State.reset]⟩

/-- A step of JOIN, of RESET_DEVICE and of SENSOR_READ that changes its field. -/
theorem witness_WhoWritesTheStatusMachines :
    (∃ t, step { idle with seq := .exec (.radioJoin .otaa) [], joinState := .joined } = .next t
      ∧ t.joinState ≠ .joined)
    ∧ (∃ t, step { onSerial (lineOf ['R', 'N', '2', '4', '8', '3']) idle with
          inputs := [.call 0x00000046] } = .next t ∧ t.variant ≠ idle.variant)
    ∧ ∃ t, step { onBus (false ::
          [0x91, 0x01, 0x4B, 0x46, 0x7F, 0xFF, 0x0C, 0x10, 0x70].flatMap slots) idle with
          inputs := [.call 0x00000022] } = .next t ∧ t.tempRaw ≠ idle.tempRaw := by
  refine ⟨⟨_, rfl, by decide⟩, ?_, ?_⟩
  · obtain ⟨t, h, p⟩ := next_of_ends (p := fun t => decide (t.variant ≠ idle.variant))
      (o := step { onSerial (lineOf ['R', 'N', '2', '4', '8', '3']) idle with
        inputs := [.call 0x00000046] }) (by decide +kernel)
    exact ⟨t, h, of_decide_eq_true p⟩
  · obtain ⟨t, h, p⟩ := next_of_ends (p := fun t => decide (t.tempRaw ≠ idle.tempRaw))
      (o := step { onBus (false ::
        [0x91, 0x01, 0x4B, 0x46, 0x7F, 0xFF, 0x0C, 0x10, 0x70].flatMap slots) idle with
        inputs := [.call 0x00000022] }) (by decide +kernel)
    exact ⟨t, h, of_decide_eq_true p⟩

/-- BUS_RESET at its sample: the line has been released. -/
def atSample : State := { idle with seq := .exec .busReset [.done, .done, .done, .done] }

theorem atSample_inv : atSample.Inv where
  params := by decide +kernel
  mem := by decide
  inside _ _ _ := rfl
  lineLen := by decide
  line _ h := absurd h (Nat.not_lt_zero _)
  rxpayLen := by decide
  pay _ h := absurd h (Nat.not_lt_zero _)
  opaLen := by decide
  opbLen := by decide
  seq := ⟨rfl, _, ⟨false, .mark, 0, 0⟩, rfl,
    ⟨rfl, rfl, fun _ h => absurd h (Nat.not_lt_zero _), fun _ h => absurd h (Nat.not_lt_zero _)⟩,
    rfl, fun _ => ⟨trivial, trivial, rfl, rfl⟩⟩

theorem witness_StepKeepsTheInvariant : atSample.Inv ∧ ∃ t, step atSample = .next t :=
  ⟨atSample_inv, _, rfl⟩

theorem witness_SamplesAreTakenReleased :
    atSample.Inv ∧ atSample.inputs = []
    ∧ (∃ t, step atSample = .next t ∧ t.trace = atSample.trace ++ [.busSmp 0 true])
    ∧ ({ idle with busDrive := true } : State).busDrive = true :=
  ⟨atSample_inv, rfl, ⟨_, rfl, rfl⟩, rfl⟩

/-- A register, and the first byte past the line. -/
theorem witness_IdleReadsAreIdempotent :
    let s : State := { loaded with lineLen := 3 }
    s.seq = .idle ∧ (∃ t, serve (.readReg 32 0x04) s = .next t) ∧ s.lineLen.toNat ≤ 3
      ∧ ∃ t, serve (.readBuf 8 2 3) s = .next t := ⟨rfl, ⟨_, rfl⟩, by decide, _, rfl⟩

theorem witness_IdleTimePasses :
    idle.seq = .idle ∧ idle.inputs = []
    ∧ ({ idle with inputs := [.quiet] } : State).inputs = .quiet :: [] := ⟨rfl, rfl, rfl⟩

end Sys2Proof.Tests
end

/-! The machine's step, said once for the statements about the state (10_state.md): which request a step
serves, and what serving a request that is answered may have done. -/
namespace Sys2Proof.Machine

/-! ## Decoding: which words are operations -/

theorem rejectStray_ok {conf mode pkind : Bool} {i j : Instr}
    (h : rejectStray conf mode pkind i = .ok j) : j = i := by
  cases conf <;> cases mode <;> cases pkind <;> simp_all [rejectStray]

/-- Only operations have CMD words (R82). -/
theorem isOperation_of_decodeCmd {w : Word} {i : Instr} (h : decodeCmd w = .ok i) :
    i.isOperation = true := by
  unfold decodeCmd decodeFields at h
  split at h
  · cases h
  · unfold decodeOp at h
    split at h
    case h_11 =>
      split at h
      case h_4 => cases h
      all_goals rw [rejectStray_ok h]; rfl
    case h_20 => cases h
    all_goals rw [rejectStray_ok h]; rfl

/-- A sensor command byte is no operation (R93, log 4). -/
theorem isOperation_of_decodeBusCmd {b : Byte} {i : Instr} (h : decodeBusCmd b = .ok i) :
    i.isOperation = false := by
  unfold decodeBusCmd at h
  split at h <;> cases h <;> rfl

/-! ## The request a step serves (log 1) -/

/-- What the outside does next; quiet time where it does nothing more. -/
def State.request (s : State) : Input := s.inputs.headD .quiet

/-- The state once its request has been taken from the list. -/
@[simps] def State.taken (s : State) : State := { s with inputs := s.inputs.tail }

theorem State.request_nil {s : State} (h : s.inputs = []) : s.request = .quiet := by
  simp [State.request, h]

theorem State.taken_nil {s : State} (h : s.inputs = []) : s.taken = s := by
  cases s; simp_all [State.taken]

theorem State.request_cons {s : State} {x : Input} {rest : List Input} (h : s.inputs = x :: rest) :
    s.request = x := by
  simp [State.request, h]

theorem State.taken_cons {s : State} {x : Input} {rest : List Input} (h : s.inputs = x :: rest) :
    s.taken = { s with inputs := rest } := by
  simp [State.taken, h]

/-- One step serves the request; with none left, the block is left to itself (log 1). -/
theorem step_eq_serve (s : State) : step s = serve s.request s.taken := by
  cases h : s.inputs with
  | nil => rw [State.request_nil h, State.taken_nil h, step, serveNext, h]; rfl
  | cons x rest => rw [State.request_cons h, State.taken_cons h, step, serveNext, h]

theorem State.inputs_eq_cons {s : State} {x : Input} (h : s.request = x) (hx : x ≠ .quiet) :
    s.inputs = x :: s.inputs.tail := by
  unfold State.request at h
  cases hi : s.inputs with
  | nil => simp [hi] at h; exact absurd h.symm hx
  | cons y rest => simpa [hi] using h

/-! ## The outcome of each request -/

/-- The block left to itself: an idle microsecond, or one primitive of the running operation. -/
theorem seqStep_next {s t : State} (h : seqStep s = .next t) :
    (s.seq = .idle ∧ t = s.elapse)
      ∨ ∃ i ph p, s.seq = .exec i ph ∧ (program s.params i).resume ph = some p
        ∧ p.stepOnce i ph s = .next t := by
  unfold seqStep at h
  split at h
  · next hs => exact .inl ⟨hs, by simpa using h.symm⟩
  · next i ph hs =>
    split at h
    · next p hp => exact .inr ⟨i, ph, p, hs, hp, h⟩
    · cases h

theorem runWord_next {s t : State} {iw : InstrWord} (h : runWord s iw = .next t) :
    s.seq = .idle ∧ ∃ i, decode iw = .ok i ∧ exec i s = .next t := by
  unfold runWord at h
  split at h
  · cases h
  · next hb =>
    refine ⟨s.busy_eq_false.mp (by simpa using hb), ?_⟩
    split at h
    · next i hi => exact ⟨i, hi, h⟩
    · cases h

theorem hostSetLength_next {s u t : State} {v : Word} (h : hostSetLength s u v = .next t) :
    v.toNat ≤ s.params.opbufCap ∧ t = u := by
  unfold hostSetLength at h
  split at h
  · cases h
  · next hv => exact ⟨Nat.not_lt.mp hv, by simpa using h.symm⟩

theorem hostWriteBuf_next {s t : State} {width : Nat} {space : Byte} {i : Nat} {v : Byte}
    (h : hostWriteBuf s width space i v = .next t) :
    s.seq = .idle ∧ ∃ b : Buf, i < b.size s.params ∧ t = s.writeByte b i v := by
  unfold hostWriteBuf at h
  split at h
  · cases h
  · next hb =>
    refine ⟨s.busy_eq_false.mp (by simpa using hb), ?_⟩
    split at h
    · cases h
    · split at h
      · cases h
      · next b _ =>
        split at h
        · cases h
        · next hi =>
          split at h
          · exact ⟨b, Nat.not_le.mp hi, by simpa using h.symm⟩
          · cases h

theorem Reg.num_of_ofNum {n : Nat} {r : Reg} (h : Reg.ofNum n = some r) : r.num = n := by
  simpa using List.find?_some h

/-- What serving a request that is answered has done. -/
inductive Served (s : State) : Input → State → Prop where
  /-- the block went on by itself -/
  | alone {t : State} (h : seqStep s = .next t) : Served s .quiet t
  /-- RST -/
  | reset : Served s .rst s.blockReset
  /-- an idle block ran an instruction from start to end -/
  | run {iw : InstrWord} {i : Instr} {t : State} (hs : s.seq = .idle) (hd : decode iw = .ok i)
      (h : exec i s = .next t) : Served s (requestOf iw) t
  /-- a host read answered, of a current or of a free value -/
  | read {x : Input} {u : State} (v : Word) (hu : u = s ∨ u = s.useFree) : Served s x (u.answer v)
  /-- an idle block issued the operation of a word written to CMD -/
  | issue {w : Word} {i : Instr} (hs : s.seq = .idle) (hd : decodeCmd w = .ok i) :
      Served s (.writeReg 32 0x00 w) (s.issue i)
  /-- the host wrote an operand register of an idle block, a length within OPBUF_CAP (R36) -/
  | operand {x : Input} (hs : s.seq = .idle) (a0 a1 la lb : Word) (adr : Bool)
      (ha : la = s.opaLen ∨ la.toNat ≤ s.params.opbufCap)
      (hb : lb = s.opbLen ∨ lb.toNat ≤ s.params.opbufCap) :
      Served s x { s with arg0 := a0, arg1 := a1, opaLen := la, opbLen := lb, adr := adr }
  /-- the host wrote a buffer byte of an idle block -/
  | store {x : Input} (hs : s.seq = .idle) (b : Buf) (i : Nat) (v : Byte)
      (hi : i < b.size s.params) : Served s x (s.writeByte b i v)

theorem hostWriteReg_served {s t : State} {width : Nat} {num : Byte} {v : Word}
    (h : hostWriteReg s width num v = .next t) : Served s (.writeReg width num v) t := by
  unfold hostWriteReg at h
  split at h
  · cases h
  · next hb =>
    have hs : s.seq = .idle := s.busy_eq_false.mp (by simpa using hb)
    split at h
    · cases h
    · next hw =>
      obtain rfl : width = 32 := by simpa using hw
      split at h
      case h_2 hr =>
        obtain rfl : num = 0x00 := BitVec.eq_of_toNat_eq (Reg.num_of_ofNum hr).symm
        obtain ⟨i, hi, -, rfl⟩ := hostIssue_next h
        exact .issue hs hi
      case h_3 => cases h; exact .operand hs v _ _ _ _ (.inl rfl) (.inl rfl)
      case h_4 => cases h; exact .operand hs _ v _ _ _ (.inl rfl) (.inl rfl)
      case h_5 =>
        obtain ⟨hv, rfl⟩ := hostSetLength_next h
        exact .operand hs _ _ v _ _ (.inr hv) (.inl rfl)
      case h_6 =>
        obtain ⟨hv, rfl⟩ := hostSetLength_next h
        exact .operand hs _ _ _ v _ (.inl rfl) (.inr hv)
      case h_7 => cases h; exact .operand hs _ _ _ _ _ (.inl rfl) (.inl rfl)
      all_goals cases h

/-- Whatever request is answered, its outcome is one of these. -/
theorem served_of_serve {x : Input} {s t : State} (h : serve x s = .next t) : Served s x t := by
  cases x with
  | quiet => exact .alone h
  | rst => cases h; exact .reset
  | call w =>
    obtain ⟨hs, i, hd, he⟩ := runWord_next h
    exact .run (iw := .cmd w) hs hd he
  | busCmd b =>
    obtain ⟨hs, i, hd, he⟩ := runWord_next h
    exact .run (iw := .busCmd b) hs hd he
  | readReg width num =>
    obtain ⟨r, -, -, ⟨-, rfl⟩ | ⟨-, rfl⟩⟩ := hostReadReg_next h
    · exact .read _ (.inr rfl)
    · exact .read _ (.inl rfl)
  | writeReg width num v => exact hostWriteReg_served h
  | readBuf width space i =>
    obtain ⟨b, -, -, -, ⟨-, rfl⟩ | ⟨-, v, -, rfl⟩⟩ := hostReadBuf_next h
    · exact .read _ (.inr rfl)
    · exact .read _ (.inl rfl)
  | writeBuf width space i v =>
    obtain ⟨hs, b, hi, rfl⟩ := hostWriteBuf_next h
    exact .store hs b i v hi

theorem served_of_step {s t : State} (h : step s = .next t) : Served s.taken s.request t :=
  served_of_serve (step_eq_serve s ▸ h)

/-- An instruction that an idle block runs from start to end leaves it idle (R241, log 4). -/
theorem exec_seq_idle {i : Instr} {s t : State} (hs : s.seq = .idle) (h : exec i s = .next t) :
    t.seq = .idle := by
  cases hi : i.isOperation with
  | true =>
    obtain ⟨v, u, -, rfl⟩ := run_of_exec hi h
    rfl
  | false =>
    obtain ⟨v, hv⟩ := run_of_exec_part hi h
    have keeps : t.seq = s.seq :=
      Prog.run_rel (R := fun a b => b.seq = a.seq) (fun _ => rfl) (fun _ _ _ h1 h2 => h2.trans h1)
        (fun a u _ => Act.apply_seq a u) (fun _ _ => rfl) (fun _ _ _ => rfl) (fun _ => rfl)
        (within_program s.params i) hv
    exact keeps.trans hs

end Sys2Proof.Machine

/-! What a step leaves of TRACE and of the status machines (R33 to R35, R45), and when SEQ changes (R48). -/
namespace Sys2Proof.Machine

/-! ## What an operation's lines record -/

/-- The events a line of pseudocode appends to TRACE (R13, R45). -/
def Act.events (s : State) : Act → List Event
  | .busDriveLow => [.busLow s.timeUs]
  | .busRelease => [.busRel s.timeUs]
  | .uartSend b => [.tx b]
  | .breakStart us => [.txBreak us]
  | _ => []

theorem Act.apply_trace (a : Act) (s : State) : (a.apply s).trace = s.trace ++ a.events s := by
  cases a <;> simp [Act.apply, Act.events]

/-- No line records a sample: samples are draws (R13). -/
theorem Act.busSmp_notMem_events (a : Act) (s : State) (time : Time) (level : Bool) :
    .busSmp time level ∉ a.events s := by
  cases a <;> simp [Act.events]

/-- The parts of the state that only running instructions and RST change. -/
structure Marks where
  trace : List Event
  joinState : JoinState
  variant : Variant
  tempRaw : BitVec 16

/-- A state's TRACE, JOIN_STATE, VARIANT and TEMP_RAW. -/
def State.marks (s : State) : Marks := ⟨s.trace, s.joinState, s.variant, s.tempRaw⟩

/-- A preorder on marks that allows events to be appended to TRACE. -/
structure MarkOrder (Q : Marks → Marks → Prop) : Prop where
  refl : ∀ m, Q m m
  trans : ∀ a b c, Q a b → Q b c → Q a c
  append : ∀ m ev, Q m { m with trace := m.trace ++ ev }

section
variable {Q : Marks → Marks → Prop} {i : Instr} {s t : State}

/-- What the lines an instruction may hold keep of the marks, the whole instruction keeps. -/
theorem exec_marks (hQ : MarkOrder Q) (act : ∀ a u, i.mayDo a → Q u.marks (a.apply u).marks)
    (h : exec i s = .next t) : Q s.marks t.marks := by
  have run : ∀ {u w : State} {v : Word}, (program s.params i).run u = .next (v, w) →
      Q u.marks w.marks := fun hr =>
    Prog.run_rel (R := fun a b => Q a.marks b.marks) (fun _ => hQ.refl _)
      (fun _ _ _ => hQ.trans _ _ _) act (fun _ _ => hQ.append _ _) (fun _ _ _ => hQ.append _ _)
      (fun _ => hQ.refl _) (within_program _ i) hr
  cases hi : i.isOperation with
  | true =>
    obtain ⟨v, u, hu, rfl⟩ := run_of_exec hi h
    exact run (u := s.issue i) (w := u) hu
  | false =>
    obtain ⟨v, hv⟩ := run_of_exec_part hi h
    exact run hv

/-- The same for one primitive of a running operation. -/
theorem stepOnce_marks {ph : List Resp} {p : Prog} (hQ : MarkOrder Q)
    (act : ∀ a u, i.mayDo a → Q u.marks (a.apply u).marks) (hp : p.Within i)
    (h : p.stepOnce i ph s = .next t) : Q s.marks t.marks :=
  Prog.stepOnce_rel (R := fun a b => Q a.marks b.marks) act (fun _ _ => hQ.append _ _)
    (fun _ _ _ => hQ.append _ _) (fun _ => hQ.refl _) (fun _ => hQ.refl _) (fun _ _ _ h => h)
    (fun _ _ => hQ.refl _) hp h

/-- The instruction is running, or the next request runs it from start to end. -/
def State.Runs (s : State) (i : Instr) : Prop :=
  (∃ ph, s.seq = .exec i ph) ∨ ∃ iw, s.request = requestOf iw ∧ decode iw = .ok i

/-- An operation is run from start to end by a blocking call only. -/
theorem State.Runs.operation (h : s.Runs i) (hi : i.isOperation = true) :
    (∃ ph, s.seq = .exec i ph)
      ∨ ∃ w rest, s.inputs = .call w :: rest ∧ decodeCmd w = .ok i := by
  obtain h | ⟨iw, hr, hd⟩ := h
  · exact .inl h
  · cases iw with
    | cmd w => exact .inr ⟨w, _, State.inputs_eq_cons hr (by simp), hd⟩
    | busCmd b => simp [isOperation_of_decodeBusCmd hd] at hi

theorem State.request_ne_rst (h : ∀ rest, s.inputs ≠ .rst :: rest) : s.request ≠ .rst :=
  fun hr => h _ (State.inputs_eq_cons hr (by simp))

/-- RST apart, a step keeps of the marks what the lines of every running instruction keep. -/
theorem step_marks (hQ : MarkOrder Q) (h : step s = .next t) (hr : ∀ rest, s.inputs ≠ .rst :: rest)
    (act : ∀ i, s.Runs i → ∀ a u, i.mayDo a → Q u.marks (a.apply u).marks) :
    Q s.marks t.marks := by
  have served := served_of_step h
  have notRst := State.request_ne_rst hr
  generalize hx : s.request = x at served notRst
  cases served with
  | alone hs =>
    obtain ⟨-, rfl⟩ | ⟨i, ph, p, hseq, hp, hs⟩ := seqStep_next hs
    · exact hQ.refl _
    · exact stepOnce_marks (s := s.taken) hQ (act i (.inl ⟨ph, hseq⟩))
        ((within_program _ i).resume hp) hs
  | reset => exact absurd rfl notRst
  | run _ hd he => exact exec_marks (s := s.taken) hQ (act _ (.inr ⟨_, hx, hd⟩)) he
  | read v hu => obtain rfl | rfl := hu <;> exact hQ.refl _
  | issue => exact hQ.refl _
  | operand => exact hQ.refl _
  | store => exact hQ.refl _

end

/-! ## TRACE is append-only (R45) -/

theorem markOrder_trace : MarkOrder fun m n => m.trace <+: n.trace where
  refl _ := List.prefix_rfl
  trans _ _ _ := List.IsPrefix.trans
  append _ _ := List.prefix_append _ _

/-- Settles O53: TRACE grows by what the lines of a running instruction and the draws append, and nothing
else but RST touches it. -/
theorem traceIsAppendOnly : Obligations.TraceIsAppendOnly := by
  intro s t h hr
  refine step_marks markOrder_trace h hr fun i _ a u _ => ?_
  exact ⟨_, (Act.apply_trace a u).symm⟩

/-! ## Who writes the status machines (R33 to R35) -/

/-- Keeping a field other than TRACE. -/
theorem markOrder_field {α : Type} (f : Marks → α) (hf : ∀ m ev, f { m with trace := ev } = f m) :
    MarkOrder fun m n => f n = f m where
  refl _ := rfl
  trans _ _ _ h1 h2 := h2.trans h1
  append m _ := hf m _

/-- A step that changes a field runs an instruction that may hold a line which changes it. -/
theorem runs_of_mark_changed {α : Type} {f : Marks → α} {s t : State}
    (hf : ∀ m ev, f { m with trace := ev } = f m) (h : step s = .next t)
    (hr : ∀ rest, s.inputs ≠ .rst :: rest) (hne : f t.marks ≠ f s.marks) :
    ∃ i, s.Runs i ∧ ∃ a u, i.mayDo a ∧ f (a.apply u).marks ≠ f u.marks := by
  by_contra hno
  refine hne (step_marks (markOrder_field f hf) h hr fun i hi a u ha => ?_)
  by_contra hau
  exact hno ⟨i, hi, a, u, ha, hau⟩

theorem Act.eq_setJoinState_of_ne {a : Act} {s : State} (h : (a.apply s).joinState ≠ s.joinState) :
    ∃ j, a = .setJoinState j := by
  cases a
  case setJoinState j => exact ⟨j, rfl⟩
  all_goals exact absurd rfl h

theorem Act.eq_setVariant_of_ne {a : Act} {s : State} (h : (a.apply s).variant ≠ s.variant) :
    ∃ v, a = .setVariant v := by
  cases a
  case setVariant v => exact ⟨v, rfl⟩
  all_goals exact absurd rfl h

theorem Act.eq_setTempRaw_of_ne {a : Act} {s : State} (h : (a.apply s).tempRaw ≠ s.tempRaw) :
    ∃ v, a = .setTempRaw v := by
  cases a
  case setTempRaw v => exact ⟨v, rfl⟩
  all_goals exact absurd rfl h

theorem eq_radioJoin_of_writes {i : Instr} (h : opWritesField i .joinState = true) :
    ∃ mode, i = .radioJoin mode := by
  simp only [opWritesField, Bool.or_eq_true, beq_iff_eq] at h
  exact h.elim (fun h => ⟨_, h⟩) fun h => ⟨_, h⟩

/-- Settles O54: by R84's table (`within_program`) only one kind of instruction may hold the line that
writes each field, and a step whose instructions hold none keeps it. -/
theorem whoWritesTheStatusMachines : Obligations.WhoWritesTheStatusMachines := by
  intro s t h hr
  refine ⟨fun hj => ?_, fun hv => ?_, fun hw => ?_⟩
  · obtain ⟨i, hi, a, u, ha, hne⟩ := runs_of_mark_changed (f := Marks.joinState) (fun _ _ => rfl) h hr hj
    obtain ⟨j, rfl⟩ := Act.eq_setJoinState_of_ne hne
    obtain ⟨mode, rfl⟩ := eq_radioJoin_of_writes ha
    exact ⟨mode, hi.operation rfl⟩
  · obtain ⟨i, hi, a, u, ha, hne⟩ := runs_of_mark_changed (f := Marks.variant) (fun _ _ => rfl) h hr hv
    obtain ⟨v, rfl⟩ := Act.eq_setVariant_of_ne hne
    obtain rfl : i = .radioReset := by simpa [Instr.mayDo, opWritesField] using ha
    exact hi.operation rfl
  · obtain ⟨i, hi, a, u, ha, hne⟩ := runs_of_mark_changed (f := Marks.tempRaw) (fun _ _ => rfl) h hr hw
    obtain ⟨v, rfl⟩ := Act.eq_setTempRaw_of_ne hne
    obtain rfl : i = .sensorRead := by simpa [Instr.mayDo, opWritesReg] using ha
    exact hi.operation rfl

/-! ## When SEQ changes (R48) -/

/-- The single bits of STATUS (R26). -/
theorem statusWord_flags (s : State) :
    s.statusWord.getLsbD 0 = s.busy ∧ s.statusWord.getLsbD 1 = s.done
      ∧ s.statusWord.getLsbD 2 = s.presence ∧ s.statusWord.getLsbD 3 = s.crcOk
      ∧ s.statusWord.getLsbD 4 = s.timedOut ∧ s.statusWord.getLsbD 5 = s.rxPending := by
  simp only [State.statusWord, BitVec.getLsbD_append]; simp

theorem statusWord_busy (s : State) : s.statusWord.getLsbD 0 = s.busy := (statusWord_flags s).1

theorem State.busy_eq_true (s : State) : s.busy = true ↔ s.seq ≠ .idle := by
  rw [← Bool.not_eq_false, Ne, not_iff_not, State.busy_eq_false]

/-- A primitive after which SEQ is Idle is the `return` (R241). -/
theorem Prog.stepOnce_idle {i : Instr} {ph : List Resp} {p : Prog} {s t : State}
    (h : p.stepOnce i ph s = .next t) (ht : t.seq = .idle) : ∃ v, p = .ret v ∧ t = s.endOp v := by
  cases p with
  | ret v => exact ⟨v, rfl, by simpa [Prog.stepOnce] using h.symm⟩
  | load b j k =>
    simp only [Prog.stepOnce] at h
    split at h
    · cases h; cases ht
    · cases h
  | refuse r => cases h
  | _ => cases h; cases ht

/-- Settles O11, by the cases of what a step can have done: from Idle only a CMD write leaves it, and
back to it lead RST and a `return` only. -/
theorem seqLeavesIdleOnlyOnIssue : Obligations.SeqLeavesIdleOnlyOnIssue := by
  refine ⟨fun s => by rw [statusWord_busy, State.busy_eq_true], fun s t h => ?_⟩
  have served := served_of_step h
  generalize hx : s.request = x at served
  refine ⟨fun hs ht => ?_, fun hs ht => ?_⟩
  · cases served with
    | alone hq =>
      obtain ⟨-, rfl⟩ | ⟨i, ph, p, hseq, -, -⟩ := seqStep_next hq
      · exact absurd hs ht
      · exact absurd (hseq.symm.trans hs) (by simp)
    | reset => exact absurd rfl ht
    | run hi _ he => exact absurd (exec_seq_idle hi he) ht
    | read v hu => obtain rfl | rfl := hu <;> exact absurd hs ht
    | issue _ hd => exact ⟨_, _, _, State.inputs_eq_cons hx (by simp), hd, rfl⟩
    | operand => exact absurd hs ht
    | store => exact absurd hs ht
  · cases served with
    | alone hq =>
      obtain ⟨hseq, -⟩ | ⟨i, ph, p, hseq, hp, hq⟩ := seqStep_next hq
      · exact absurd hseq hs
      · obtain ⟨v, rfl, rfl⟩ := Prog.stepOnce_idle hq ht
        exact .inr ⟨i, ph, v, hseq, hp, rfl, rfl⟩
    | reset => exact .inl ⟨_, State.inputs_eq_cons hx (by simp)⟩
    | read v hu => obtain rfl | rfl := hu <;> exact absurd ht hs
    | run hi _ _ => exact absurd hi hs
    | issue hi _ => exact absurd hi hs
    | operand hi => exact absurd hi hs
    | store hi => exact absurd hi hs

end Sys2Proof.Machine

/-! The invariant of the block is kept by every step, and samples are taken with the line released (R46). -/
namespace Sys2Proof.Machine

/-! ## States that differ in nothing the invariant speaks of -/

theorem State.SeqOk.congr {s t : State} (h : s.SeqOk) (hq : t.seq = s.seq)
    (hp : t.params = s.params) (hm : t.mem = s.mem) (hd : t.busDrive = s.busDrive)
    (ho : t.serialOut = s.serialOut) : t.SeqOk := by
  unfold State.SeqOk at *
  rw [hq]
  cases hs : s.seq with
  | idle =>
    rw [hs] at h
    exact ⟨hd.trans h.1, ho.trans h.2⟩
  | exec i ph =>
    rw [hs] at h
    obtain ⟨hi, p, k, hr, hk, hsafe⟩ := h
    exact ⟨hi, p, k, hp ▸ hr, hk.congr hm hd ho, hp ▸ hsafe⟩

theorem State.Inv.congr {s t : State} (h : s.Inv) (hq : t.seq = s.seq) (hp : t.params = s.params)
    (hm : t.mem = s.mem) (hd : t.busDrive = s.busDrive) (ho : t.serialOut = s.serialOut)
    (hl : t.lineLen = s.lineLen) (hr : t.rxpayLen = s.rxpayLen) (ha : t.opaLen = s.opaLen)
    (hb : t.opbLen = s.opbLen) : t.Inv :=
  t.inv_iff.mpr ⟨(s.inv_iff.mp h).1.congr hp hm hl hr ha hb, h.seq.congr hq hp hm hd ho⟩

theorem State.Inv.taken {s : State} (h : s.Inv) : s.taken.Inv :=
  h.congr rfl rfl rfl rfl rfl rfl rfl rfl rfl

/-! ## Idle blocks -/

theorem State.seqOk_idle {s : State} (hs : s.seq = .idle) :
    s.SeqOk ↔ s.busDrive = false ∧ s.serialOut = .mark := by
  simp only [State.SeqOk, hs]

/-- What is known of an idle block with nothing counted as written. -/
def Track.start : Track := ⟨false, .mark, 0, 0⟩

theorem Track.start_idle : Track.start.Idle := ⟨rfl, rfl⟩

theorem State.Inv.meets_start {s : State} (h : s.Inv) (hs : s.seq = .idle) : s.Meets .start :=
  have ⟨hd, ho⟩ := (State.seqOk_idle hs).mp h.seq
  ⟨hd, ho, fun _ hi => absurd hi (Nat.not_lt_zero _), fun _ hi => absurd hi (Nat.not_lt_zero _)⟩

/-- After a reset nothing is written and both ports are idle (R50). -/
theorem State.afterReset_inv {c : Config} (hc : c.wf = true) (e : Env) (n : Nat) :
    (State.afterReset c e n).Inv where
  params := hc
  mem := .nil
  inside _ _ _ := rfl
  lineLen := Nat.zero_le _
  line _ hi := absurd hi (Nat.not_lt_zero _)
  rxpayLen := Nat.zero_le _
  pay _ hi := absurd hi (Nat.not_lt_zero _)
  opaLen := Nat.zero_le _
  opbLen := Nat.zero_le _
  seq := ⟨rfl, rfl⟩

theorem State.Inv.blockReset {s : State} (h : s.Inv) : s.blockReset.Inv :=
  (State.afterReset_inv h.params s.env s.freeCount).congr rfl rfl rfl rfl rfl rfl rfl rfl rfl

/-- An issued operation stands at the start of its pseudocode, which is in order (R240). -/
theorem State.Inv.issue {s : State} {i : Instr} (h : s.Inv) (hs : s.seq = .idle)
    (hi : i.isOperation = true) : (s.issue i).Inv :=
  (s.issue i).inv_iff.mpr ⟨(s.inv_iff.mp h).1.congr rfl rfl rfl rfl rfl rfl,
    hi, _, .start, rfl, (h.meets_start hs).congr rfl rfl rfl, safe_program _ i Track.start_idle⟩

/-- An instruction that an idle block runs keeps the invariant. -/
theorem State.Inv.exec {s t : State} {i : Instr} (h : s.Inv) (hs : s.seq = .idle)
    (he : exec i s = .next t) : t.Inv := by
  have data := (s.inv_iff.mp h).1
  have ports := h.meets_start hs
  have safe := safe_program s.params i Track.start_idle
  cases hi : i.isOperation with
  | true =>
    obtain ⟨v, u, hu, rfl⟩ := run_of_exec hi he
    obtain ⟨hd, -, -, hdrive, hout⟩ := Prog.run_keeps (s := s.issue i)
      (data.congr rfl rfl rfl rfl rfl rfl) (ports.congr rfl rfl rfl) safe hu
    exact (State.inv_iff _).mpr ⟨hd.congr rfl rfl rfl rfl rfl rfl, hdrive, hout⟩
  | false =>
    obtain ⟨v, hv⟩ := run_of_exec_part hi he
    obtain ⟨hd, -, hseq, hports⟩ := Prog.run_keeps data ports safe hv
    exact (State.inv_iff _).mpr ⟨hd, (State.seqOk_idle (hseq.trans hs)).mpr hports⟩

/-! ## Running operations -/

/-- What the invariant says of a block that stands at a position of an operation. -/
theorem State.Inv.position {s : State} {i : Instr} {ph : List Resp} {p : Prog} (h : s.Inv)
    (hs : s.seq = .exec i ph) (hp : (program s.params i).resume ph = some p) :
    i.isOperation = true ∧ ∃ k, s.Meets k ∧ p.Safe s.params k := by
  have hseq := h.seq
  simp only [State.SeqOk, hs, hp, Option.some.injEq] at hseq
  obtain ⟨hi, _, k, rfl, hk, hsafe⟩ := hseq
  exact ⟨hi, k, hk, hsafe⟩

/-- The position after one more answer meets the invariant if the rest of the pseudocode is in order. -/
theorem State.inv_atPhase {u : State} {i : Instr} {ph : List Resp} {r : Resp} {p q : Prog} {k : Track}
    (hi : i.isOperation = true) (hp : (program u.params i).resume ph = some p)
    (hq : p.resume [r] = some q) (hu : u.DataOk) (hk : u.Meets k) (hsafe : q.Safe u.params k) :
    (u.atPhase i (ph ++ [r])).Inv := by
  refine (State.inv_iff _).mpr ⟨hu.congr rfl rfl rfl rfl rfl rfl, hi, q, k, ?_,
    hk.congr rfl rfl rfl, hsafe⟩
  rw [Prog.resume_append]
  simpa [hp] using hq

/-- One primitive of a running operation keeps the invariant. -/
theorem State.Inv.stepOnce {s t : State} {i : Instr} {ph : List Resp} {p : Prog} (h : s.Inv)
    (hs : s.seq = .exec i ph) (hp : (program s.params i).resume ph = some p)
    (ht : p.stepOnce i ph s = .next t) : t.Inv := by
  have data := (s.inv_iff.mp h).1
  obtain ⟨hi, k, hk, hsafe⟩ := h.position hs hp
  cases p with
  | ret v =>
    cases ht
    exact (State.inv_iff _).mpr ⟨data.congr rfl rfl rfl rfl rfl rfl, hk.drive.trans hsafe.1,
      hk.out.trans hsafe.2⟩
  | act a q =>
    cases ht
    obtain ⟨hd, hm⟩ := Act.keeps data hk hsafe.1
    exact State.inv_atPhase hi (by simpa using hp) rfl hd hm (by simpa using hsafe.2)
  | sample f =>
    cases ht
    exact State.inv_atPhase (u := s.afterSample) hi hp rfl (data.congr rfl rfl rfl rfl rfl rfl)
      (hk.congr rfl rfl rfl) (hsafe.2 _)
  | recv tmo f =>
    cases ht
    exact State.inv_atPhase (u := s.afterRecv tmo) hi hp rfl (data.congr rfl rfl rfl rfl rfl rfl)
      (hk.congr rfl rfl rfl) (hsafe _)
  | nibble f =>
    cases ht
    exact State.inv_atPhase (u := s.useFree) hi hp rfl (data.congr rfl rfl rfl rfl rfl rfl)
      (hk.congr rfl rfl rfl) (hsafe _)
  | load b j f =>
    simp only [Prog.stepOnce] at ht
    split at ht
    · cases ht
      exact State.inv_atPhase hi hp rfl data hk (hsafe _)
    · cases ht
  | reg r f =>
    cases ht
    exact State.inv_atPhase hi hp rfl data hk (hsafe _)
  | refuse r => cases ht

theorem State.Inv.seqStep {s t : State} (h : s.Inv) (ht : seqStep s = .next t) : t.Inv := by
  obtain ⟨-, rfl⟩ | ⟨i, ph, p, hs, hp, ht⟩ := seqStep_next ht
  · exact h.congr rfl rfl rfl rfl rfl rfl rfl rfl rfl
  · exact h.stepOnce hs hp ht

/-! ## Every step -/

/-- Serving a request keeps the invariant. -/
theorem State.Inv.served {x : Input} {s t : State} (h : s.Inv) (ht : Served s x t) : t.Inv := by
  cases ht with
  | alone ht => exact h.seqStep ht
  | reset => exact h.blockReset
  | run hs _ he => exact h.exec hs he
  | read v hu => obtain rfl | rfl := hu <;> exact h.congr rfl rfl rfl rfl rfl rfl rfl rfl rfl
  | issue hs hd => exact h.issue hs (isOperation_of_decodeCmd hd)
  | operand hs a0 a1 la lb adr ha hb =>
    have hla : la.toNat ≤ s.params.opbufCap := ha.elim (fun e => e ▸ h.opaLen) id
    have hlb : lb.toNat ≤ s.params.opbufCap := hb.elim (fun e => e ▸ h.opbLen) id
    exact { h with opaLen := hla, opbLen := hlb, seq := h.seq.congr rfl rfl rfl rfl rfl }
  | store hs b i v hi =>
    exact (State.inv_iff _).mpr ⟨(s.inv_iff.mp h).1.writeByte v hi,
      (State.seqOk_idle (s := s.writeByte b i v) hs).mpr ((State.seqOk_idle hs).mp h.seq)⟩

/-- Settles O56, by the cases of what a step can have done; a running operation stands at a position
from which the rest of its pseudocode is in order, and one primitive leads to the next such position. -/
theorem stepKeepsTheInvariant : Obligations.StepKeepsTheInvariant :=
  fun _ _ h ht => h.taken.served (served_of_step ht)

/-- Settles O55: the reference parameters are legal, and a reset meets the rest of the invariant. -/
theorem resetMeetsTheInvariant : Obligations.ResetMeetsTheInvariant :=
  State.afterReset_inv (by decide +kernel) _ _

/-! ## Samples (R46) -/

theorem State.busLevel_driven {s : State} (h : s.busDrive = true) : s.busLevel = false := by
  simp [State.busLevel, h]

theorem State.busLevel_released {s : State} (h : s.busDrive = false) :
    s.busLevel = s.env.busLevel := by
  simp [State.busLevel, h]

/-- A primitive that records a sample is `BusSample()`, and records the level there (R13). -/
theorem Prog.stepOnce_busSmp {i : Instr} {ph : List Resp} {p : Prog} {s t : State} {time : Time}
    {level : Bool} (h : p.stepOnce i ph s = .next t)
    (ht : t.trace = s.trace ++ [.busSmp time level]) :
    (∃ k, p = .sample k) ∧ time = s.timeUs ∧ level = s.busLevel := by
  cases p with
  | sample k =>
    cases h
    have he : s.trace ++ [.busSmp s.timeUs s.busLevel] = s.trace ++ [.busSmp time level] := ht
    obtain ⟨rfl, rfl⟩ : s.timeUs = time ∧ s.busLevel = level := by simpa using he
    exact ⟨⟨k, rfl⟩, rfl, rfl⟩
  | act a q =>
    cases h
    have he : a.events s = [.busSmp time level] :=
      List.append_cancel_left ((Act.apply_trace a s).symm.trans ht)
    exact absurd (he ▸ List.mem_singleton_self _) (Act.busSmp_notMem_events a s time level)
  | recv tmo k =>
    cases h
    have he : s.env.rxDraw.event = .busSmp time level := by simpa using ht
    cases hd : s.env.rxDraw <;> simp [hd, RxDraw.event] at he
  | load b j k =>
    simp only [Prog.stepOnce] at h
    split at h
    · cases h; simp at ht
    · cases h
  | refuse r => cases h
  | ret v => cases h; simp at ht
  | nibble k => cases h; simp at ht
  | reg r k => cases h; simp at ht

/-- Settles O57: only the primitive `BusSample()` records a sample, and the invariant has the line
released at its position. -/
theorem samplesAreTakenReleased : Obligations.SamplesAreTakenReleased := by
  refine ⟨fun s => State.busLevel_driven, fun s t time level hinv hin h ht => ?_⟩
  rw [step_eq_serve, State.request_nil hin, State.taken_nil hin] at h
  obtain ⟨-, rfl⟩ | ⟨i, ph, p, hs, hp, h⟩ := seqStep_next h
  · simp at ht
  · obtain ⟨⟨f, rfl⟩, rfl, rfl⟩ := Prog.stepOnce_busSmp h ht
    obtain ⟨-, k, hk, hsafe⟩ := hinv.position hs hp
    have released : s.busDrive = false := hk.drive.trans hsafe.1
    exact ⟨released, State.busLevel_released released, rfl⟩

end Sys2Proof.Machine

/-! What a step and the host's accesses to registers do, equation by equation (R21 to R26, R44, R240). -/
namespace Sys2Proof.Machine

/-! ## Steps of an idle block -/

/-- Settles O6, by the request a step serves. -/
theorem stepRunsTheInstruction : Obligations.StepRunsTheInstruction := by
  intro s rest
  have served : ∀ x, s.inputs = x :: rest → step s = serve x { s with inputs := rest } := by
    intro x hx
    rw [step_eq_serve, State.request_cons hx, State.taken_cons hx]
  refine ⟨served, fun hin => ?_, fun iw i hin hs hd => ?_⟩
  · rw [step_eq_serve, State.request_nil hin, State.taken_nil hin, serve]
  · have runs : serve (requestOf iw) { s with inputs := rest } = runWord { s with inputs := rest } iw := by
      cases iw <;> rfl
    rw [served _ hin, runs, runWord, State.busy_idle { s with inputs := rest } hs, hd]
    rfl

theorem seqStep_idle {s : State} (hs : s.seq = .idle) : seqStep s = .next s.elapse := by
  simp only [seqStep, hs]

/-- Settles O59: with nothing or quiet time asked of it, an idle block lets a microsecond pass. -/
theorem idleTimePasses : Obligations.IdleTimePasses := by
  refine fun s hs => ⟨fun hin => ?_, fun rest hin => ?_⟩
  · rw [step_eq_serve, State.request_nil hin, State.taken_nil hin, serve, seqStep_idle hs]
    rfl
  · rw [step_eq_serve, State.request_cons hin, State.taken_cons hin, serve]
    exact seqStep_idle (s := { s with inputs := rest }) hs

/-! ## Host reads and writes of registers -/

/-- A host read of a register no running operation may write returns its contents (R68, R71). -/
theorem hostReadReg_current {s : State} {r : Reg} (h : s.regInFlight r = false) :
    hostReadReg s 32 (BitVec.ofNat 8 r.num) = .next (s.answer (s.readReg r)) := by
  simp only [hostReadReg, Reg.ofNum_num]
  simp [h]

theorem State.regInFlight_idle {s : State} (hs : s.seq = .idle) (r : Reg) :
    s.regInFlight r = false := by
  simp only [State.regInFlight, hs]

/-- Settles O15: an idle block has no register in flight. -/
theorem registerReads : Obligations.RegisterReads := by
  intro s hs reads
  have read (r : Reg) : reads (BitVec.ofNat 8 r.num) (s.readReg r) :=
    hostReadReg_current (State.regInFlight_idle hs r)
  refine ⟨read .cmd, read .status, read .arg0, read .arg1, read .result, read .tempRaw,
    read .lineLen, read .rxpayLen, read .opaLen, read .opbLen, ?_⟩
  rw [← wordOfBool_eq]
  exact read .cfg

theorem hostWriteReg_busy {s : State} (hs : s.seq ≠ .idle) (width : Nat) (num : Byte) (v : Word) :
    hostWriteReg s width num v = .refused .writeWhileBusy := by
  rw [hostWriteReg, if_pos (s.busy_eq_true.mpr hs)]

theorem hostSetLength_of_le {s : State} (t : State) {v : Word} (h : v.toNat ≤ s.params.opbufCap) :
    hostSetLength s t v = .next t := if_neg (Nat.not_lt.mpr h)

theorem hostSetLength_of_lt {s : State} (t : State) {v : Word} (h : s.params.opbufCap < v.toNat) :
    hostSetLength s t v = .refused (.lengthAboveCapacity v) := if_pos h

section
variable {s : State} (hs : s.seq = .idle) (v : Word)
include hs

theorem hostWriteReg_cmd : hostWriteReg s 32 0x00 v = hostIssue s v := by
  rw [hostWriteReg, State.busy_idle s hs]; rfl

theorem hostWriteReg_arg0 : hostWriteReg s 32 0x02 v = .next { s with arg0 := v } := by
  rw [hostWriteReg, State.busy_idle s hs]; rfl

theorem hostWriteReg_arg1 : hostWriteReg s 32 0x03 v = .next { s with arg1 := v } := by
  rw [hostWriteReg, State.busy_idle s hs]; rfl

theorem hostWriteReg_opaLen :
    hostWriteReg s 32 0x08 v = hostSetLength s { s with opaLen := v } v := by
  rw [hostWriteReg, State.busy_idle s hs]; rfl

theorem hostWriteReg_opbLen :
    hostWriteReg s 32 0x09 v = hostSetLength s { s with opbLen := v } v := by
  rw [hostWriteReg, State.busy_idle s hs]; rfl

theorem hostWriteReg_cfg : hostWriteReg s 32 0x0A v = .next { s with adr := v.getLsbD 0 } := by
  rw [hostWriteReg, State.busy_idle s hs]; rfl

end

/-- Settles O16, register by register; a length is stored or refused as it fits OPBUF_CAP or not. -/
theorem registerWrites : Obligations.RegisterWrites := by
  intro s v hs
  refine ⟨hostWriteReg_arg0 hs v, hostWriteReg_arg1 hs v, fun hv => ⟨?_, ?_⟩, fun hv => ⟨?_, ?_⟩,
    hostWriteReg_cfg hs v⟩
  · exact (hostWriteReg_opaLen hs v).trans (hostSetLength_of_le _ hv)
  · exact (hostWriteReg_opbLen hs v).trans (hostSetLength_of_le _ hv)
  · exact (hostWriteReg_opaLen hs v).trans (hostSetLength_of_lt _ hv)
  · exact (hostWriteReg_opbLen hs v).trans (hostSetLength_of_lt _ hv)

/-! ## Writes of CMD (R24) -/

/-- A legal operation with legal operands is issued (R240). -/
theorem hostIssue_ok {s : State} {w : Word} {i : Instr} (hd : decodeCmd w = .ok i)
    (h : ¬ (i = .radioRecv ∧ s.params.outCap < s.arg1.toNat)) : hostIssue s w = .next (s.issue i) := by
  have none : s.operandRefusal i = none := Option.eq_none_iff_forall_ne_some.mpr fun r hr =>
    have ⟨hi, hc, _⟩ := State.operandRefusal_eq_some.mp hr
    h ⟨hi, hc⟩
  simp only [hostIssue, hd, none]

/-- A RECEIVE with ARG1 above OUT_CAP is refused (R246 condition 7). -/
theorem hostIssue_aboveOutCap {s : State} {w : Word} (hd : decodeCmd w = .ok .radioRecv)
    (h : s.params.outCap < s.arg1.toNat) : hostIssue s w = .refused (.countAboveOutCap s.arg1) := by
  simp only [hostIssue, hd, State.operandRefusal_eq_some.mpr ⟨rfl, h, rfl⟩]

/-- No operation writes CMD (R84). -/
theorem State.regInFlight_cmd (s : State) : s.regInFlight .cmd = false := by
  unfold State.regInFlight; split <;> rfl

/-- Settles O8, by whether the block is busy and whether the operands are legal. -/
theorem cmdWriteIssues : Obligations.CmdWriteIssues := by
  intro s w i hd
  refine ⟨fun hs hlegal => ⟨?_, ?_⟩, fun hs hi hc => ?_, fun hs => hostWriteReg_busy hs 32 0x00 w, ?_⟩
  · exact (hostWriteReg_cmd hs w).trans (hostIssue_ok hd hlegal)
  · exact (statusWord_busy _).trans (s.issue_busy i)
  · subst hi
    exact (hostWriteReg_cmd hs w).trans (hostIssue_aboveOutCap hd hc)
  · exact hostReadReg_current s.regInFlight_cmd

/-! ## The STATUS word (R26) -/

theorem toNat_append_eq {n m : Nat} (x : BitVec n) (y : BitVec m) :
    (x ++ y).toNat = y.toNat + 2 ^ m * x.toNat := by
  rw [BitVec.toNat_append, ← Nat.shiftLeft_add_eq_or_of_lt y.isLt, Nat.shiftLeft_eq]; ring

/-- STATUS as a number: the sum of its fields, each at its place. -/
theorem statusWord_toNat (s : State) :
    s.statusWord.toNat = s.busy.toNat + 2 * (s.done.toNat + 2 * (s.presence.toNat
      + 2 * (s.crcOk.toNat + 2 * (s.timedOut.toNat + 2 * (s.rxPending.toNat
      + 2 * (s.lineEnd.code.toNat + 4 * (s.joinState.code.toNat + 8 * s.variant.code.toNat))))))) := by
  have reserved : (0 : BitVec 19).toNat = 0 := rfl
  simp only [State.statusWord, toNat_append_eq, BitVec.toNat_ofBool, reserved]
  omega

/-- The coded fields of STATUS, and its reserved bits. -/
theorem statusWord_codes (s : State) :
    s.statusWord.toNat / 64 % 4 = s.lineEnd.code.toNat
      ∧ s.statusWord.toNat / 256 % 8 = s.joinState.code.toNat
      ∧ s.statusWord.toNat / 2048 % 4 = s.variant.code.toNat
      ∧ s.statusWord.toNat / 8192 = 0 := by
  have word := statusWord_toNat s
  have busy := s.busy.toNat_le
  have done := s.done.toNat_le
  have presence := s.presence.toNat_le
  have crcOk := s.crcOk.toNat_le
  have timedOut := s.timedOut.toNat_le
  have rxPending := s.rxPending.toNat_le
  have line := s.lineEnd.code.isLt
  have join := s.joinState.code.isLt
  have variant := s.variant.code.isLt
  omega

/-- Settles O14: the single bits by their places, the coded fields by the word as a sum. -/
theorem statusWordLayout : Obligations.StatusWordLayout := by
  intro s
  obtain ⟨busy, done, presence, crcOk, timedOut, rxPending⟩ := statusWord_flags s
  obtain ⟨line, join, variant, reserved⟩ := statusWord_codes s
  refine ⟨busy, done, presence, crcOk, timedOut, rxPending, line.trans ?_, join.trans ?_,
    variant.trans ?_, reserved⟩
  · cases s.lineEnd <;> rfl
  · cases s.joinState <;> rfl
  · cases s.variant <;> rfl

end Sys2Proof.Machine

/-! The buffers, as operations and the host access them, and host reads of an idle or a busy block
(20_memory.md). -/
namespace Sys2Proof.Machine

/-! ## Bytes of a buffer (R61, R62) -/

section
variable {s : State} {b : Buf} {i : Nat}

/-- An operation's read of a byte that has been written (R62). -/
theorem State.readByte_written {v : Byte} (hi : i < b.size s.params) (hb : s.byte? b i = some v) :
    s.readByte b i = .ok v := by
  simp only [State.readByte, if_neg (Nat.not_le.mpr hi), hb]

/-- An operation's read of a byte nothing has written since reset (I4). -/
theorem State.readByte_unwritten (hi : i < b.size s.params) (hb : s.byte? b i = none) :
    s.readByte b i = .error (.unwrittenByte b i) := by
  simp only [State.readByte, if_neg (Nat.not_le.mpr hi), hb]

/-- A host read at or above the buffer's size (R246 condition 3). -/
theorem hostReadBuf_beyond (hi : b.size s.params ≤ i) :
    hostReadBuf s 8 (BitVec.ofNat 8 b.id) i = .refused (.indexOutOfRange b i) := by
  simp only [hostReadBuf, Buf.ofId_id]
  simp [hi]

/-- A host write at or above the buffer's size (R246 condition 3). -/
theorem hostWriteBuf_beyond (hs : s.seq = .idle) (hi : b.size s.params ≤ i) (v : Byte) :
    hostWriteBuf s 8 (BitVec.ofNat 8 b.id) i v = .refused (.indexOutOfRange b i) := by
  simp only [hostWriteBuf, State.busy_idle s hs, Buf.ofId_id]
  simp [hi]

/-- A host write inside a buffer is stored where the host may write the buffer (R61). -/
theorem hostWriteBuf_inside (hs : s.seq = .idle) (hi : i < b.size s.params) (v : Byte) :
    hostWriteBuf s 8 (BitVec.ofNat 8 b.id) i v =
      if b.hostWritable then .next (s.writeByte b i v) else .refused (.readOnlyBuffer b) := by
  simp only [hostWriteBuf, State.busy_idle s hs, Buf.ofId_id]
  simp [Nat.not_le.mpr hi]

end

/-- The buffers the host may not write (R61). -/
theorem Buf.hostWritable_eq_false {b : Buf} :
    b.hostWritable = false ↔ b = .linebuf ∨ b = .rxpay ∨ b = .outbuf := by
  cases b <;> decide

/-- Settles O17, by the laws of the memory and the bounds check of each access. -/
theorem bufferBytes : Obligations.BufferBytes := by
  intro s b i v
  refine ⟨fun hi => ?_, fun b' i' => s.byte?_writeByte_other v, State.readByte_unwritten,
    fun hs hi => ⟨hostReadBuf_beyond hi, hostWriteBuf_beyond hs hi v⟩⟩
  exact State.readByte_written (s := s.writeByte b i v) hi (s.byte?_writeByte_same b i v)

/-! ## Host reads and writes of an idle block's buffers (R61, R68) -/

/-- No buffer is in flight in an idle block. -/
theorem State.bufInFlight_idle {s : State} (hs : s.seq = .idle) (b : Buf) :
    s.bufInFlight b = false := by
  simp only [State.bufInFlight, hs]

/-- Settles O18, by whether the host may write the buffer and whether the byte has been written. -/
theorem hostBufferAccess : Obligations.HostBufferAccess := by
  intro s b i v hs hi
  have notInFlight := State.bufInFlight_idle hs b
  refine ⟨(hostWriteBuf_inside hs hi v).trans ?_, hostReadBuf_unwritten hi notInFlight,
    hostReadBuf_written hi notInFlight⟩
  simp only [← Buf.hostWritable_eq_false]
  cases b.hostWritable <;> rfl

/-! ## Host reads while an operation runs (R71) -/

/-- A host read of a register the running operation may write (R71, I3). -/
theorem hostReadReg_inFlight {s : State} {r : Reg} (h : s.regInFlight r = true) :
    hostReadReg s 32 (BitVec.ofNat 8 r.num) =
      .next (s.useFree.answer (r.reads (Config.freeWord s.freeCount))) := by
  simp only [hostReadReg, Reg.ofNum_num]
  simp [h]

theorem Reg.reads_eq (r : Reg) (w : Word) :
    r.reads w = if r = .tempRaw then (w.setWidth 16).setWidth 32 else w := by
  split
  · next hr => subst hr; rfl
  · next hr => exact Reg.reads_of_ne hr w

/-- TEMP_RAW[31:16] read 0 at any time, whether or not the register is in flight (R35). -/
theorem hostReadReg_tempRaw_lt {s t : State} (h : hostReadReg s 32 0x05 = .next t) :
    t.hostData.toNat < 65536 := by
  obtain ⟨r, hr, -, ht⟩ := hostReadReg_next h
  obtain rfl : r = .tempRaw := Option.some_injective _ (hr.symm.trans (Reg.ofNum_num .tempRaw))
  obtain ⟨-, rfl⟩ | ⟨-, rfl⟩ := ht
  · exact Reg.reads_tempRaw_lt _
  · simp only [State.answer_hostData, State.readReg, BitVec.toNat_setWidth]
    omega

section
variable {s : State} {op : Instr} {ph : List Resp} (hs : s.seq = .exec op ph)
include hs

theorem State.regInFlight_exec (r : Reg) : s.regInFlight r = opWritesReg op r := by
  simp only [State.regInFlight, hs]

theorem State.bufInFlight_exec (b : Buf) : s.bufInFlight b = opWritesBuf op b := by
  simp only [State.bufInFlight, hs]

end

/-- Settles O19, by whether the running operation may write what is read. -/
theorem readsWhileBusy : Obligations.ReadsWhileBusy := by
  intro s op ph hs
  refine ⟨fun r => ?_, fun t => hostReadReg_tempRaw_lt, rfl, fun b i hi => ?_⟩
  · rw [← State.regInFlight_exec hs, ← Reg.reads_eq]
    cases hr : s.regInFlight r
    · exact hostReadReg_current hr
    · exact hostReadReg_inFlight hr
  · rw [← State.bufInFlight_exec hs]
    exact ⟨hostReadBuf_inFlight hi, hostReadBuf_unwritten hi, fun v => hostReadBuf_written hi⟩

/-! ## Reads of an idle block are idempotent (R68) -/

section
variable (s : State) (v : Word)

/-- What the host has read before makes no difference to a read of a register. -/
theorem hostReadReg_answer (width : Nat) (num : Byte) :
    hostReadReg (s.answer v) width num = hostReadReg s width num := by
  have inFlight (r : Reg) : (s.answer v).regInFlight r = s.regInFlight r := rfl
  simp only [hostReadReg, inFlight, State.answer_readReg]
  rfl

/-- What the host has read before makes no difference to a read of a buffer byte. -/
theorem hostReadBuf_answer (width : Nat) (space : Byte) (i : Nat) :
    hostReadBuf (s.answer v) width space i = hostReadBuf s width space i := by
  have inFlight (b : Buf) : (s.answer v).bufInFlight b = s.bufInFlight b := rfl
  have byte (b : Buf) : (s.answer v).byte? b i = s.byte? b i := rfl
  simp only [hostReadBuf, inFlight, byte, State.answer_pastLength]
  rfl

end

section
variable {s t : State} (hs : s.seq = .idle)
include hs

/-- A register read of an idle block uses no free value: it only answers. -/
theorem hostReadReg_idle_next {width : Nat} {num : Byte} (h : hostReadReg s width num = .next t) :
    ∃ v, t = s.answer v := by
  obtain ⟨r, -, -, ⟨hr, -⟩ | ⟨-, ht⟩⟩ := hostReadReg_next h
  · simp [State.regInFlight_idle hs] at hr
  · exact ⟨_, ht⟩

/-- A buffer read of an idle block likewise only answers. -/
theorem hostReadBuf_idle_next {width : Nat} {space : Byte} {i : Nat}
    (h : hostReadBuf s width space i = .next t) : ∃ v, t = s.answer v := by
  obtain ⟨b, -, -, -, ⟨hb, -⟩ | ⟨-, _, -, ht⟩⟩ := hostReadBuf_next h
  · simp [State.bufInFlight_idle hs] at hb
  · exact ⟨_, ht⟩

end

/-- Settles O58: a read of an idle block only answers, and an answer makes no difference to the next
read. -/
theorem idleReadsAreIdempotent : Obligations.IdleReadsAreIdempotent := by
  rintro s t x hs (⟨width, num, rfl⟩ | ⟨width, space, i, rfl⟩) h
  · obtain ⟨v, rfl⟩ := hostReadReg_idle_next hs h
    exact ⟨rfl, (hostReadReg_answer s v width num).trans h⟩
  · obtain ⟨v, rfl⟩ := hostReadBuf_idle_next hs h
    exact ⟨rfl, (hostReadBuf_answer s v width space i).trans h⟩

end Sys2Proof.Machine

/-! The encoding of instructions and of text (30_encoding.md). -/
namespace Sys2Proof

/-! ## Words and instructions (R80, R82, R83, R93) -/

/-- The fields of a CMD word make up the word (R80). -/
theorem word_cmdFields (w : Word) : (cmdFields w).word = w := by
  have bit (k : Nat) : BitVec.ofBool (w.getLsbD k) = w.extractLsb' k 1 := by
    ext j hj
    obtain rfl : j = 0 := by omega
    simp
  simp only [cmdFields, CmdFields.word, bit, BitVec.extractLsb'_append_extractLsb'_eq_extractLsb']
  exact BitVec.extractLsb'_eq_self

/-- A word known by its number. -/
theorem eq_ofNat_of_toNat {n k : Nat} {x : BitVec n} (h : x.toNat = k) : x = BitVec.ofNat n k := by
  simp [← h]

theorem rejectStray_eq_ok {conf mode pkind : Bool} {i j : Instr} :
    rejectStray conf mode pkind i = .ok j ↔
      conf = false ∧ mode = false ∧ pkind = false ∧ i = j := by
  cases conf <;> cases mode <;> cases pkind <;> simp [rejectStray]

/-- An operation that the opcode map finds has the word of the fields it was found by. -/
theorem encode_of_decodeOp {op : Byte} {conf mode : Bool} {pkind : BitVec 2} {i : Instr}
    (h : decodeOp op conf mode pkind = .ok i) :
    encode i = .cmd (CmdFields.word ⟨op, conf, mode, pkind, 0⟩) := by
  unfold decodeOp at h
  split at h
  case h_11 hop =>
    obtain rfl := eq_ofNat_of_toNat hop
    split at h
    case h_4 => cases h
    all_goals
      next hpk =>
      obtain rfl := eq_ofNat_of_toNat hpk
      obtain ⟨rfl, rfl, -, rfl⟩ := rejectStray_eq_ok.mp h
      rfl
  case h_13 hop =>
    obtain rfl := eq_ofNat_of_toNat hop
    obtain ⟨rfl, -, hpk, rfl⟩ := rejectStray_eq_ok.mp h
    obtain rfl : pkind = 0 := by simpa using hpk
    cases mode <;> rfl
  case h_14 hop =>
    obtain rfl := eq_ofNat_of_toNat hop
    obtain ⟨-, rfl, hpk, rfl⟩ := rejectStray_eq_ok.mp h
    obtain rfl : pkind = 0 := by simpa using hpk
    rfl
  case h_20 => cases h
  all_goals
    next hop =>
    obtain rfl := eq_ofNat_of_toNat hop
    obtain ⟨rfl, rfl, hpk, rfl⟩ := rejectStray_eq_ok.mp h
    obtain rfl : pkind = 0 := by simpa using hpk
    rfl

/-- A CMD word that decodes is the word of its operation. -/
theorem encode_of_decodeCmd {w : Word} {i : Instr} (h : decodeCmd w = .ok i) :
    encode i = .cmd w := by
  unfold decodeCmd decodeFields at h
  split at h
  · cases h
  · next hr =>
    have reserved : (cmdFields w).reserved = 0 := by simpa using hr
    rw [encode_of_decodeOp h, ← reserved]
    exact congrArg _ (word_cmdFields w)

/-- A command byte that decodes is the byte of its instruction (R93). -/
theorem encode_of_decodeBusCmd {b : Byte} {i : Instr} (h : decodeBusCmd b = .ok i) :
    encode i = .busCmd b := by
  unfold decodeBusCmd at h
  split at h
  case h_4 => cases h
  all_goals
    next hb =>
    obtain rfl := eq_ofNat_of_toNat hb
    cases h
    rfl

/-- Decoding inverts encoding. -/
theorem decode_encode (i : Instr) : decode (encode i) = .ok i := by
  cases i with
  | radioJoin mode => cases mode <;> rfl
  | radioSend conf => cases conf <;> rfl
  | _ => rfl

/-- Settles O2: an instruction's word decodes to it (`decode_encode`), and a word that decodes to an
instruction is its word, format by format. -/
theorem decodeExactlyEncode : Obligations.DecodeExactlyEncode := by
  refine fun iw i => ⟨fun h => ?_, fun h => h ▸ decode_encode i⟩
  cases iw with
  | cmd w => exact (encode_of_decodeCmd h).symm
  | busCmd b => exact (encode_of_decodeBusCmd h).symm

/-! ## Legal words (R83) -/

/-- The fields of a legal word (R83). -/
theorem wellFormed_iff (f : CmdFields) :
    f.wellFormed = true ↔
      f.op ∈ CmdFields.opCodes ∧ f.reserved = 0 ∧ (f.conf = true → f.op = 0x43)
        ∧ (f.mode = true → f.op = 0x42) ∧ (f.pkind ≠ 0 → f.op = 0x40) ∧ f.pkind ≠ 3 := by
  simp [CmdFields.wellFormed, CmdFields.opKnown, CmdFields.reservedClear, CmdFields.confAllowed,
    CmdFields.modeAllowed, CmdFields.pkindAllowed, CmdFields.pkindLegal, and_assoc,
    ← Bool.not_eq_true, imp_iff_not_or]

/-- The CMD word of every operation is legal. -/
theorem wellFormed_of_encode {w : Word} {i : Instr} (h : encode i = .cmd w) :
    (cmdFields w).wellFormed = true := by
  cases i with
  | radioJoin mode => cases mode <;> (cases h; rfl)
  | radioSend conf => cases conf <;> (cases h; rfl)
  | _ => cases h <;> rfl

/-- Every legal combination of fields is some operation's. -/
theorem decodeOp_of_legal {op : Byte} {conf mode : Bool} {pkind : BitVec 2}
    (hop : op ∈ CmdFields.opCodes) (hconf : conf = true → op = 0x43)
    (hmode : mode = true → op = 0x42) (hpkind : pkind ≠ 0 → op = 0x40) (hlegal : pkind ≠ 3) :
    ∃ i, decodeOp op conf mode pkind = .ok i := by
  by_cases h40 : op = 0x40
  · subst h40
    obtain rfl : conf = false := by simpa using hconf
    obtain rfl : mode = false := by simpa using hmode
    have kinds : ∀ k : BitVec 2, k ≠ 3 → k = 0 ∨ k = 1 ∨ k = 2 := by decide
    obtain rfl | rfl | rfl := kinds pkind hlegal <;> exact ⟨_, rfl⟩
  obtain rfl : pkind = 0 := by_contra fun h => h40 (hpkind h)
  by_cases h42 : op = 0x42
  · subst h42
    obtain rfl : conf = false := by simpa using hconf
    exact ⟨_, rfl⟩
  obtain rfl : mode = false := Bool.eq_false_iff.mpr fun h => h42 (hmode h)
  by_cases h43 : op = 0x43
  · subst h43
    exact ⟨_, rfl⟩
  obtain rfl : conf = false := Bool.eq_false_iff.mpr fun h => h43 (hconf h)
  simp only [CmdFields.opCodes, List.mem_cons, List.not_mem_nil, h40, h42, h43, false_or,
    or_false] at hop
  obtain rfl | rfl | rfl | rfl | rfl | rfl | rfl | rfl | rfl | rfl | rfl | rfl | rfl | rfl | rfl
    | rfl := hop <;> exact ⟨_, rfl⟩

/-- The words of operations are the legal ones (R82, R83). -/
theorem exists_decodeCmd_iff (w : Word) :
    (∃ i, decodeCmd w = .ok i) ↔ (cmdFields w).wellFormed = true := by
  refine ⟨fun ⟨i, hi⟩ => wellFormed_of_encode (encode_of_decodeCmd hi), fun h => ?_⟩
  obtain ⟨hop, hreserved, hconf, hmode, hpkind, hlegal⟩ := (wellFormed_iff _).mp h
  simp only [decodeCmd, decodeFields, hreserved]
  exact decodeOp_of_legal hop hconf hmode hpkind hlegal

/-- R83's conditions as arithmetic on the word (R80). -/
theorem wellFormed_cmdFields_iff (w : Word) :
    (cmdFields w).wellFormed = true ↔
      w.toNat % 256 ∈ [0x01, 0x02, 0x03, 0x04, 0x05, 0x10, 0x20, 0x21, 0x22, 0x30,
          0x40, 0x41, 0x42, 0x43, 0x44, 0x45, 0x46, 0x47, 0x48]
        ∧ w.toNat / 4096 = 0
        ∧ (w.toNat / 256 % 2 = 1 → w.toNat % 256 = 0x43)
        ∧ (w.toNat / 512 % 2 = 1 → w.toNat % 256 = 0x42)
        ∧ (w.toNat / 1024 % 4 ≠ 0 → w.toNat % 256 = 0x40)
        ∧ w.toNat / 1024 % 4 ≠ 3 := by
  have op : (cmdFields w).op.toNat = w.toNat % 256 := by simp [cmdFields]
  have conf : (cmdFields w).conf = true ↔ w.toNat / 256 % 2 = 1 := by
    simp [cmdFields, BitVec.getLsbD, Nat.testBit_eq_decide_div_mod_eq]
  have mode : (cmdFields w).mode = true ↔ w.toNat / 512 % 2 = 1 := by
    simp [cmdFields, BitVec.getLsbD, Nat.testBit_eq_decide_div_mod_eq]
  have pkind : (cmdFields w).pkind.toNat = w.toNat / 1024 % 4 := by
    simp [cmdFields, Nat.shiftRight_eq_div_pow]
  have reserved : (cmdFields w).reserved.toNat = w.toNat / 4096 := by
    simp [cmdFields, Nat.shiftRight_eq_div_pow]; omega
  rw [wellFormed_iff]
  simp [CmdFields.opCodes, ← BitVec.toNat_inj, op, conf, mode, pkind, reserved]

namespace Machine

/-- Settles O3: the words that decode are the legal ones (`exists_decodeCmd_iff`), and an idle block
refuses to issue a word that does not decode. -/
theorem illegalWordsAreRefused : Obligations.IllegalWordsAreRefused := by
  intro w op legal
  have decodes : (∃ i, decodeCmd w = .ok i) ↔ legal :=
    (exists_decodeCmd_iff w).trans (wellFormed_cmdFields_iff w)
  refine ⟨decodes, fun s hs hlegal => ?_⟩
  rw [serve, hostWriteReg_cmd hs, hostIssue]
  cases hd : decodeCmd w with
  | ok i => exact absurd (decodes.mp ⟨i, hd⟩) hlegal
  | error r => rfl

end Machine

end Sys2Proof

/-! The text forms of bytes and numbers (30_encoding.md section 4). -/
namespace Sys2Proof.Machine

/-! ## Hex text (R101, R111) -/

theorem hexText_length (bs : List Byte) : (hexText bs).length = 2 * bs.length := by
  induction bs with
  | nil => rfl
  | cons b bs ih => simp only [hexText, List.length_cons, ih]; omega

/-- Byte `k` stands in characters `2k` and `2k + 1`, its high nibble first. -/
theorem hexText_getElem? {bs : List Byte} {k : Nat} {v : Byte} (h : bs[k]? = some v) :
    (hexText bs)[2 * k]? = some (hexChar (v.extractLsb' 4 4))
      ∧ (hexText bs)[2 * k + 1]? = some (hexChar (v.extractLsb' 0 4)) := by
  induction bs generalizing k with
  | nil => simp at h
  | cons b bs ih =>
    cases k with
    | zero =>
      obtain rfl : b = v := by simpa using h
      exact ⟨rfl, rfl⟩
    | succ k => exact ih (by simpa using h)

theorem hexVal?_hexChar (n : BitVec 4) : hexVal? (hexChar n) = some n := by
  revert n; decide

/-- The hex text of a nibble is a hex digit, so that no free value is used for it. -/
theorem hexNibble_hexChar (n : Nat) (v : BitVec 4) : hexNibble n (hexChar v) = (v, n) := by
  simp only [hexNibble, hexVal?_hexChar]

theorem nibbles_append (b : Byte) : b.extractLsb' 4 4 ++ b.extractLsb' 0 4 = b :=
  BitVec.extractLsb'_append_extractLsb'

/-- Hex text reads back as the byte string, and uses no free value. -/
theorem hexBytes_hexText (n : Nat) (bs : List Byte) :
    hexBytes bs.length n (hexText bs) = (bs, n) := by
  induction bs with
  | nil => rfl
  | cons b bs ih => 
    simp only [hexText, List.length_cons, hexBytes, hexNibble_hexChar, ih, nibbles_append]

/-- Settles O4: the digits one by one, the text by induction on the byte string. -/
theorem hexTextOfBytes : Obligations.HexTextOfBytes := by
  refine ⟨by decide, fun bs => ⟨hexText_length bs, fun k v => hexText_getElem?, fun n => ?_⟩⟩
  exact hexBytes_hexText n bs

/-! ## Decimal text (R102) -/

/-- The character of a decimal digit. -/
def digitChar (d : Nat) : Byte := BitVec.ofNat 8 (0x30 + d)

theorem digitChar_toNat {d : Nat} (h : d < 10) : (digitChar d).toNat = 0x30 + d := by
  simp only [digitChar, BitVec.toNat_ofNat]; omega

/-- The decimal text of a positive number: its base-10 digits, most significant first. -/
theorem decDigits_eq {fuel n : Nat} (acc : List Byte) (hn : 0 < n) (hf : n < fuel) :
    decDigits fuel n acc = (Nat.digits 10 n).reverse.map digitChar ++ acc := by
  induction fuel generalizing n acc with
  | zero => omega
  | succ fuel ih =>
    rw [decDigits]
    split
    · next h => rw [Nat.digits_of_lt 10 n hn.ne' h]; rfl
    · next h =>
      rw [ih _ (by omega) (by omega), Nat.digits_def' (by omega) hn]
      simp [digitChar]

theorem decText_zero : decText 0 = [0x30] := rfl

theorem decText_of_pos {n : Nat} (hn : 0 < n) :
    decText n = (Nat.digits 10 n).reverse.map digitChar := by
  rw [decText, decDigits_eq [] hn (Nat.lt_succ_self n), List.append_nil]

/-- Every number's text is the characters of digits, least significant last, that have its value. -/
theorem exists_digits_decText (n : Nat) :
    ∃ ds, decText n = ds.reverse.map digitChar ∧ (∀ d ∈ ds, d < 10) ∧ Nat.ofDigits 10 ds = n := by
  rcases Nat.eq_zero_or_pos n with rfl | hn
  · exact ⟨[0], rfl, by simp, rfl⟩
  · exact ⟨_, decText_of_pos hn, fun d => Nat.digits_lt_base (by omega), Nat.ofDigits_digits 10 n⟩

/-- The value of a text, its characters read from the left. -/
theorem foldl_digitChars (ds : List Nat) (h : ∀ d ∈ ds, d < 10) :
    (ds.reverse.map digitChar).foldl (fun acc ch => 10 * acc + (ch.toNat - 0x30)) 0
      = Nat.ofDigits 10 ds := by
  induction ds with
  | nil => rfl
  | cons d ds ih =>
    have digit := digitChar_toNat (h d List.mem_cons_self)
    simp only [List.reverse_cons, List.map_append, List.map_cons, List.map_nil, List.foldl_append,
      List.foldl_cons, List.foldl_nil, Nat.ofDigits_cons, digit,
      ih fun e he => h e (List.mem_cons_of_mem _ he)]
    omega

/-- A positive number's first digit is not 0. -/
theorem decText_head?_of_pos {n : Nat} (hn : 0 < n) :
    ∃ d, d ≠ 0 ∧ d < 10 ∧ (decText n).head? = some (digitChar d) := by
  have hne : Nat.digits 10 n ≠ [] := Nat.digits_ne_nil_iff_ne_zero.mpr hn.ne'
  have hlt := Nat.digits_lt_base (b := 10) (by omega) (List.getLast_mem hne)
  refine ⟨_, Nat.getLast_digit_ne_zero 10 hn.ne', hlt, ?_⟩
  rw [decText_of_pos hn, List.head?_map, List.head?_reverse, List.getLast?_eq_getLast_of_ne_nil hne]
  rfl

/-- A number's text begins with '0' for the number 0 only. -/
theorem decText_head?_iff (n : Nat) : (decText n).head? = some 0x30 ↔ n = 0 := by
  refine ⟨fun h => ?_, fun h => h ▸ rfl⟩
  by_contra hn
  obtain ⟨d, hd, hlt, hhead⟩ := decText_head?_of_pos (Nat.pos_of_ne_zero hn)
  have char : digitChar d = 0x30 := by simpa [hhead] using h
  exact hd (by simpa [char] using digitChar_toNat hlt)

theorem decText_ne_nil (n : Nat) : decText n ≠ [] := by
  rcases Nat.eq_zero_or_pos n with rfl | hn
  · simp [decText_zero]
  · obtain ⟨d, -, -, hhead⟩ := decText_head?_of_pos hn
    intro h
    simp [h] at hhead

/-- Settles O5: the text is the number's base-10 digits, whose bounds and value the library has. -/
theorem decimalTextOfNumber : Obligations.DecimalTextOfNumber := by
  intro n
  obtain ⟨ds, htext, hlt, hvalue⟩ := exists_digits_decText n
  refine ⟨fun ch hch => ?_, ?_, decText_head?_iff n, fun h => h ▸ rfl, decText_ne_nil n⟩
  · obtain ⟨d, hd, rfl⟩ := List.mem_map.mp (htext ▸ hch)
    have small := hlt d (List.mem_reverse.mp hd)
    rw [digitChar_toNat small]
    omega
  · rw [htext, foldl_digitChars ds hlt, hvalue]

end Sys2Proof.Machine

/-! What an instruction's bytes take on its interface, and that an instruction uses one interface
only (30_encoding.md R84, R92, R93, R100). -/
namespace Sys2Proof.Machine

/-! ## Sensor command bytes (R92, R93) -/

/-- A byte sent alone takes eight write slots and nothing more (log 4). -/
theorem runPart_busCmdProg {c : Config} (h : SlotsFit c) (s : State) (v : Byte) :
    runPart (busCmdProg c v) s =
      .next (s.afterSlots (writeByteEvents c s.timeUs v) (8 * c.tSlot)) := by
  rw [runPart, busCmdProg, run_writeByte c s v _ h, Prog.run_ret]

/-- Settles O26: each command byte's meaning is its byte sent alone. -/
theorem sensorCommandBytesEffect : Obligations.SensorCommandBytesEffect := by
  intro s h
  have alone := runPart_busCmdProg (slotsFit h) s
  exact ⟨alone 0xCC, alone 0x44, alone 0xBE⟩

/-! ## Serial characters (R100, R170) -/

/-- A character is ten bits, 3125 ticks of 1/18 µs (R100). -/
theorem charTicks_eq (b : Byte) : charTicks b = 3125 := by
  simp [charTicks, uartFrame, ticksPerUs, Config.baud]

/-- The whole microseconds of a string's characters, and the part of one left over (log 8). -/
theorem afterSend_time (s : State) (bytes : List Byte) :
    (s.afterSend bytes).timeUs = s.timeUs + us ((s.timeSub.val + 3125 * bytes.length) / 18)
      ∧ (s.afterSend bytes).timeSub.val = (s.timeSub.val + 3125 * bytes.length) % 18 := by
  induction bytes generalizing s with
  | nil =>
    have part := s.timeSub.isLt
    have whole : s.timeSub.val / 18 = 0 := by omega
    simp [State.afterSend, whole]
    omega
  | cons b bytes ih =>
    obtain ⟨hus, hsub⟩ := ih (s.uartSend b)
    have part : (s.uartSend b).timeSub.val = (s.timeSub.val + 3125) % 18 := by
      simp [tickSub, charTicks_eq]
    have whole : (s.uartSend b).timeUs = s.timeUs + us ((s.timeSub.val + 3125) / 18) := by
      simp [tickUs, charTicks_eq, ticksPerUs]
    rw [part] at hus hsub
    rw [afterSend_cons, hus, hsub, whole, BitVec.add_assoc, us_add, List.length_cons]
    exact ⟨by congr 2; omega, by omega⟩

/-- Settles O35, by induction on the bytes: the part of a microsecond that one character leaves over
is added to the next. -/
theorem sendingTakesCharacterTimes : Obligations.SendingTakesCharacterTimes :=
  fun s bytes => ⟨State.afterSend_trace s bytes, afterSend_time s bytes⟩

/-! ## What a whole instruction keeps (R84) -/

/-- What the lines an instruction may hold keep, the draws, and an operation's issue and end, the
whole instruction keeps. -/
theorem exec_rel {i : Instr} {R : State → State → Prop} (refl : ∀ s, R s s)
    (trans : ∀ s t u, R s t → R t u → R s u) (act : ∀ a s, i.mayDo a → R s (a.apply s))
    (sample : ∀ s, i.usesBus = true → R s s.afterSample)
    (recv : ∀ s tmo, i.usesSerial = true → R s (s.afterRecv tmo)) (free : ∀ s, R s s.useFree)
    (issue : i.isOperation = true → ∀ s, R s (s.issue i))
    (fin : i.isOperation = true → ∀ s v, R s (s.endOp v))
    {s t : State} (h : exec i s = .next t) : R s t := by
  have run {s u : State} {v : Word} : (program s.params i).run s = .next (v, u) → R s u :=
    Prog.run_rel refl trans act sample recv free (within_program _ i)
  cases hi : i.isOperation with
  | true =>
    obtain ⟨v, u, hu, rfl⟩ := run_of_exec hi h
    exact trans _ _ _ (trans _ _ _ (issue hi s) (run (s := s.issue i) hu)) (fin hi u v)
  | false =>
    obtain ⟨v, hv⟩ := run_of_exec_part hi h
    exact run hv

/-! ## The two interfaces (R76, R84) -/

/-- An event of the single-wire bus (R13). -/
def Event.OnBus (e : Event) : Prop :=
  (∃ u, e = .busLow u ∨ e = .busRel u) ∨ ∃ u l, e = .busSmp u l

/-- An event of the serial link (R13). -/
def Event.OnLink (e : Event) : Prop :=
  (∃ b, e = .tx b ∨ e = .rx b) ∨ e = .rxTimeout ∨ ∃ n, e = .txBreak n

/-- TRACE has grown by events of one interface, and what `f` says of the other is as before. -/
def Appends {α : Type} (E : Event → Prop) (f : State → α) (s t : State) : Prop :=
  ∃ ev, t.trace = s.trace ++ ev ∧ (∀ e ∈ ev, E e) ∧ f t = f s

section
variable {α : Type} {E : Event → Prop} {f : State → α}

theorem Appends.of_same {s t : State} (ht : t.trace = s.trace) (hf : f t = f s) : Appends E f s t :=
  ⟨[], by simp [ht], by simp, hf⟩

theorem Appends.of_one {s t : State} {e : Event} (he : E e) (ht : t.trace = s.trace ++ [e])
    (hf : f t = f s) : Appends E f s t := ⟨[e], ht, by simpa using he, hf⟩

theorem Appends.trans {s t u : State} (h : Appends E f s t) (h' : Appends E f t u) :
    Appends E f s u := by
  obtain ⟨ev, ht, he, hf⟩ := h
  obtain ⟨ev', ht', he', hf'⟩ := h'
  refine ⟨ev ++ ev', by rw [ht', ht, List.append_assoc], fun e hm => ?_, hf'.trans hf⟩
  exact (List.mem_append.mp hm).elim (he e) (he' e)

end

/-- The serial side, which the bus leaves alone: the draws and the part of a microsecond. -/
def State.linkSide (s : State) : List RxDraw × RxDraw × Fin 18 :=
  (s.env.rx, s.env.rxRest, s.timeSub)

/-- The bus side, which the serial link leaves alone: the draws and BUS_DRIVE. -/
def State.busSide (s : State) : List Bool × Bool × Bool := (s.env.bus, s.env.busRest, s.busDrive)

/-- An instruction that does not use the serial link leaves its draws, its time and its events
alone. -/
theorem exec_appends_bus {i : Instr} {s t : State} (hi : i.usesSerial = false)
    (h : exec i s = .next t) : Appends Event.OnBus State.linkSide s t := by
  have line (a : Act) (s : State) (ha : i.mayDo a) :
      Appends Event.OnBus State.linkSide s (a.apply s) := by
    cases a
    case busDriveLow => exact .of_one (.inl ⟨_, .inl rfl⟩) rfl rfl
    case busRelease => exact .of_one (.inl ⟨_, .inr rfl⟩) rfl rfl
    case uartSend => exact absurd ha (Bool.eq_false_iff.mp hi)
    case breakStart => exact absurd ha (Bool.eq_false_iff.mp hi)
    all_goals exact .of_same rfl rfl
  exact exec_rel (fun _ => .of_same rfl rfl) (fun _ _ _ => .trans) line
    (fun _ _ => .of_one (.inr ⟨_, _, rfl⟩) rfl rfl)
    (fun _ _ hl => absurd hl (Bool.eq_false_iff.mp hi))
    (fun _ => .of_same rfl rfl) (fun _ _ => .of_same rfl rfl) (fun _ _ _ => .of_same rfl rfl) h

theorem RxDraw.event_onLink (d : RxDraw) : d.event.OnLink := by
  cases d with
  | byte b _ => exact .inl ⟨b, .inr rfl⟩
  | timeout => exact .inr (.inl rfl)

/-- An instruction that does not use the bus leaves its draws, its line and its events alone. -/
theorem exec_appends_link {i : Instr} {s t : State} (hi : i.usesBus = false)
    (h : exec i s = .next t) : Appends Event.OnLink State.busSide s t := by
  have line (a : Act) (s : State) (ha : i.mayDo a) :
      Appends Event.OnLink State.busSide s (a.apply s) := by
    cases a
    case busDriveLow => exact absurd ha (Bool.eq_false_iff.mp hi)
    case busRelease => exact absurd ha (Bool.eq_false_iff.mp hi)
    case uartSend => exact .of_one (.inl ⟨_, .inl rfl⟩) rfl rfl
    case breakStart => exact .of_one (.inr (.inr ⟨_, rfl⟩)) rfl rfl
    all_goals exact .of_same rfl rfl
  exact exec_rel (fun _ => .of_same rfl rfl) (fun _ _ _ => .trans) line
    (fun _ hb => absurd hb (Bool.eq_false_iff.mp hi))
    (fun s _ _ => .of_one s.env.rxDraw.event_onLink rfl rfl) (fun _ => .of_same rfl rfl)
    (fun _ _ => .of_same rfl rfl) (fun _ _ _ => .of_same rfl rfl) h

/-- No row of R84 names both interfaces. -/
theorem not_usesBoth (i : Instr) : i.usesSerial = false ∨ i.usesBus = false := by
  cases i <;> simp [Instr.usesSerial, Instr.usesBus]

/-- Settles O51: by R84's table an instruction leaves one of the two interfaces unused. -/
theorem oneInterfaceEach : Obligations.OneInterfaceEach := by
  intro i s t h
  rcases not_usesBoth i with hi | hi
  · obtain ⟨ev, ht, he, hf⟩ := exec_appends_bus hi h
    obtain ⟨hrx, hrest, hsub⟩ : _ ∧ _ ∧ _ := by simpa [State.linkSide] using hf
    exact ⟨ev, ht, .inl ⟨he, hrx, hrest, hsub⟩⟩
  · obtain ⟨ev, ht, he, hf⟩ := exec_appends_link hi h
    obtain ⟨hbus, hrest, hdrive⟩ : _ ∧ _ ∧ _ := by simpa [State.busSide] using hf
    exact ⟨ev, ht, .inr ⟨he, hbus, hrest, hdrive⟩⟩

end Sys2Proof.Machine

/-! The frame of every instruction (30_encoding.md R84). -/
namespace Sys2Proof.Machine

/-! ## Parts of the state an instruction does not write -/

/-- A part of the state that the draws, an issue and an end leave alone. -/
structure Unmoved {α : Type} (i : Instr) (f : State → α) : Prop where
  sample : ∀ s, f s.afterSample = f s := by intros; rfl
  recv : ∀ s tmo, f (s.afterRecv tmo) = f s := by intros; rfl
  free : ∀ s, f s.useFree = f s := by intros; rfl
  issue : i.isOperation = true → ∀ s, f (s.issue i) = f s := by intros; rfl
  fin : i.isOperation = true → ∀ s v, f (s.endOp v) = f s := by intros; rfl

/-- Such a part is as before after an instruction whose lines leave it alone. -/
theorem exec_keeps {α : Type} {i : Instr} {f : State → α} {s t : State} (hf : Unmoved i f)
    (act : ∀ a s, i.mayDo a → f (a.apply s) = f s) (h : exec i s = .next t) : f t = f s :=
  exec_rel (R := fun s t => f t = f s) (fun _ => rfl) (fun _ _ _ h1 h2 => h2.trans h1) act
    (fun s _ => hf.sample s) (fun s tmo _ => hf.recv s tmo) hf.free hf.issue hf.fin h

/-- The values of a STATUS field (R26). -/
abbrev StatusField.Value : StatusField → Type
  | .presence | .crcOk | .timedOut | .rxPending => Bool
  | .lineEnd => LineEnd
  | .joinState => JoinState
  | .variant => Variant

/-- A STATUS field's value. -/
def State.field (s : State) : (f : StatusField) → f.Value
  | .presence => s.presence
  | .crcOk => s.crcOk
  | .timedOut => s.timedOut
  | .rxPending => s.rxPending
  | .lineEnd => s.lineEnd
  | .joinState => s.joinState
  | .variant => s.variant

section
variable {i : Instr} {a : Act} {s t : State}

/-- A line sets a STATUS field only where R84's table has it. -/
theorem Act.apply_field (f : StatusField) (ha : i.mayDo a) (hf : opWritesField i f = false) :
    (a.apply s).field f = s.field f := by
  cases a with
  | setPresence | setCrcOk | setTimedOut | setRxPending | setLineEnd | setJoinState | setVariant =>
    cases f <;> first | rfl | exact absurd ha (Bool.eq_false_iff.mp hf)
  | _ => rfl

/-- A line sets a register only where R84's table has it. -/
theorem Act.apply_readReg {r : Reg} (ha : i.mayDo a) (hs : r ≠ .status)
    (hr : opWritesReg i r = false) :
    (a.apply s).readReg r = s.readReg r := by
  cases a with
  | setPresence | setCrcOk | setTimedOut | setRxPending | setLineEnd | setJoinState | setVariant =>
    cases r <;> first | rfl | exact absurd rfl hs
  | setLineLen | setRxpayLen | setTempRaw =>
    cases r <;> first | rfl | exact absurd ha (Bool.eq_false_iff.mp hr)
  | _ => rfl

/-- A line stores in a buffer only where R61's table has it. -/
theorem Act.apply_byte? {b : Buf} {j : Nat} (ha : i.mayDo a) (hb : opWritesBuf i b = false) :
    (a.apply s).byte? b j = s.byte? b j := by
  cases a
  case store b' j' v =>
    refine State.byte?_writeByte_other s v (.inl fun h => ?_)
    subst h
    exact absurd ha (Bool.eq_false_iff.mp hb)
  all_goals rfl

end

/-- Only SEND writes RXPAY and RXPAY_LEN (R84). -/
theorem eq_radioSend_of_writes {i : Instr} (h : opWritesBuf i .rxpay = true) :
    ∃ conf, i = .radioSend conf := by
  simp only [opWritesBuf, Bool.or_eq_true, beq_iff_eq] at h
  exact h.elim (fun h => ⟨_, h⟩) fun h => ⟨_, h⟩

section
variable {i : Instr} {s t : State} (h : exec i s = .next t)
include h

theorem exec_field (f : StatusField) (hf : opWritesField i f = false) : t.field f = s.field f :=
  exec_keeps (f := fun s => s.field f) (by cases f <;> exact {})
    (fun _ _ ha => Act.apply_field f ha hf) h

theorem exec_readReg {r : Reg} (hs : r ≠ .status) (hr : opWritesReg i r = false) :
    t.readReg r = s.readReg r := by
  have unmoved : Unmoved i fun s => s.readReg r := by
    cases r
    case status => exact absurd rfl hs
    case result => exact { fin := fun hi => absurd hi (Bool.eq_false_iff.mp hr) }
    all_goals exact {}
  exact exec_keeps unmoved (fun _ _ ha => Act.apply_readReg ha hs hr) h

theorem exec_byte? {b : Buf} {j : Nat} (hb : opWritesBuf i b = false) : t.byte? b j = s.byte? b j :=
  exec_keeps (f := fun s => s.byte? b j) {} (fun _ _ ha => Act.apply_byte? ha hb) h

/-- A sensor command byte is not issued and has no end (log 4). -/
theorem exec_part_done_seq (hi : i.isOperation = false) : t.done = s.done ∧ t.seq = s.seq := by
  have unmoved : Unmoved i fun s => (s.done, s.seq) :=
    { issue := fun ho => absurd ho (Bool.eq_false_iff.mp hi)
      fin := fun ho => absurd ho (Bool.eq_false_iff.mp hi) }
  exact Prod.mk.inj (exec_keeps unmoved (fun a _ _ => by cases a <;> rfl) h)

theorem exec_params : t.params = s.params :=
  exec_keeps (i := i) (f := State.params) {} (fun a u _ => Act.apply_params a u) h

/-- No instruction writes an operand, the host's requests or what the host has read. -/
theorem exec_operands :
    t.arg0 = s.arg0 ∧ t.arg1 = s.arg1 ∧ t.opaLen = s.opaLen ∧ t.opbLen = s.opbLen
      ∧ t.adr = s.adr ∧ t.inputs = s.inputs ∧ t.hostData = s.hostData := by
  simpa using exec_keeps (i := i) (f := fun s => (s.arg0, s.arg1, s.opaLen, s.opbLen, s.adr,
    s.inputs, s.hostData)) {} (fun a _ _ => by cases a <;> rfl) h

/-- Only an instruction that reads a line changes what is held past a line or a payload (log 10). -/
theorem exec_heldCount (hi : opReadsLine i = false) : t.heldCount = s.heldCount := by
  refine exec_keeps (f := State.heldCount) {} (fun a u ha => ?_) h
  cases a
  case setLineLen => exact absurd ha (Bool.eq_false_iff.mp hi)
  case setRxpayLen =>
    obtain ⟨conf, rfl⟩ := eq_radioSend_of_writes ha
    cases hi
  all_goals rfl

end

end Sys2Proof.Machine

/-! Where instructions store: what stays of the buffers' bytes (30_encoding.md R84, column "buffers
written"). -/
namespace Sys2Proof.Machine

/-! ## Stores are inside their buffers -/

/-- A line that is in order stores nothing past a buffer's end. -/
theorem Act.apply_byte?_beyond {a : Act} {c : Config} {k : Track} {s : State} {b : Buf} {j : Nat}
    (ha : k.allows c a) (hj : b.size c ≤ j) : (a.apply s).byte? b j = s.byte? b j := by
  cases a with
  | store b' j' v =>
    refine State.byte?_writeByte_other s v (or_iff_not_imp_left.mpr fun hb => ?_)
    obtain rfl : b = b' := not_not.mp hb
    exact (Nat.lt_of_lt_of_le ha hj).ne'
  | _ => rfl

/-- Nor does pseudocode that is in order. -/
theorem Prog.run_byte?_beyond {c : Config} {p : Prog} {k : Track} {s u : State} {v : Word} {b : Buf}
    {j : Nat} (hp : p.Safe c k) (hj : b.size c ≤ j) (h : p.run s = .next (v, u)) :
    u.byte? b j = s.byte? b j := by
  induction p generalizing s k with
  | ret w => cases h; rfl
  | act a p ih => exact (ih hp.2 h).trans (Act.apply_byte?_beyond hp.1 hj)
  | sample f ih => exact ih _ (s := s.afterSample) (hp.2 _) h
  | recv tmo f ih => exact ih _ (s := s.afterRecv tmo) (hp _) h
  | nibble f ih => exact ih _ (s := s.useFree) (hp _) h
  | load b j f ih =>
    simp only [Prog.run] at h
    split at h
    · exact ih _ (hp _) h
    · cases h
  | reg r f ih => exact ih _ (hp _) h
  | refuse r => cases h

/-- No instruction stores past a buffer's end (R62). -/
theorem exec_byte?_beyond {i : Instr} {s t : State} {b : Buf} {j : Nat} (hj : b.size s.params ≤ j)
    (h : exec i s = .next t) : t.byte? b j = s.byte? b j := by
  have safe := safe_program s.params i Track.start_idle
  cases hi : i.isOperation with
  | true =>
    obtain ⟨v, u, hu, rfl⟩ := run_of_exec hi h
    have kept : u.byte? b j = (s.issue i).byte? b j := Prog.run_byte?_beyond safe hj hu
    exact kept
  | false =>
    obtain ⟨v, hv⟩ := run_of_exec_part hi h
    exact Prog.run_byte?_beyond safe hj hv

/-! ## Pseudocode that went on: what it must have found -/

section
variable {s : State} {r : Word × State}

theorem load_next {b : Buf} {j : Nat} {k : Byte → Prog} (h : (Prog.load b j k).run s = .next r) :
    ∃ v, (k v).run s = .next r := by
  simp only [Prog.run] at h
  split at h
  · exact ⟨_, h⟩
  · cases h

theorem loadBytes_next {b : Buf} {j n : Nat} {k : List Byte → Prog}
    (h : (loadBytes b j n k).run s = .next r) : ∃ vs, vs.length = n ∧ (k vs).run s = .next r := by
  induction n generalizing j k with
  | zero => exact ⟨[], rfl, h⟩
  | succ n ih =>
    obtain ⟨v, h⟩ := load_next h
    obtain ⟨vs, hvs, h⟩ := ih h
    exact ⟨v :: vs, congrArg _ hvs, h⟩

/-- A byte-string operand is shorter than 2^32 bytes, since a register holds its length (R36). -/
theorem loadOperand_next {b : Buf} {len : Reg} {k : List Byte → Prog}
    (h : (loadOperand b len k).run s = .next r) :
    ∃ vs, vs.length < 4294967296 ∧ (k vs).run s = .next r := by
  obtain ⟨vs, hvs, h⟩ := loadBytes_next (n := (s.readReg len).toNat) h
  exact ⟨vs, hvs ▸ (s.readReg len).isLt, h⟩

theorem classifyProg_next {c : Config} (h : (classifyProg c).run s = .next r) : r.2 = s := by
  obtain ⟨line, -, h⟩ := loadOperand_next h
  cases h
  rfl

theorem payloadLength_next {j n : Nat} {k : Nat → Prog}
    (h : (payloadLength j n k).run s = .next r) : ∃ len, (k len).run s = .next r := by
  induction n generalizing j with
  | zero => exact ⟨j, h⟩
  | succ n ih =>
    obtain ⟨b, h⟩ := load_next h
    split at h
    · exact ⟨j, h⟩
    · exact ih h

theorem hexVal_next {ch : Byte} {k : BitVec 4 → Prog} (h : (hexVal ch k).run s = .next r) :
    ∃ v s', s'.mem = s.mem ∧ (k v).run s' = .next r := by
  unfold hexVal at h
  split at h
  · exact ⟨_, s, rfl, h⟩
  · exact ⟨_, s.useFree, rfl, h⟩

end

/-! ## OUTBUF (R216) -/

/-- The copy loop stores from `j` up to the count it returns. -/
theorem copyLoop_next {len room j p : Nat} {s u : State} {v : Word}
    (h : (copyLoop len room j p).run s = .next (v, u)) :
    ∃ m, j ≤ m ∧ m ≤ j + room ∧ v = wordOfNat m
      ∧ ∀ i, m ≤ i → u.byte? .outbuf i = s.byte? .outbuf i := by
  induction room generalizing j p s with
  | zero => cases h; exact ⟨j, le_rfl, le_rfl, rfl, fun _ _ => rfl⟩
  | succ room ih =>
    rw [copyLoop] at h
    split at h
    · obtain ⟨c1, h⟩ := load_next h
      obtain ⟨hi, s1, hs1, h⟩ := hexVal_next h
      obtain ⟨c2, h⟩ := load_next h
      obtain ⟨lo, s2, hs2, h⟩ := hexVal_next h
      obtain ⟨m, hj, hm, hv, hkeep⟩ := ih h
      refine ⟨m, by omega, by omega, hv, fun i hi => ?_⟩
      rw [hkeep i hi, Act.apply, State.byte?_writeByte_other _ _ (.inr (by omega))]
      exact congrArg (Memory.get · _) (hs2.trans hs1)
    · cases h; exact ⟨j, le_rfl, by omega, rfl, fun _ _ => rfl⟩

/-- RECEIVE stores below the count it returns (R216). -/
theorem radioRecv_outbuf {s t : State} (h : exec .radioRecv s = .next t) {j : Nat}
    (hj : t.result.toNat ≤ j) : t.byte? .outbuf j = s.byte? .outbuf j := by
  obtain ⟨v, u, hu, rfl⟩ := run_of_exec rfl h
  rw [program, radioRecvProg, Prog.run_reg, Prog.run_reg] at hu
  split at hu
  · cases hu
  · rw [Prog.run_reg] at hu
    split at hu
    · obtain ⟨len, hu⟩ := payloadLength_next hu
      split at hu
      · cases hu; rfl
      · obtain ⟨m, -, hm, rfl, hkeep⟩ := copyLoop_next hu
        have bound := ((s.issue .radioRecv).readReg .arg1).isLt
        rw [State.endOp_result, wordOfNat_toNat (by omega)] at hj
        exact hkeep j hj
    · cases hu; rfl

/-! ## RXPAY (R193, R208) -/

/-- From `s` to `u` RXPAY was stored to only below RXPAY_LEN, and not at all without RX_PENDING. -/
def PayKept (s u : State) : Prop :=
  ∀ j, ¬ (u.rxPending = true ∧ j < u.rxpayLen.toNat) → u.byte? .rxpay j = s.byte? .rxpay j

theorem PayKept.refl (s : State) : PayKept s s := fun _ _ => rfl

theorem PayKept.after {s s' u : State} (h : PayKept s' u)
    (hs : ∀ j, s'.byte? .rxpay j = s.byte? .rxpay j) : PayKept s u :=
  fun j hj => (h j hj).trans (hs j)

/-- A line goes to LINEBUF alone. -/
theorem byte?_afterLine (s : State) (r : RawLine) {b : Buf} (hb : b ≠ .linebuf) (j : Nat) :
    (s.afterLine r).byte? b j = s.byte? b j := by
  rw [State.byte?, State.afterLine_mem, get_putBytes, if_neg fun h => hb h.1]
  rfl

/-- A command exchange stores its reply in LINEBUF and nothing else, whatever the reply is
(R191). -/
theorem sendCmd_next {c : Config} {s : State} {r : Word × State} {text param : List Byte}
    {k : Bool → Prog} (hp : s.params = c) (h : (sendCmd c text param k).run s = .next r) :
    ∃ ok s', s'.params = c ∧ (∀ b j, b ≠ .linebuf → s'.byte? b j = s.byte? b j)
      ∧ (k ok).run s' = .next r := by
  rw [sendCmd, run_sendLine, run_readLine _ _ _ _ (by simpa using hp)] at h
  obtain ⟨line, -, h⟩ := loadOperand_next h
  refine ⟨_, _, by simpa using hp, fun b j hb => ?_, h⟩
  rw [byte?_afterLine _ _ hb, State.byte?, State.afterSend_mem]
  rfl

theorem downlinkPayload_length_le (line : List Byte) :
    (downlinkPayload line).length ≤ line.length := by
  have first := line.length_dropWhile_le (· != spaceChar)
  have second := ((line.dropWhile (· != spaceChar)).drop 1).length_dropWhile_le (· != spaceChar)
  simp only [downlinkPayload, List.length_drop] at second ⊢
  omega

/-- The parsed payload is stored below the length that is set with it (R193). -/
theorem payKept_parseDownlink {c : Config} {line : List Byte} {s u : State} {v w : Word}
    (hline : line.length < 4294967296)
    (h : (parseDownlink c line (.ret w)).run s = .next (v, u)) : PayKept s u := by
  have short := downlinkPayload_length_le line
  rw [parseDownlink, run_storeBytes] at h
  generalize htext : (downlinkPayload line).take c.rxpayCap = text at h
  have bound : text.length < 4294967296 := by
    rw [← htext, List.length_take]
    omega
  cases h
  intro j hj
  have beyond : ¬ j < text.length := fun hlt =>
    hj ⟨rfl, show j < (wordOfNat text.length).toNat by rwa [wordOfNat_toNat bound]⟩
  have kept : (putBytes s.mem .rxpay 0 text).get (Buf.rxpay.addr j) = s.byte? .rxpay j := by
    rw [get_putBytes, if_neg (by omega)]
    rfl
  exact kept

theorem payKept_receiveWindow {s u : State} {v : Word}
    (h : (receiveWindow s.params).run s = .next (v, u)) : PayKept s u := by
  rw [receiveWindow, run_readLine _ _ _ _ rfl] at h
  refine PayKept.after ?_ (byte?_afterLine s (s.nextLine s.params.tRxwinMs) (by simp))
  generalize s.afterLine (s.nextLine s.params.tRxwinMs) = s' at h ⊢
  split at h
  · cases h; exact .refl _
  · obtain ⟨_, -, h⟩ := loadOperand_next h
    dsimp only at h
    split at h
    · cases h; exact .refl _
    · obtain ⟨line, hline, h⟩ := loadOperand_next h
      split at h
      · exact payKept_parseDownlink hline h
      · cases classifyProg_next h; exact .refl _

/-- SEND stores in RXPAY what RXPAY_LEN counts, with RX_PENDING set (R208). -/
theorem radioSend_rxpay {conf : Bool} {s t : State} (h : exec (.radioSend conf) s = .next t) :
    PayKept s t := by
  obtain ⟨v, u, hu, rfl⟩ := run_of_exec rfl h
  suffices PayKept s u from this
  rw [program, radioSendProg, Prog.run_act, Prog.run_reg] at hu
  obtain ⟨payload, -, hu⟩ := loadOperand_next hu
  obtain ⟨ok, s', hp, hkeep, hu⟩ := sendCmd_next (by simp) hu
  refine PayKept.after (s' := s') ?_ fun j => hkeep .rxpay j (by simp)
  split at hu
  · exact payKept_receiveWindow (hp ▸ hu)
  · cases classifyProg_next hu; exact .refl _

/-! ## SCRATCH (R152)

A reset slot of any length stores nothing, and no other slot changes PRESENCE. -/

section
variable {c : Config} {s : State} {r : Word × State}

theorem resetSlot_next {k : Bool → Prog} (h : (resetSlot c k).run s = .next r) :
    ∃ p s', s'.mem = s.mem ∧ (k p).run s' = .next r := by
  simp only [resetSlot, Prog.run_act, Prog.run_sample, Act.apply] at h
  exact ⟨_, _, by simp, h⟩

theorem writeBits_next {bs : List Bool} {p : Prog} (h : (writeBits c bs p).run s = .next r) :
    ∃ s', s'.presence = s.presence ∧ p.run s' = .next r := by
  induction bs generalizing s with
  | nil => exact ⟨s, rfl, h⟩
  | cons b bs ih =>
    simp only [writeBits, writeSlot, Prog.run_act, Act.apply] at h
    obtain ⟨s', hs, h⟩ := ih h
    exact ⟨s', by simpa using hs, h⟩

theorem readBits_next {n : Nat} {k : List Bool → Prog} (h : (readBits c n k).run s = .next r) :
    ∃ ls s', s'.presence = s.presence ∧ (k ls).run s' = .next r := by
  induction n generalizing s k with
  | zero => exact ⟨[], s, rfl, h⟩
  | succ n ih =>
    simp only [readBits, readSlot, Prog.run_act, Prog.run_sample, Act.apply] at h
    obtain ⟨ls, s', hs, h⟩ := ih h
    exact ⟨_, s', by simpa using hs, h⟩

theorem readScratch_next {j n : Nat} {p : Prog} (h : (readScratch c j n p).run s = .next r) :
    ∃ s', s'.presence = s.presence ∧ p.run s' = .next r := by
  induction n generalizing s j with
  | zero => exact ⟨s, rfl, h⟩
  | succ n ih =>
    obtain ⟨ls, s1, h1, h⟩ := readBits_next h
    obtain ⟨s2, h2, h⟩ := ih h
    exact ⟨s2, h2.trans h1, h⟩

theorem checkScratch_next {k : Byte → Bool → Prog} (h : (checkScratch k).run s = .next r) :
    ∃ v ok, (k v ok).run s = .next r := by
  obtain ⟨d, -, h⟩ := loadBytes_next h
  obtain ⟨e, h⟩ := load_next h
  exact ⟨_, _, h⟩

end

/-- SENSOR_READ stores in SCRATCH only where it found a sensor present. -/
theorem sensorRead_scratch {s t : State} (h : exec .sensorRead s = .next t)
    (ht : t.presence = false) (j : Nat) : t.byte? .scratch j = s.byte? .scratch j := by
  obtain ⟨v, u, hu, rfl⟩ := run_of_exec rfl h
  rw [program, sensorReadProg] at hu
  obtain ⟨p, s1, hmem, hu⟩ := resetSlot_next hu
  cases p with
  | false =>
    cases hu
    exact congrArg (Memory.get · _) hmem
  | true =>
    rw [Prog.run_act, if_pos rfl] at hu
    obtain ⟨s2, h2, hu⟩ := writeBits_next hu
    obtain ⟨s3, h3, hu⟩ := writeBits_next hu
    obtain ⟨s4, h4, hu⟩ := readScratch_next hu
    obtain ⟨_, ok, hu⟩ := checkScratch_next hu
    have kept : u.presence = s4.presence := by
      split at hu
      · obtain ⟨hi, hu⟩ := load_next hu
        obtain ⟨lo, hu⟩ := load_next hu
        cases hu; rfl
      · cases hu; rfl
    have present : u.presence = true := kept.trans (h4.trans (h3.trans h2))
    exact absurd present (Bool.eq_false_iff.mp ht)

/-! ## The whole frame -/

/-- Where `mayStore` has no store, the bytes are as before. -/
theorem exec_byte?_of_not_mayStore {i : Instr} {s t : State} (h : exec i s = .next t) {b : Buf}
    {j : Nat} (hb : ¬ mayStore i t b j) : t.byte? b j = s.byte? b j := by
  cases hw : opWritesBuf i b with
  | false => exact exec_byte? h hw
  | true =>
    by_cases hj : b.size s.params ≤ j
    · exact exec_byte?_beyond hj h
    have inside := Nat.not_le.mp hj
    cases b with
    | scratch =>
      obtain rfl : i = .sensorRead := by simpa [opWritesBuf] using hw
      exact sensorRead_scratch h (Bool.eq_false_iff.mpr fun hp => hb ⟨rfl, hp, inside⟩) j
    | linebuf => exact absurd ⟨hw, exec_params h ▸ inside⟩ hb
    | rxpay =>
      obtain ⟨conf, rfl⟩ := eq_radioSend_of_writes hw
      exact radioSend_rxpay h j fun hp => hb ⟨⟨conf, rfl⟩, hp⟩
    | outbuf =>
      obtain rfl : i = .radioRecv := by simpa [opWritesBuf] using hw
      exact radioRecv_outbuf h (Nat.not_lt.mp fun hlt => hb ⟨rfl, hlt⟩)
    | _ => cases hw

/-- Settles O50: R84's table bounds the lines an instruction may hold; inside the buffers it may
store in, what SENSOR_READ, SEND and RECEIVE store is told by what they leave in STATUS and registers. -/
theorem instructionFrame : Obligations.InstructionFrame := by
  intro i s t h
  obtain ⟨harg0, harg1, hopa, hopb, hadr, hinputs, hdata⟩ := exec_operands h
  exact ⟨fun r => exec_readReg h, exec_field h .presence, exec_field h .crcOk,
    exec_field h .timedOut, exec_field h .rxPending, exec_field h .lineEnd, exec_field h .joinState,
    exec_field h .variant, exec_part_done_seq h, fun b j => exec_byte?_of_not_mayStore h, harg0,
    harg1, hopa, hopb, hadr, exec_params h, hinputs, hdata, exec_heldCount h⟩

end Sys2Proof.Machine

/-! The five bus operations (40_busline.md R121 to R131): each is its issue, its slots and its end. -/
namespace Sys2Proof.Machine

/-! ## Operand and RESULT -/

/-- ARG0[7:0] is the low byte of ARG0 (R81, R129). -/
theorem argByte_eq_setWidth (w : Word) : argByte w = w.setWidth 8 :=
  (BitVec.setWidth_eq_extractLsb' (by decide)).symm

/-- A byte read from the bus, widened to RESULT, is the number of its levels (R131). -/
theorem wordOfByte_byteOfBits {ls : List Bool} (h : ls.length ≤ 8) :
    wordOfByte (byteOfBits ls) = BitVec.ofNat 32 (levelsValue ls) := by
  rw [← byteOfBits_toNat ls h, BitVec.ofNat_toNat, wordOfByte]

/-- RESULT of a reset slot: 1 where the sampled level is low (R121). -/
theorem wordOfBool_not (b : Bool) : wordOfBool (!b) = if b then 0 else 1 := by
  cases b <;> rfl

/-! ## The operations (R121 to R131) -/

/-- An operation is its pseudocode's run between issue and end (R240, R241). -/
theorem exec_operation {i : Instr} (hi : i.isOperation = true) (s : State) :
    exec i s = runOp i (program s.params i) s := by
  rw [exec_eq_run, if_pos hi]

/-- Settles O21: one reset slot (`run_resetSlot`), whose level is inverted into PRESENCE and RESULT. -/
theorem busResetEffect : Obligations.BusResetEffect := by
  refine ⟨decode_encode .busReset, fun s h => ?_⟩
  rw [exec_operation rfl, runOp, program, busResetProg, run_resetSlot _ _ _ (slotsFit h).reset,
    ← wordOfBool_not]
  rfl

/-- Settles O22: one write slot of ARG0[0] (`run_writeSlot`). -/
theorem busWriteBitEffect : Obligations.BusWriteBitEffect := by
  refine ⟨decode_encode .busWbit, fun s h => ?_⟩
  rw [exec_operation rfl, runOp, program, busWbitProg, Prog.run_reg,
    run_writeSlot _ _ _ _ ((slotsFit h).write _)]
  rfl

/-- Settles O23: one read slot (`run_readSlot`), whose level is RESULT. -/
theorem busReadBitEffect : Obligations.BusReadBitEffect := by
  refine ⟨decode_encode .busRbit, fun s h => ?_⟩
  rw [exec_operation rfl, runOp, program, busRbitProg, run_readSlot _ _ _ (slotsFit h).read,
    ← wordOfBool_eq]
  rfl

/-- Settles O24: the eight write slots of a byte (`run_writeByte`), the byte being ARG0[7:0]. -/
theorem busWriteByteEffect : Obligations.BusWriteByteEffect := by
  refine ⟨decode_encode .busWbyte, fun s h => ?_⟩
  rw [exec_operation rfl, runOp, program, busWbyteProg, Prog.run_reg,
    run_writeByte _ _ _ _ (slotsFit h), ← argByte_eq_setWidth]
  rfl

/-- Settles O25: eight read slots (`run_readByte`), whose levels are the bits of RESULT. -/
theorem busReadByteEffect : Obligations.BusReadByteEffect := by
  refine ⟨decode_encode .busRbyte, fun s h => ?_⟩
  rw [exec_operation rfl, runOp, program, busRbyteProg, run_readByte _ _ _ (slotsFit h),
    ← wordOfByte_byteOfBits (Env.levels_length ..).le]
  rfl

end Sys2Proof.Machine

/-! The CRC-8 validator and the sensor operations (41_sensor_crc.md). -/
namespace Sys2Proof.Machine

/-! ## CRC-8 (R141, R142)

The register and the input meet only in their difference, and a shift of it can be undone: so the CRC
of a string tells apart any two values of one of its bytes. -/

/-- A shift of the CRC register on an input bit of 0 (R141). -/
def crcShift (x : Byte) : Byte := if x &&& 1 = 1 then x >>> 1 ^^^ crcPoly else x >>> 1

/-- The register before a shift: bit 7 is set afterwards exactly where the polynomial was added. -/
def crcUnshift (y : Byte) : Byte := if y.msb then (y ^^^ crcPoly) <<< 1 ||| 1 else y <<< 1

theorem crcUnshift_crcShift : Function.LeftInverse crcUnshift crcShift := by
  unfold Function.LeftInverse; decide

/-- The inner loop shifts the difference of register and input. -/
theorem crcBits_eq (n : Nat) (c b : Byte) : crcBits n c b = crcShift^[n] (c ^^^ b) ^^^ b >>> n := by
  induction n generalizing c b with
  | zero => simp [crcBits]
  | succ n ih =>
    have shifted : (if (c ^^^ b) &&& 1 = 1 then c >>> 1 ^^^ crcPoly else c >>> 1) ^^^ b >>> 1
        = crcShift (c ^^^ b) := by
      rw [crcShift, BitVec.ushiftRight_xor_distrib]
      split
      · ac_rfl
      · rfl
    rw [crcBits, ih, shifted, ← BitVec.shiftRight_add, Nat.add_comm 1 n, Function.iterate_succ_apply]

theorem crcByte_eq (c b : Byte) : crcByte c b = crcShift^[8] (c ^^^ b) := by
  rw [crcByte, crcBits_eq, BitVec.ushiftRight_eq_zero (by decide), BitVec.xor_zero]

theorem crcShift_iterate_injective (n : Nat) : Function.Injective crcShift^[n] :=
  crcUnshift_crcShift.injective.iterate n

theorem crcByte_left_injective (b : Byte) : Function.Injective fun c => crcByte c b := fun c c' h => by
  simp only [crcByte_eq] at h
  exact (BitVec.xor_left_inj _).mp (crcShift_iterate_injective 8 h)

theorem crcByte_right_injective (c : Byte) : Function.Injective (crcByte c) := fun b b' h => by
  rw [crcByte_eq, crcByte_eq] at h
  exact (BitVec.xor_right_inj _).mp (crcShift_iterate_injective 8 h)

/-- The register on its own value is cleared. -/
theorem crcByte_self (c : Byte) : crcByte c c = 0 := by
  rw [crcByte_eq, BitVec.xor_self]; rfl

theorem foldl_crcByte_injective (d : List Byte) : Function.Injective fun c => d.foldl crcByte c := by
  induction d with
  | nil => exact fun _ _ h => h
  | cons b d ih => exact ih.comp (crcByte_left_injective b)

/-- A change of one byte of a string changes the register after it. -/
theorem foldl_crcByte_modify_ne {f : Byte → Byte} (hf : ∀ b, f b ≠ b) {d : List Byte} {j : Nat}
    (hj : j < d.length) (c : Byte) : (d.modify j f).foldl crcByte c ≠ d.foldl crcByte c := by
  induction d generalizing j c with
  | nil => cases hj
  | cons b d ih =>
    cases j with
    | zero => exact fun h => hf b (crcByte_right_injective c (foldl_crcByte_injective d h))
    | succ j => exact ih (Nat.lt_of_succ_lt_succ hj) _

theorem crc8_append_self (d : List Byte) : crc8 (d ++ [crc8 d]) = 0 := by
  rw [crc8, List.foldl_append]; exact crcByte_self _

theorem crc8_zeros (n : Nat) : crc8 (List.replicate n 0) = 0 := by
  induction n with
  | zero => rfl
  | succ n ih => exact ih

/-- Flipping a bit of a byte changes it. -/
theorem flipBit_ne {k : Nat} (hk : k < 8) (b : Byte) : b ^^^ 1 <<< k ≠ b := by
  have single : ∀ k < 8, (1 : Byte) <<< k ≠ 0 := by decide
  exact fun h => single k hk ((BitVec.xor_right_inj _).mp (h.trans BitVec.xor_zero.symm))

/-- Settles O27: a flip in one of the eight bytes changes their CRC (`foldl_crcByte_modify_ne`), a flip
in the ninth changes what the CRC is compared with. -/
theorem crcProperties : Obligations.CrcProperties := by
  refine ⟨crc8_append_self, crc8_zeros, fun d j k hd hj hk => ?_⟩
  have data : (d ++ [crc8 d]).take 8 = d := List.take_left' hd
  have last : (d ++ [crc8 d])[8]? = some (crc8 d) := by simp [← hd]
  refine ⟨by rw [data, last], ?_⟩
  rw [List.take_modify, data, List.getElem?_modify, last]
  by_cases h8 : j = 8
  · rw [List.modify_eq_self (by omega)]
    simpa [h8] using (flipBit_ne hk _).symm
  · simp only [h8]
    exact fun h => foldl_crcByte_modify_ne (flipBit_ne hk) (by omega) _ (Option.some.inj h)

/-! ## What SCRATCH holds (R143, R152) -/

@[simp] theorem Buf.size_scratch (c : Config) : Buf.size c .scratch = 9 := rfl

/-- Reading a byte string that has an unwritten byte (I4). -/
theorem run_loadBytes_unwritten {s : State} {b : Buf} {i n : Nat} (k : List Byte → Prog)
    (hs : i + n ≤ b.size s.params) (h : s.bytes? b i n = none) :
    ∃ j, (loadBytes b i n k).run s = .fault (.unwrittenByte b j) := by
  induction n generalizing i k with
  | zero => cases h
  | succ n ih =>
    cases hv : s.byte? b i with
    | none => exact ⟨i, by rw [loadBytes, Prog.run, State.readByte_unwritten (by omega) hv]⟩
    | some v =>
      have rest : s.bytes? b (i + 1) n = none := by
        cases hw : s.bytes? b (i + 1) n with
        | none => rfl
        | some vs => simp [State.bytes?, hv, hw] at h
      rw [loadBytes, Prog.run_load _ (by omega) hv]
      exact ih _ (by omega) rest

/-- A byte string is there where all but its last byte and its last byte are. -/
theorem State.bytes?_succ_isSome {s : State} {b : Buf} {i n : Nat} :
    (s.bytes? b i (n + 1)).isSome ↔ (s.bytes? b i n).isSome ∧ (s.byte? b (i + n)).isSome := by
  simp only [State.bytes?_isSome, Nat.forall_lt_succ_right]

/-- The CRC comparison where one of the nine bytes is unwritten (R143, I4). -/
theorem run_checkScratch_unwritten {s : State} (k : Byte → Bool → Prog)
    (h : s.bytes? .scratch 0 9 = none) :
    ∃ j, (checkScratch k).run s = .fault (.unwrittenByte .scratch j) := by
  cases hd : s.bytes? .scratch 0 8 with
  | none => exact run_loadBytes_unwritten _ (by simp) hd
  | some d =>
    cases he : s.byte? .scratch 8 with
    | none =>
      refine ⟨8, ?_⟩
      rw [checkScratch, run_loadBytes _ (by simp) hd, Prog.run,
        State.readByte_unwritten (by simp) he]
    | some e =>
      have written := State.bytes?_succ_isSome.mpr
        ⟨Option.isSome_of_mem hd, Option.isSome_of_mem he⟩
      rw [h] at written
      cases written

/-- A CRC comparison that went on has found nine bytes. -/
theorem checkScratch_written {s : State} {r : Word × State} {k : Byte → Bool → Prog}
    (h : (checkScratch k).run s = .next r) :
    ∃ d e, s.bytes? .scratch 0 8 = some d ∧ s.byte? .scratch 8 = some e := by
  cases hs : s.bytes? .scratch 0 9 with
  | none =>
    obtain ⟨j, hj⟩ := run_checkScratch_unwritten k hs
    cases hj.symm.trans h
  | some vs =>
    obtain ⟨hd, he⟩ := State.bytes?_succ_isSome.mp (Option.isSome_of_mem hs)
    exact ⟨_, _, Option.eq_some_of_isSome hd, Option.eq_some_of_isSome he⟩

/-- Settles O28, by whether the nine bytes are there. -/
theorem crcCheckEffect : Obligations.CrcCheckEffect := by
  refine ⟨decode_encode .crcCheck, fun s d e hd he => ?_, fun s h => ?_⟩
  · rw [exec_operation rfl, runOp, program, crcCheckProg,
      run_checkScratch (s := s.issue .crcCheck) _ hd he]
    rfl
  · obtain ⟨j, hj⟩ := run_checkScratch_unwritten (s := s.issue .crcCheck) _ h
    exact ⟨j, by rw [exec_operation rfl, runOp, program, crcCheckProg, hj]⟩

/-! ## The sensor operations (R147 to R152) -/

/-- SENSOR_START and SENSOR_READ begin alike: a reset slot whose level is PRESENCE, and with a sensor
present the command bytes 0xCC and `v`. -/
def addressSensor (c : Config) (v : Byte) (found absent : Prog) : Prog :=
  resetSlot c fun p =>
  .act (.setPresence p) <|
  if p then writeByte c skipRomByte <| writeByte c v found
  else absent

theorem sensorStartProg_eq (c : Config) :
    sensorStartProg c = addressSensor c startConversionByte (.ret 0) (.ret 0) := rfl

/-- The state once a sensor has answered the reset slot and both bytes have been sent. -/
def State.addressed (s : State) (c : Config) (v : Byte) : State :=
  let reset := State.afterSlots { s with presence := true, env := s.env.afterBus }
    (resetSlotEvents c s.timeUs false) c.tRstSlot
  let skip := reset.afterSlots (writeByteEvents c reset.timeUs 0xCC) (8 * c.tSlot)
  skip.afterSlots (writeByteEvents c skip.timeUs v) (8 * c.tSlot)

section
variable {c : Config} {s : State} (h : SlotsFit c) (v : Byte) (found absent : Prog)
include h

theorem run_addressSensor_found (hl : s.env.busLevel = false) :
    (addressSensor c v found absent).run s = found.run (s.addressed c v) := by
  rw [addressSensor, run_resetSlot _ _ _ h.reset, hl, Prog.run_act, Bool.not_false, if_pos rfl,
    run_writeByte _ _ _ _ h, run_writeByte _ _ _ _ h]
  rfl

theorem run_addressSensor_absent (hl : s.env.busLevel = true) :
    (addressSensor c v found absent).run s = absent.run
      (State.afterSlots { s with presence := false, env := s.env.afterBus }
        (resetSlotEvents c s.timeUs true) c.tRstSlot) := by
  rw [addressSensor, run_resetSlot _ _ _ h.reset, hl]
  rfl

end

/-- Settles O29: the reset slot's level decides whether the two command bytes follow. -/
theorem sensorStartEffect : Obligations.SensorStartEffect := by
  refine ⟨decode_encode .sensorStart, fun s h => ?_⟩
  rw [exec_operation rfl, runOp, program, sensorStartProg_eq]
  cases hl : s.env.busLevel with
  | true =>
    rw [run_addressSensor_absent (s := s.issue .sensorStart) (slotsFit h) _ _ _ hl]
    rfl
  | false =>
    rw [run_addressSensor_found (s := s.issue .sensorStart) (slotsFit h) _ _ _ hl]
    simp only [Bool.false_eq_true, if_false, ← List.append_assoc]
    rfl

theorem pollEvents_append (c : Config) (t : Time) (a b : List Bool) :
    pollEvents c t (a ++ b) =
      pollEvents c t a ++ pollEvents c (t + us (a.length * (c.tSlot + 10000))) b := by
  induction a generalizing t with
  | nil => simp [pollEvents]
  | cons l a ih =>
    simp only [List.cons_append, pollEvents, ih, List.append_assoc, List.length_cons,
      BitVec.add_assoc, us_add, Nat.succ_mul, Nat.add_comm (c.tSlot + 10000)]

/-- Polls that read 0 leave the rest of the polls, 10 ms after each (R150, R151). -/
theorem run_pollLoop_low {c : Config} (h : SlotsFit c) {s : State} {k : Nat} (n : Nat)
    (hl : s.env.levels k = List.replicate k false) :
    (pollLoop c (k + n)).run s = (pollLoop c n).run { s with
      busDrive := if k = 0 then s.busDrive else false
      trace := s.trace ++ pollEvents c s.timeUs (s.env.levels k)
      timeUs := s.timeUs + us (k * (c.tSlot + 10000))
      env := s.env.dropBus k } := by
  induction k generalizing s with
  | zero => simp [Env.levels, Env.dropBus, pollEvents]
  | succ k ih =>
    obtain ⟨h0, hl⟩ := List.cons.inj hl
    rw [Nat.add_right_comm, pollLoop, run_readSlot _ _ _ h.read, h0, if_neg (by decide), Prog.run_act,
      ih hl]
    have time : c.tSlot + 10000 + k * (c.tSlot + 10000) = (k + 1) * (c.tSlot + 10000) := by ring
    simp only [Act.apply, State.delayUs, State.afterSlots, Config.pollIntervalMs, Env.levels, h0,
      Env.dropBus, pollEvents, BitVec.add_assoc, us_add, List.append_assoc, Nat.reduceMul, time,
      Nat.succ_ne_zero, if_false, ite_self]

/-- Polls of which the first `k` read 0 and the next one 1 (R150). -/
theorem run_pollLoop_high {c : Config} (h : SlotsFit c) {s : State} {k n : Nat} (hk : k < n)
    (hl : s.env.levels (k + 1) = List.replicate k false ++ [true]) :
    (pollLoop c n).run s = .next (0, { s with
      timedOut := false
      busDrive := false
      trace := s.trace ++ pollEvents c s.timeUs (s.env.levels (k + 1))
      timeUs := s.timeUs + us (k * (c.tSlot + 10000) + c.tSlot)
      env := s.env.dropBus (k + 1) }) := by
  obtain ⟨m, rfl⟩ := Nat.exists_eq_add_of_lt hk
  obtain ⟨low, high⟩ := List.append_inj (s.env.levels_add k 1 ▸ hl) (by simp)
  have high : (s.env.dropBus k).busLevel = true := (List.cons.inj high).1
  rw [Nat.add_assoc, run_pollLoop_low h _ low, pollLoop, run_readSlot _ _ _ h.read, high]
  rw [s.env.levels_add k 1, pollEvents_append, Env.levels_length, Env.levels, Env.levels, high,
    ← s.env.dropBus_add k 1]
  simp only [if_true, Prog.run_act, Prog.run_ret, Act.apply, State.afterSlots, pollEvents,
    List.append_nil, BitVec.add_assoc, us_add, List.append_assoc]
  rfl

/-- Settles O30, by the polls that read 0. -/
theorem sensorWaitEffect : Obligations.SensorWaitEffect := by
  refine ⟨decode_encode .sensorWait, fun s k h hk hl => ?_, fun s h hl => ?_⟩
  · rw [exec_of_run (i := .sensorWait) rfl
      (run_pollLoop_high (s := s.issue .sensorWait) (slotsFit h) hk hl)]
    rfl
  · rw [exec_of_run (i := .sensorWait) rfl
      (run_pollLoop_low (s := s.issue .sensorWait) (k := 100) (slotsFit h) 0 hl)]
    rfl

/-- SENSOR_READ once the bytes are in SCRATCH: TEMP_RAW is written if the CRC matches (R152). -/
def checkedTemperature : Prog :=
  checkScratch fun _ ok =>
  if ok then
    .act (.setCrcOk true) <|
    .load .scratch 1 fun hi =>
    .load .scratch 0 fun lo =>
    .act (.setTempRaw (rawTemperature hi lo)) <|
    .ret 1
  else
    .act (.setCrcOk false) <|
    .ret 0

theorem sensorReadProg_eq (c : Config) :
    sensorReadProg c = addressSensor c readScratchpadByte (readScratch c 0 9 checkedTemperature)
      (.act (.setCrcOk false) <| .ret 0) := rfl

/-- The state once the CRC of the bytes `d` in SCRATCH has been compared with `e`. -/
def State.checked (s : State) (d : List Byte) (lo hi e : Byte) : State :=
  { s with
    crcOk := decide (crc8 d = e)
    tempRaw := if crc8 d = e then hi ++ lo else s.tempRaw }

theorem run_checkedTemperature {s : State} {d : List Byte} {lo hi e : Byte}
    (hd : s.bytes? .scratch 0 8 = some d) (he : s.byte? .scratch 8 = some e)
    (hlo : d[0]? = some lo) (hhi : d[1]? = some hi) :
    checkedTemperature.run s = .next (if crc8 d = e then 1 else 0, s.checked d lo hi e) := by
  rw [checkedTemperature, run_checkScratch _ hd he]
  by_cases hc : crc8 d = e
  · obtain ⟨-, bytes⟩ := State.bytes?_eq_some.mp hd
    obtain ⟨h0, rfl⟩ := List.getElem?_eq_some_iff.mp hlo
    obtain ⟨h1, rfl⟩ := List.getElem?_eq_some_iff.mp hhi
    have inside : ∀ j < 2, j < Buf.size s.params .scratch := fun j hj => by simp; omega
    rw [if_pos (beq_iff_eq.mpr hc), Prog.run_act,
      Prog.run_load (s := (Act.setCrcOk true).apply s) _ (inside 1 (by decide)) (bytes 1 h1),
      Prog.run_load (s := (Act.setCrcOk true).apply s) _ (inside 0 (by decide)) (bytes 0 h0),
      Prog.run_act, Prog.run_ret, if_pos hc]
    simp [State.checked, Act.apply, hc, rawTemperature]
  · rw [if_neg (by simpa using hc), Prog.run_act, Prog.run_ret, if_neg hc]
    simp [State.checked, Act.apply, hc]

/-- Nine bytes are read from the bus into SCRATCH and checked there (R152). -/
theorem run_readTemperature {c : Config} (h : SlotsFit c) {s : State} {d : List Byte}
    {lo hi e : Byte} (hb : s.env.busBytes 9 = d ++ [e]) (hlo : d[0]? = some lo)
    (hhi : d[1]? = some hi) :
    (readScratch c 0 9 checkedTemperature).run s = .next (if crc8 d = e then 1 else 0,
      State.checked { s with
        mem := putBytes s.mem .scratch 0 (d ++ [e])
        busDrive := false
        trace := s.trace ++ readSlotsEvents c s.timeUs (s.env.levels 72)
        timeUs := s.timeUs + us (72 * c.tSlot)
        env := s.env.dropBus 72 } d lo hi e) := by
  have hd : d.length = 8 := by simpa using (congrArg List.length hb).symm
  have last : (d ++ [e])[8]? = some e := by simp [← hd]
  rw [run_readScratch c h, hb]
  exact run_checkedTemperature (scratch_putBytes hd rfl).1
    (((scratch_putBytes hd rfl).2 8 (by decide)).trans last) hlo hhi

/-- Settles O31: without a sensor the reset slot alone (`run_addressSensor_absent`), with one the
command bytes and what the nine bytes read decide (`run_readTemperature`). -/
theorem sensorReadEffect : Obligations.SensorReadEffect := by
  refine ⟨decode_encode .sensorRead, fun s h hl => ?_, fun s d lo hi e h hl hb hlo hhi => ?_⟩
  all_goals rw [exec_operation rfl, runOp, program, sensorReadProg_eq]
  · rw [run_addressSensor_absent (s := s.issue .sensorRead) (slotsFit h) _ _ _ hl]
    rfl
  · rw [run_addressSensor_found (s := s.issue .sensorRead) (slotsFit h) _ _ _ hl,
      run_readTemperature (s := (s.issue .sensorRead).addressed s.params readScratchpadByte) (slotsFit h)
        hb hlo hhi]
    simp only [State.addressed, State.afterSlots, State.checked, State.issue, State.endOp,
      readScratchpadByte]

/-! ## The reading (R154 to R156) -/

/-- Settles O32: the high byte's sign is the temperature's; the bounds are those of 16 bits. -/
theorem temperatureDecode : Obligations.TemperatureDecode := by
  refine ⟨fun lo hi => ?_, fun s => ⟨fun h => ⟨if_pos h, ?_, ?_⟩, fun h => if_neg ?_⟩⟩
  · have hlo := lo.isLt
    rw [rawTemperature, BitVec.toInt_append, if_neg (by decide), BitVec.toInt_eq_toNat_cond]
    split <;> split <;> omega
  · have low : -2 ^ 15 ≤ (s.tempRaw.toInt : Rat) := by exact_mod_cast s.tempRaw.le_toInt
    linarith
  · have high : (s.tempRaw.toInt : Rat) ≤ 2 ^ 15 - 1 := by
      exact_mod_cast Int.le_sub_one_of_lt s.tempRaw.toInt_lt
    linarith
  · rw [h]; decide

/-! ## The CRC gate (R157) -/

/-- A part of the state that slots and the bytes stored from them leave alone. -/
structure SlotsLeave {α : Type} (f : State → α) : Prop where
  drive : ∀ s, f s.busDriveLow = f s := by intros; rfl
  release : ∀ s, f s.busRelease = f s := by intros; rfl
  delay : ∀ s n, f (s.delayUs n) = f s := by intros; rfl
  sample : ∀ s, f s.afterSample = f s := by intros; rfl
  store : ∀ s j v, f (s.writeByte .scratch j v) = f s := by intros; rfl

section
variable {α : Type} {f : State → α} {c : Config} {s : State} {r : Word × State}

theorem SlotsLeave.after_resetSlot (hf : SlotsLeave f) {k : Bool → Prog}
    (h : (resetSlot c k).run s = .next r) : ∃ p s', f s' = f s ∧ (k p).run s' = .next r := by
  simp only [resetSlot, Prog.run_act, Prog.run_sample, Act.apply] at h
  exact ⟨_, _, by simp only [hf.drive, hf.release, hf.delay, hf.sample], h⟩

theorem SlotsLeave.after_writeBits (hf : SlotsLeave f) {bs : List Bool} {p : Prog}
    (h : (writeBits c bs p).run s = .next r) : ∃ s', f s' = f s ∧ p.run s' = .next r := by
  induction bs generalizing s with
  | nil => exact ⟨s, rfl, h⟩
  | cons b bs ih =>
    simp only [writeBits, writeSlot, Prog.run_act, Act.apply] at h
    obtain ⟨s', hs, h⟩ := ih h
    exact ⟨s', by simpa only [hf.drive, hf.release, hf.delay] using hs, h⟩

theorem SlotsLeave.after_readBits (hf : SlotsLeave f) {n : Nat} {k : List Bool → Prog}
    (h : (readBits c n k).run s = .next r) : ∃ ls s', f s' = f s ∧ (k ls).run s' = .next r := by
  induction n generalizing s k with
  | zero => exact ⟨[], s, rfl, h⟩
  | succ n ih =>
    simp only [readBits, readSlot, Prog.run_act, Prog.run_sample, Act.apply] at h
    obtain ⟨ls, s', hs, h⟩ := ih h
    exact ⟨_, s', by simpa only [hf.drive, hf.release, hf.delay, hf.sample] using hs, h⟩

theorem SlotsLeave.after_readScratch (hf : SlotsLeave f) {j n : Nat} {p : Prog}
    (h : (readScratch c j n p).run s = .next r) : ∃ s', f s' = f s ∧ p.run s' = .next r := by
  induction n generalizing s j with
  | zero => exact ⟨s, rfl, h⟩
  | succ n ih =>
    obtain ⟨ls, s1, h1, h⟩ := hf.after_readBits h
    obtain ⟨s2, h2, h⟩ := ih h
    exact ⟨s2, h2.trans ((hf.store ..).trans h1), h⟩

end

/-- Settles O33: the slots leave TEMP_RAW alone whatever their times, and what then runs to its end has
compared nine bytes (`run_checkedTemperature`). -/
theorem temperatureIsCrcGated : Obligations.TemperatureIsCrcGated := by
  intro s t h changed
  have leave : SlotsLeave State.tempRaw := {}
  obtain ⟨v, u, hu, rfl⟩ := run_of_exec rfl h
  rw [program, sensorReadProg_eq, addressSensor] at hu
  obtain ⟨p, s1, h1, hu⟩ := leave.after_resetSlot hu
  cases p with
  | false =>
    cases hu
    obtain diff | one := changed
    · exact absurd h1 diff
    · cases one
  | true =>
    rw [Prog.run_act, if_pos rfl] at hu
    obtain ⟨s2, h2, hu⟩ := leave.after_writeBits hu
    obtain ⟨s3, h3, hu⟩ := leave.after_writeBits hu
    obtain ⟨s4, h4, hu⟩ := leave.after_readScratch hu
    have same : s4.tempRaw = s.tempRaw := h4.trans (h3.trans (h2.trans h1))
    obtain ⟨d, e, hd, he⟩ := checkScratch_written hu
    obtain ⟨hlen, -⟩ := State.bytes?_eq_some.mp hd
    have hlo : d[0]? = some d[0] := List.getElem?_eq_getElem (by omega)
    have hhi : d[1]? = some d[1] := List.getElem?_eq_getElem (by omega)
    rw [run_checkedTemperature hd he hlo hhi] at hu
    cases hu
    by_cases hc : crc8 d = e
    · refine ⟨decide_eq_true hc, d, e, (State.bytes?_congr rfl ..).trans hd, he, hc, ?_⟩
      simp [State.checked, hc, hlo, hhi]
    · simp [State.checked, hc, same] at changed

end Sys2Proof.Machine

/-! The line reader: how long its waits last, and which line it reads (42_line_transport.md). -/
namespace Sys2Proof.Machine

/-! ## How long a wait lasts (R173, R252) -/

/-- The difference of two times on TIME_US is the time between them, also across a wrap. -/
theorem elapsedUs_add {n : Nat} (hn : n < 2 ^ 64) (start : Time) :
    elapsedUs start (start + us n) = n := by
  rw [elapsedUs, BitVec.add_comm, BitVec.add_sub_cancel, BitVec.toNat_ofNat, Nat.mod_eq_of_lt hn]

/-- No wait outlasts its timeout. -/
theorem RxDraw.waited_le (d : RxDraw) (tmo : Nat) : d.waited tmo ≤ 1000 * tmo := by
  cases d <;> simp only [RxDraw.waited] <;> omega

/-- TIME_US shows how long a wait was, since no 32-bit timeout reaches 2^64 µs. -/
theorem elapsedUs_afterRecv (s : State) {tmo : Nat} (htmo : tmo < 2 ^ 32) :
    elapsedUs s.timeUs (s.afterRecv tmo).timeUs = s.env.rxDraw.waited tmo := by
  have bound := s.env.rxDraw.waited_le tmo
  exact elapsedUs_add (by omega) s.timeUs

/-- Settles O36: the elapsed time is the drawn wait (`elapsedUs_afterRecv`), by the draw. -/
theorem timeoutBoundary : Obligations.TimeoutBoundary := by
  refine ⟨fun start n hn => elapsedUs_add hn start, fun s tmo htmo => ?_⟩
  simp only [elapsedUs_afterRecv s htmo]
  refine ⟨fun hd => by rw [hd, RxDraw.waited], fun b w hd => ?_⟩
  rw [hd, RxDraw.waited]
  omega

/-! ## LINE_READ (R175, R178) -/

/-- LINE_READ stores the next line and returns its length. -/
theorem exec_lineRead (s : State) :
    exec .lineRead s = .next ((s.afterLine (s.nextLine s.arg0.toNat)).endOp
      (wordOfNat (s.nextLine s.arg0.toNat).line.length)) := by
  have read := run_readLine s.params (s.issue .lineRead) s.arg0.toNat
    (fun n => .ret (wordOfNat n)) rfl
  rw [exec_of_run (i := .lineRead) rfl read]
  rfl

/-- Settles O37 (`exec_lineRead`). -/
theorem lineReadEffect : Obligations.LineReadEffect :=
  ⟨decode_encode .lineRead, exec_lineRead⟩

/-! ## Which line is read (R175, R176) -/

section
variable (e : Env) (rest : List RxDraw) (tmo room : Nat)

/-- LF ends a line that has room for another byte. -/
theorem rawLine_lf (w : Nat) :
    rawLine tmo (room + 1) { e with rx := .byte 0x0A w :: rest }
      = ⟨[], .term, { e with rx := rest }, [.rx 0x0A], min w (1000 * tmo - 1)⟩ := rfl

/-- A full buffer ends a line without another wait. -/
theorem rawLine_full : rawLine tmo 0 e = ⟨[], .full, e, [], 0⟩ := rfl

/-- A timeout ends a line that has room for another byte. -/
theorem rawLine_timeout :
    rawLine tmo (room + 1) { e with rx := .timeout :: rest }
      = ⟨[], .timeout, { e with rx := rest }, [.rxTimeout], 1000 * tmo⟩ := rfl

/-- Received bytes other than LF that fit are the beginning of the line; the rest is what is read
after them. -/
theorem rawLine_of_bytes {line : List Byte} {draws : List RxDraw} (hlf : 0x0A ∉ line)
    (hd : draws.map RxDraw.byte? = line.map some) (hrx : e.rx = draws ++ rest) :
    let whole := rawLine tmo (line.length + room) e
    let after := rawLine tmo room { e with rx := rest }
    whole.bytes = line ++ after.bytes ∧ whole.ending = after.ending ∧ whole.env = after.env := by
  induction line generalizing draws e with
  | nil =>
    obtain rfl : draws = [] := by simpa using hd
    obtain rfl : e.rx = rest := hrx
    simp
  | cons b line ih =>
    obtain ⟨hb, hlf⟩ := not_or.mp (List.mem_cons.not.mp hlf)
    obtain ⟨d, later, rfl, hdb, hlater⟩ := List.map_eq_cons_iff.mp hd
    obtain ⟨w, rfl⟩ : ∃ w, d = .byte b w := by
      cases d with
      | byte b' w => exact ⟨w, by rw [Option.some.inj hdb]⟩
      | timeout => cases hdb
    have first : e.rxDraw = .byte b w := by rw [Env.rxDraw, hrx]; rfl
    obtain ⟨bytes, ending, env⟩ :=
      ih e.afterRx hlf hlater (by rw [Env.afterRx, hrx]; rfl)
    rw [List.length_cons, Nat.add_right_comm]
    simp only [rawLine, first, if_neg (Ne.symm hb)]
    exact ⟨congrArg _ bytes, ending, env⟩

end

/-- A CR directly before the terminator is no part of the line. -/
theorem RawLine.line_of_cr {r : RawLine} {line : List Byte} (he : r.ending = .term)
    (hb : r.bytes = line ++ [0x0D]) : r.line = line := by
  simp [RawLine.line, he, hb]

/-- Without a CR directly before a terminator all bytes are the line. -/
theorem RawLine.line_eq_bytes {r : RawLine}
    (h : r.ending = .term → r.bytes.getLast? ≠ some 0x0D) : r.line = r.bytes :=
  if_neg fun ⟨he, hcr⟩ => h he hcr

@[simp] theorem State.string?_endOp (s : State) (v : Word) (b : Buf) (len : Word) :
    (s.endOp v).string? b len = s.string? b len :=
  State.string?_congr (s := s) (t := s.endOp v) rfl rfl b len

/-- How LINE_READ ends when the next line is `line`. -/
theorem exec_lineRead_ends {s : State} {line : List Byte} {rest : List RxDraw} {ending : LineEnd}
    (hc : s.params.lineCap < 2 ^ 32) (hline : (s.nextLine s.arg0.toNat).line = line)
    (hend : (s.nextLine s.arg0.toNat).ending = ending)
    (hrest : (s.nextLine s.arg0.toNat).env.rx = rest) :
    ∃ t, exec .lineRead s = .next t ∧ t.lineEnd = ending ∧ t.lineLen.toNat = line.length
      ∧ t.result = t.lineLen ∧ t.string? .linebuf t.lineLen = some line ∧ t.env.rx = rest := by
  have fits : (s.nextLine s.arg0.toNat).bytes.length ≤ s.params.lineCap := rawLine_length_le ..
  have stripped := (s.nextLine s.arg0.toNat).line_length_le
  have stored := string?_nextLine s s.arg0.toNat hc
  subst hline
  exact ⟨_, exec_lineRead s, hend, wordOfNat_toNat (by omega), rfl,
    (State.string?_endOp ..).trans stored, hrest⟩

section
variable {s : State} {line : List Byte} {draws rest : List RxDraw} {room : Nat} {after : RawLine}
  (hroom : s.params.lineCap = line.length + room) (hlf : 0x0A ∉ line)
  (hd : draws.map RxDraw.byte? = line.map some) (hrx : s.env.rx = draws ++ rest)
  (hafter : rawLine s.arg0.toNat room { s.env with rx := rest } = after)
include hroom hlf hd hrx hafter

/-- What LINE_READ gets after bytes other than LF that fit, from what is read after them. -/
theorem nextLine_of_bytes :
    (s.nextLine s.arg0.toNat).bytes = line ++ after.bytes
      ∧ (s.nextLine s.arg0.toNat).ending = after.ending
      ∧ (s.nextLine s.arg0.toNat).env = after.env := by
  rw [State.nextLine, hroom, ← hafter]
  exact rawLine_of_bytes s.env rest s.arg0.toNat room hlf hd hrx

/-- How LINE_READ ends when the bytes received are the whole line, nothing of it stripped. -/
theorem exec_lineRead_whole (hc : s.params.lineCap < 2 ^ 32) (hb : after.bytes = [])
    (hcr : after.ending = .term → line.getLast? ≠ some 0x0D) :
    ∃ t, exec .lineRead s = .next t ∧ t.lineEnd = after.ending ∧ t.lineLen.toNat = line.length
      ∧ t.result = t.lineLen ∧ t.string? .linebuf t.lineLen = some line
      ∧ t.env.rx = after.env.rx := by
  obtain ⟨bytes, ending, env⟩ := nextLine_of_bytes hroom hlf hd hrx hafter
  rw [hb, List.append_nil] at bytes
  have whole := RawLine.line_eq_bytes fun he => bytes ▸ hcr (ending.symm.trans he)
  exact exec_lineRead_ends hc (whole.trans bytes) ending (congrArg Env.rx env)

end

/-- Settles O38: what follows the bytes received decides how the line ends. A CR before the LF is
received like the line's own bytes and stripped; in the other cases the bytes are the whole line. -/
theorem lineReadCases : Obligations.LineReadCases := by
  intro s line draws rest w w' hc hlf hd gets
  refine ⟨fun hroom hrx => ?_, fun hroom hcr hrx => ?_, fun hfull hrx => ?_, fun hroom hrx => ?_⟩
  · obtain ⟨room, hroom⟩ := Nat.exists_eq_add_of_lt hroom
    obtain ⟨bytes, ending, env⟩ := nextLine_of_bytes (line := line ++ [0x0D])
      (draws := draws ++ [.byte 0x0D w]) (room := room + 1)
      (by simpa [← Nat.add_assoc] using hroom) (by simpa using hlf) (by simp [hd, RxDraw.byte?])
      (by simpa using hrx) (rawLine_lf ..)
    rw [List.append_nil] at bytes
    exact exec_lineRead_ends hc (RawLine.line_of_cr ending bytes) ending (congrArg Env.rx env)
  · obtain ⟨room, hroom⟩ := Nat.exists_eq_add_of_lt hroom
    exact exec_lineRead_whole (room := room + 1) hroom hlf hd hrx (rawLine_lf ..) hc rfl
      fun _ => hcr
  · exact exec_lineRead_whole hfull.symm hlf hd hrx (rawLine_full ..) hc rfl nofun
  · obtain ⟨room, hroom⟩ := Nat.exists_eq_add_of_lt hroom
    exact exec_lineRead_whole (room := room + 1) hroom hlf hd hrx (rawLine_timeout ..) hc rfl nofun

end Sys2Proof.Machine

/-! The radio driver's command exchanges (43_radio.md R191, R195, R222, R227, R229). -/
namespace Sys2Proof.Machine

/-! ## Lines and operands -/

@[simp] theorem State.string?_issue (s : State) (i : Instr) (b : Buf) (len : Word) :
    (s.issue i).string? b len = s.string? b len :=
  State.string?_congr (s := s) (t := s.issue i) rfl rfl b len

/-- An operation's end overwrites its issue, wherever the issue has been moved to. -/
theorem exec_of_run_issue {i : Instr} {s t : State} {v : Word} (hi : i.isOperation = true)
    (h : (program s.params i).run (s.issue i) = .next (v, t.issue i)) :
    exec i s = .next (t.endOp v) :=
  exec_of_run (t := t.issue i) hi h

/-- A line read and looked at (R175, R190). -/
theorem run_readLine_currentLine (s : State) (tmo : Nat) (k : List Byte → Prog)
    (hc : s.params.lineCap < 4294967296) :
    (readLine s.params tmo fun _ => currentLine k).run s =
      (k (s.nextLine tmo).line).run (s.afterLine (s.nextLine tmo)) := by
  rw [run_readLine _ _ _ _ rfl]
  exact run_loadOperand (r := .lineLen) k (string?_nextLine s tmo hc)

/-! ## SEND_COMMAND (R195) -/

/-- An operation that sends one command: RESULT is whether the reply is TOK_OK (R191). -/
theorem exec_command {i : Instr} {s : State} {text param : List Byte} (hi : i.isOperation = true)
    (hc : s.params.lineCap < 4294967296)
    (h : (program s.params i).run (s.issue i) =
      (sendCmd s.params text param fun ok => .ret (wordOfBool ok)).run (s.issue i)) :
    exec i s = .next ((s.exchange text param s.params.tCmdMs).endOp
      (if s.reply text param s.params.tCmdMs = s.params.lits.tokOk then 1 else 0)) := by
  rw [run_sendCmd s.params (s.issue i) _ _ _ rfl hc, State.reply_issue, State.exchange_issue,
    wordOfBool_eq] at h
  simp only [beq_iff_eq] at h
  exact exec_of_run_issue hi h

/-- Settles O39: the operands that are there are loaded, then the command is exchanged
(`exec_command`). -/
theorem sendCommandEffect : Obligations.SendCommandEffect := by
  refine ⟨decode_encode .radioCmd, decode_encode .radioCmdText, decode_encode .radioCmdBin, ?_⟩
  intro s text hc htext after
  have cap := lineCap_lt hc
  have loadText {i : Instr} (k : List Byte → Prog) :
      (loadOperand .opbufA .opaLen k).run (s.issue i) = (k text).run (s.issue i) :=
    run_loadOperand k (by simpa using htext)
  refine ⟨exec_command rfl cap (loadText _), fun param hparam => ?_⟩
  have loadParam {i : Instr} (k : List Byte → Prog) :
      (loadOperand .opbufB .opbLen k).run (s.issue i) = (k param).run (s.issue i) :=
    run_loadOperand k (by simpa using hparam)
  exact ⟨exec_command rfl cap ((loadText _).trans (loadParam _)),
    exec_command rfl cap ((loadText _).trans (loadParam _))⟩

/-! ## RESET_DEVICE (R222, R224) -/

/-- `Contains` is the library's infix relation (R190). -/
theorem containsText_iff {text line : List Byte} :
    containsText text line = true ↔ text <:+: line := by
  simp only [containsText, List.any_eq_true, List.mem_tails, List.isPrefixOf_iff_prefix,
    List.infix_iff_prefix_suffix, and_comm]

section
variable {l : Literals} {line : List Byte}

/-- An identity line that has ID_SUBSTR_A names variant A, whatever else it has (R109). -/
theorem identify_variantA (h : l.idSubstrA <:+: line) : identify l line = .variantA :=
  if_pos (containsText_iff.mpr h)

theorem identify_variantB (hA : ¬ l.idSubstrA <:+: line) (h : l.idSubstrB <:+: line) :
    identify l line = .variantB :=
  (if_neg (containsText_iff.not.mpr hA)).trans (if_pos (containsText_iff.mpr h))

theorem identify_unknown (hA : ¬ l.idSubstrA <:+: line) (hB : ¬ l.idSubstrB <:+: line) :
    identify l line = .unknown :=
  (if_neg (containsText_iff.not.mpr hA)).trans (if_neg (containsText_iff.not.mpr hB))

end

/-- The reset command exchanged and its identity line taken for variant `v` (R222). -/
def State.identified (s : State) (v : Variant) : State :=
  { s.exchange s.params.lits.cmdSysReset [] s.params.tResetMs with variant := v }

@[simp] theorem State.identified_params (s : State) (v : Variant) :
    (s.identified v).params = s.params :=
  State.exchange_params s _ _ s.params.tResetMs

section
variable {s : State} {v : Variant} (hc : s.params.lineCap < 4294967296)
  (hv : identify s.params.lits (s.reply s.params.lits.cmdSysReset [] s.params.tResetMs) = v)
include hc hv

/-- RESET_DEVICE after the identity line: the variant's configuration, if it is known (R222). -/
theorem run_radioResetProg :
    (radioResetProg s.params).run (s.issue .radioReset) =
      (if v = .unknown then .ret 0
        else sendAll s.params (configOf s.params v) fun ok => .ret (wordOfBool ok)).run
        ((s.identified v).issue .radioReset) := by
  have line := run_readLine_currentLine
    ((s.issue .radioReset).afterSend (s.params.lits.cmdSysReset ++ [] ++ [0x0D, 0x0A]))
    s.params.tResetMs
  simp only [State.afterSend_params, State.issue_params] at line
  subst hv
  rw [radioResetProg, run_sendLine, line _ hc, Prog.run_act]
  simp only [State.afterSend_issue, State.nextLine_issue, State.afterLine_issue]
  rfl

/-- A known variant's configuration follows the identity line (R222). -/
theorem exec_radioReset_known (known : v ≠ .unknown) :
    let out := exchangeAll (configOf s.params v) (s.identified v)
    exec .radioReset s = .next (out.2.endOp (if out.1 then 1 else 0)) := by
  have ran := run_radioResetProg hc hv
  rw [if_neg known, run_sendAll _ _ _ _ (by simp) hc, exchangeAll_issue, wordOfBool_eq] at ran
  exact exec_of_run_issue (i := .radioReset) rfl ran

end

/-- Settles O47, by the variant that the identity line names. -/
theorem resetDeviceEffect : Obligations.ResetDeviceEffect := by
  refine ⟨decode_encode .radioReset, fun s hc => ?_⟩
  have cap := lineCap_lt hc
  refine ⟨fun hA => ?_, fun hA hB => ?_, fun hA hB => ?_⟩
  · exact exec_radioReset_known cap (identify_variantA hA) nofun
  · exact exec_radioReset_known cap (identify_variantB hA hB) nofun
  · exact exec_of_run_issue (i := .radioReset) rfl
      (run_radioResetProg cap (identify_unknown hA hB))

/-! ## SLEEP and WAKE (R227, R229) -/

/-- Settles O48: ARG0 against SLEEP_MIN_MS, and one line sent (`run_sendLine`). -/
theorem sleepEffect : Obligations.SleepEffect := by
  refine ⟨decode_encode .radioSleep, fun s => ⟨fun hmin => ?_, fun hmin => ?_⟩⟩
  all_goals rw [exec_operation rfl, runOp, program, radioSleepProg, Prog.run_reg, readReg_arg0,
    State.issue_arg0]
  · rw [if_pos hmin]
    rfl
  · rw [if_neg (Nat.not_le.mpr hmin), run_sendLine, State.afterSend_issue]
    rfl

/-- Settles O49: the break's three lines and the byte, run one after the other. -/
theorem wakeEffect : Obligations.WakeEffect :=
  ⟨decode_encode .radioWake, fun _ => rfl⟩

end Sys2Proof.Machine

/-! CLASSIFY and SEND: the outcome of a line, and the payload of a downlink (43_radio.md R192, R193,
R198, R208 to R213). -/
namespace Sys2Proof.Machine

/-! ## The outcome of a line (R104, R105, R192) -/

/-- Looking up a key of a table without repeated keys finds its entry. -/
theorem find?_key_of_mem {α β : Type} [BEq α] [LawfulBEq α] {table : List (α × β)} {e : α × β}
    (distinct : (table.map Prod.fst).Nodup) (he : e ∈ table) :
    table.find? (fun x => x.1 == e.1) = some e := by
  induction table with
  | nil => cases he
  | cons x table ih =>
    obtain ⟨hx, distinct⟩ := List.nodup_cons.mp distinct
    obtain rfl | he := List.mem_cons.mp he
    · simp
    · have other : x.1 ≠ e.1 := fun h => hx (h ▸ List.mem_map_of_mem he)
      rw [List.find?_cons_of_neg (by simpa using other)]
      exact ih distinct he

/-- The phrases of R105 are the last nine tokens of R106. -/
theorem errorTable_phrases (l : Literals) : (errorTable l).map Prod.fst = l.tokens.drop 3 := rfl

section
variable {l : Literals}

/-- A phrase of the table has the table's outcome (R105). -/
theorem classifyLine_of_mem (hd : l.tokensDistinct = true) (hs : l.tokensSingle = true)
    {e : List Byte × TxOutcome} (he : e ∈ errorTable l) : classifyLine l e.1 = e.2 := by
  have phrases := List.drop_sublist 3 l.tokens
  have distinct : ((errorTable l).map Prod.fst).Nodup :=
    (of_decide_eq_true hd : l.tokens.Nodup).sublist phrases
  have token : e.1 ∈ l.tokens := phrases.subset (errorTable_phrases l ▸ List.mem_map_of_mem he)
  have nonempty : e.1 ≠ [] := by
    have single := (Bool.and_eq_true_iff.mp (List.all_eq_true.mp hs _ token)).1
    simpa using single
  rw [classifyLine, if_neg nonempty, find?_key_of_mem distinct he]

/-- Any other line is NoResponse (R105). -/
theorem classifyLine_of_notMem {line : List Byte} (h : ∀ e ∈ errorTable l, line ≠ e.1) :
    classifyLine l line = .noResponse := by
  have notFound : (errorTable l).find? (fun e => e.1 == line) = none :=
    List.find?_eq_none.mpr fun e he => by simpa using (h e he).symm
  rw [classifyLine, notFound, ite_self]

end

/-- Classifying the current line changes nothing (R192). -/
theorem run_classifyProg {s : State} {line : List Byte} (c : Config)
    (h : s.string? .linebuf s.lineLen = some line) :
    (classifyProg c).run s = .next ((classifyLine c.lits line).code, s) :=
  run_loadOperand (r := .lineLen) _ h

/-- CLASSIFY is the outcome of the current line, and its end (R192). -/
theorem exec_radioClassify {s : State} {line : List Byte}
    (h : s.string? .linebuf s.lineLen = some line) :
    exec .radioClassify s = .next (s.endOp (classifyLine s.params.lits line).code) :=
  exec_of_run_issue (i := .radioClassify) rfl (run_classifyProg s.params (by simpa using h))

/-- Settles O40: R105's table with R104's codes is `errorTable` with each outcome's code. -/
theorem classifyEffect : Obligations.ClassifyEffect := by
  refine ⟨decode_encode .radioClassify, ?_⟩
  intro s line hd hs hline table
  have codes : table = (errorTable s.params.lits).map fun e => (e.1, e.2.code) := rfl
  rw [exec_radioClassify hline]
  refine ⟨fun phrase code hmem heq => ?_, fun hnone => ?_⟩
  · obtain ⟨e, he, hcode⟩ := List.mem_map.mp (codes ▸ hmem)
    obtain ⟨rfl, rfl⟩ := Prod.mk.inj hcode
    rw [heq, classifyLine_of_mem hd hs he]
    rfl
  · rw [classifyLine_of_notMem fun e he =>
      hnone e.1 e.2.code (codes ▸ List.mem_map.mpr ⟨e, he, rfl⟩)]
    rfl

/-! ## The payload of a downlink (R108, R193) -/

/-- A byte that is in a word without a space is no space. -/
theorem ne_spaceChar {w : List Byte} (hw : 0x20 ∉ w) {b : Byte} (hb : b ∈ w) :
    (b != spaceChar) = true :=
  bne_iff_ne.mpr fun h => hw (show spaceChar ∈ w from h ▸ hb)

/-- What follows the first space of a line. -/
theorem drop_dropWhile_space {w : List Byte} (hw : 0x20 ∉ w) (rest : List Byte) :
    ((w ++ 0x20 :: rest).dropWhile (· != spaceChar)).drop 1 = rest := by
  rw [List.dropWhile_append_of_pos fun _ => ne_spaceChar hw]
  rfl

/-- Nothing follows where there is no space. -/
theorem drop_dropWhile_noSpace {w : List Byte} (hw : 0x20 ∉ w) :
    (w.dropWhile (· != spaceChar)).drop 1 = [] := by
  rw [List.dropWhile_eq_nil_iff.mpr fun _ => ne_spaceChar hw, List.drop_nil]

section
variable {w1 w2 : List Byte} (h1 : 0x20 ∉ w1) (h2 : 0x20 ∉ w2)
include h1 h2

theorem downlinkPayload_oneSpace : downlinkPayload (w1 ++ 0x20 :: w2) = [] := by
  rw [downlinkPayload, drop_dropWhile_space h1, drop_dropWhile_noSpace h2]

/-- The payload is all that follows the second space, further spaces among it (R193). -/
theorem downlinkPayload_twoSpaces (data : List Byte) :
    downlinkPayload (w1 ++ 0x20 :: w2 ++ 0x20 :: data) = data := by
  rw [List.append_assoc, List.cons_append, downlinkPayload, drop_dropWhile_space h1,
    drop_dropWhile_space h2]

end

theorem hasSpace_iff {line : List Byte} : hasSpace line = true ↔ 0x20 ∈ line := by
  simp [hasSpace, spaceChar]

/-- The state once a downlink line has been parsed, with room for `cap` characters (R193). -/
def State.afterDownlink (s : State) (cap : Nat) (line : List Byte) : State :=
  { s with
    mem := putBytes s.mem .rxpay 0 ((downlinkPayload line).take cap)
    rxpayLen := wordOfNat ((downlinkPayload line).take cap).length
    rxPending := true
    heldCount := s.heldCount + 1 }

/-- Parsing a downlink line (R193). -/
theorem run_parseDownlink (c : Config) (s : State) (line : List Byte) (p : Prog) :
    (parseDownlink c line p).run s = p.run (s.afterDownlink c.rxpayCap line) := by
  rw [parseDownlink, run_storeBytes]
  rfl

section
variable (s : State) (cap : Nat) {w1 w2 : List Byte} (h1 : 0x20 ∉ w1) (h2 : 0x20 ∉ w2)
include h1 h2

/-- A line with one space has an empty payload (R193). -/
theorem State.afterDownlink_oneSpace : s.afterDownlink cap (w1 ++ 0x20 :: w2) =
    { s with rxpayLen := 0, rxPending := true, heldCount := s.heldCount + 1 } := by
  rw [State.afterDownlink, downlinkPayload_oneSpace h1 h2, List.take_nil]
  rfl

theorem State.afterDownlink_twoSpaces (data : List Byte) :
    s.afterDownlink cap (w1 ++ 0x20 :: w2 ++ 0x20 :: data) = { s with
      mem := putBytes s.mem .rxpay 0 (data.take cap)
      rxpayLen := BitVec.ofNat 32 (min data.length cap)
      rxPending := true
      heldCount := s.heldCount + 1 } := by
  rw [State.afterDownlink, downlinkPayload_twoSpaces h1 h2, List.length_take, Nat.min_comm]
  rfl

end

/-! ## SEND (R208 to R213) -/

/-- How SEND ends for the line of the receive window: RESULT, and the state after the one that has read
the line (R208, R210). -/
def State.windowEnd (s : State) (c : Config) (line : List Byte) : Word × State :=
  if line = [] then (2, s)
  else if line = c.lits.tokTxOk then (0, s)
  else if 0x20 ∈ line then (0, s.afterDownlink c.rxpayCap line)
  else ((classifyLine c.lits line).code, s)

/-- The issue commutes with the end of the window. -/
theorem State.windowEnd_issue (s : State) (i : Instr) (c : Config) (line : List Byte) :
    (s.issue i).windowEnd c line = ((s.windowEnd c line).1, (s.windowEnd c line).2.issue i) := by
  unfold State.windowEnd
  split_ifs <;> rfl

/-- The receive window of SEND (R208, R210). -/
theorem run_receiveWindow {c : Config} {s : State} (hp : s.params = c) (hc : c.lineCap < 4294967296) :
    (receiveWindow c).run s =
      .next ((s.afterLine (s.nextLine c.tRxwinMs)).windowEnd c (s.nextLine c.tRxwinMs).line) := by
  have there := string?_nextLine s c.tRxwinMs (hp ▸ hc)
  rw [receiveWindow, run_readLine _ _ _ _ hp]
  generalize s.afterLine (s.nextLine c.tRxwinMs) = s2 at there ⊢
  unfold State.windowEnd
  simp only [List.length_eq_zero_iff]
  split
  · rfl
  rw [run_tokEq _ _ there]
  simp only [beq_iff_eq]
  split
  · rfl
  rw [currentLine, run_loadOperand _ there]
  simp only [hasSpace_iff]
  split
  · exact run_parseDownlink _ _ _ _
  · exact run_classifyProg _ there

/-- The transmit command's text, with the port as ARG0's low byte (R209). -/
theorem txText_argByte (l : Literals) (conf : Bool) (w : Word) :
    txText l conf (argByte w) =
      (if conf then l.cmdTxCnf else l.cmdTxUncnf) ++ decText (w.toNat % 256) ++ [0x20] := by
  rw [txText, argByte_eq_setWidth, BitVec.toNat_setWidth]
  rfl

/-- SEND once its transmit command has been exchanged (R208). -/
theorem run_radioSendProg {s : State} {conf : Bool} {payload text : List Byte}
    (hc : s.params.lineCap < 4294967296) (hp : s.string? .opbufB s.opbLen = some payload)
    (htext : txText s.params.lits conf (argByte s.arg0) = text) :
    let s0 : State := { s with rxPending := false }
    (radioSendProg s.params conf).run (s.issue (.radioSend conf)) =
      (if s0.reply text (hexText payload) s.params.tCmdMs = s.params.lits.tokOk
        then receiveWindow s.params else classifyProg s.params).run
        ((s0.exchange text (hexText payload) s.params.tCmdMs).issue (.radioSend conf)) := by
  intro s0
  have there : (s0.issue (.radioSend conf)).string? .opbufB s.opbLen = some payload :=
    (State.string?_congr (s := s) (t := s0.issue (.radioSend conf)) rfl rfl ..).trans hp
  have sent := run_sendCmd s.params (s0.issue (.radioSend conf)) text (hexText payload)
    (fun ok => if ok then receiveWindow s.params else classifyProg s.params) rfl hc
  simp only [State.reply_issue, State.exchange_issue, beq_iff_eq] at sent
  subst htext
  exact (run_loadOperand (r := .opbLen) _ there).trans sent

/-- Settles O43: the reply decides whether the receive window opens (`run_radioSendProg`), and its line
which of the four ends SEND takes (`run_receiveWindow`). -/
theorem sendEffect : Obligations.SendEffect := by
  refine ⟨decode_encode (.radioSend false), decode_encode (.radioSend true), ?_⟩
  intro s conf payload hc hp l text s0 s1 r s2 line
  have cap := lineCap_lt hc
  have params : s1.params = s.params := State.exchange_params ..
  have ran : (radioSendProg s.params conf).run (s.issue (.radioSend conf)) =
      (if r = l.tokOk then receiveWindow s.params else classifyProg s.params).run
        (s1.issue (.radioSend conf)) := run_radioSendProg cap hp (txText_argByte l conf s.arg0)
  refine ⟨fun hr => ?_, fun hr => ?_⟩
  · have reply : s1.string? .linebuf s1.lineLen = some r := string?_exchange _ _ _ _ cap
    rw [if_neg hr, run_classifyProg _ ((State.string?_issue ..).trans reply)] at ran
    exact exec_of_run_issue rfl ran
  · have window := run_receiveWindow (s := s1.issue (.radioSend conf)) params cap
    rw [State.nextLine_issue, State.afterLine_issue, State.windowEnd_issue] at window
    rw [if_pos hr, window] at ran
    have ends : exec (.radioSend conf) s =
        .next ((s2.windowEnd s.params line).2.endOp (s2.windowEnd s.params line).1) :=
      exec_of_run_issue rfl ran
    rw [ends, State.windowEnd]
    refine ⟨fun h => ?_, fun h hok => ?_, fun hok w1 w2 h1 h2 => ⟨fun h => ?_, fun data h => ?_⟩,
      fun h hok hspace => ?_⟩
    · rw [if_pos h]
    · rw [if_neg h, if_pos hok]
    · rw [if_neg (by simp [h]), if_neg hok, if_pos (by simp [h]), h,
        State.afterDownlink_oneSpace _ _ h1 h2]
    · rw [if_neg (by simp [h]), if_neg hok, if_pos (by simp [h]), h,
        State.afterDownlink_twoSpaces _ _ h1 h2]
    · rw [if_neg h, if_neg hok, if_neg hspace]

end Sys2Proof.Machine

/-! RECEIVE and RX_CONSUME (43_radio.md R216, R217, R219). -/
namespace Sys2Proof.Machine

/-! ## Hex text that was received (R111, R216) -/

/-- A character without a partner gives no byte. -/
theorem hexBytes_of_length_le_one (room n : Nat) {cs : List Byte} (h : cs.length ≤ 1) :
    hexBytes room n cs = ([], n) := by
  match room, cs with
  | 0, _ => rfl
  | _ + 1, [] => rfl
  | _ + 1, [_] => rfl
  | _ + 1, _ :: _ :: _ => simp at h

/-- A byte for each pair of characters, at most `room` of them (R217). -/
theorem hexBytes_length (room n : Nat) (cs : List Byte) :
    (hexBytes room n cs).1.length = min room (cs.length / 2) := by
  induction room generalizing n cs with
  | zero => simp [hexBytes]
  | succ room ih =>
    match cs with
    | [] => simp [hexBytes]
    | [_] => simp [hexBytes]
    | c1 :: c2 :: cs =>
      simp only [hexBytes, List.length_cons, ih]
      omega

/-- The state with `n` the number of the next free value (log 11). -/
def State.withFree (s : State) (n : Nat) : State := { s with freeCount := n }

/-- A character's nibble; a free value is used where the character is no hex digit (R111). -/
theorem run_hexVal (s : State) (ch : Byte) (k : BitVec 4 → Prog) :
    (hexVal ch k).run s =
      (k (hexNibble s.freeCount ch).1).run (s.withFree (hexNibble s.freeCount ch).2) := by
  unfold hexVal hexNibble
  cases hexVal? ch <;> rfl

/-! ## The stored payload (R216) -/

/-- The payload text ends at a zero byte. -/
theorem payloadText_cons (v : Byte) (vs : List Byte) :
    payloadText (v :: vs) = if v = 0 then [] else v :: payloadText vs := by
  rw [payloadText, List.takeWhile_cons]
  by_cases h : v = 0
  · simp [h]
  · rw [if_pos (bne_iff_ne.mpr h), if_neg h]
    rfl

/-- RECEIVE finds the length of the payload text (R216). -/
theorem run_payloadLength {s : State} {i n : Nat} {stored : List Byte} (k : Nat → Prog)
    (hs : i + n ≤ Buf.rxpay.size s.params) (h : s.bytes? .rxpay i n = some stored) :
    (payloadLength i n k).run s = (k (i + (payloadText stored).length)).run s := by
  induction n generalizing i stored with
  | zero => cases h; rfl
  | succ n ih =>
    simp only [State.bytes?] at h
    split at h
    · next v vs hv hvs =>
      cases h
      rw [payloadLength, Prog.run_load _ (by omega) hv, payloadText_cons]
      by_cases h0 : v = 0
      · rw [if_pos h0, if_pos h0]
        rfl
      · rw [if_neg h0, if_neg h0, ih (by omega) hvs, List.length_cons, Nat.add_right_comm]
        rfl
    · cases h

/-- The same from the register RXPAY_LEN. -/
theorem run_storedLength {s : State} {stored : List Byte} (k : Nat → Prog)
    (h : s.string? .rxpay s.rxpayLen = some stored) :
    (Prog.reg .rxpayLen fun n => payloadLength 0 n.toNat k).run s =
      (k (payloadText stored).length).run s := by
  obtain ⟨fits, there⟩ := State.string?_eq_some.mp h
  rw [Prog.run_reg, readReg_rxpayLen, run_payloadLength k (by omega) there, Nat.zero_add]

/-- RXPAY begins with the bytes of `text`. -/
structure State.Holds (s : State) (text : List Byte) : Prop where
  fits : text.length ≤ Buf.rxpay.size s.params
  there : s.bytes? .rxpay 0 text.length = some text

/-- RXPAY begins with the stored payload. -/
theorem State.Holds.of_string? {s : State} {len : Word} {stored : List Byte}
    (h : s.string? .rxpay len = some stored) : s.Holds stored := by
  obtain ⟨fits, there⟩ := State.string?_eq_some.mp h
  obtain ⟨length, -⟩ := State.bytes?_eq_some.mp there
  rw [← length] at fits there
  exact ⟨fits, there⟩

section
variable {s : State} {text : List Byte} (h : s.Holds text)
include h

theorem State.Holds.byte? {p : Nat} (hp : p < text.length) : s.byte? .rxpay p = some text[p] := by
  have byte := (State.bytes?_eq_some.mp h.there).2 p hp
  rwa [Nat.zero_add] at byte

theorem State.Holds.run_load {p : Nat} (hp : p < text.length) (k : Byte → Prog) :
    (Prog.load .rxpay p k).run s = (k text[p]).run s :=
  Prog.run_load k (Nat.lt_of_lt_of_le hp h.fits) (h.byte? hp)

theorem State.Holds.withFree (n : Nat) : (s.withFree n).Holds text :=
  ⟨h.fits, (State.bytes?_congr (s := s) (t := s.withFree n) rfl ..).trans h.there⟩

theorem State.Holds.writeByte (j : Nat) (v : Byte) : (s.writeByte .outbuf j v).Holds text := by
  refine ⟨h.fits, State.bytes?_eq_some.mpr ⟨rfl, fun p hp => ?_⟩⟩
  rw [Nat.zero_add, State.byte?_writeByte_other _ _ (.inl (by simp)), h.byte? hp]

/-- The beginning of the text is there too. -/
theorem State.Holds.payloadText : s.Holds (payloadText text) := by
  have prefixed : Machine.payloadText text <+: text := List.takeWhile_prefix _
  refine ⟨prefixed.length_le.trans h.fits, State.bytes?_eq_some.mpr ⟨rfl, fun p hp => ?_⟩⟩
  rw [Nat.zero_add, h.byte? (Nat.lt_of_lt_of_le hp prefixed.length_le), prefixed.getElem hp]

/-- A pair of characters is decoded, high nibble first (R111). -/
theorem State.Holds.run_pair {p : Nat} (hp : p + 1 < text.length) (k : BitVec 4 → BitVec 4 → Prog) :
    (Prog.load .rxpay p fun c1 => hexVal c1 fun hi =>
      .load .rxpay (p + 1) fun c2 => hexVal c2 fun lo => k hi lo).run s =
      let hi := hexNibble s.freeCount text[p]
      let lo := hexNibble hi.2 text[p + 1]
      (k hi.1 lo.1).run (s.withFree lo.2) := by
  rw [h.run_load (by omega), run_hexVal, (h.withFree _).run_load hp, run_hexVal]
  rfl

end

/-- The state once bytes have been decoded into OUTBUF from `j` on, and the next free value (R216). -/
def State.decoded (s : State) (j : Nat) (d : List Byte × Nat) : State :=
  { s with mem := putBytes s.mem .outbuf j d.1, freeCount := d.2 }

/-- The copy loop decodes the pairs of characters from `p` on (R216). -/
theorem run_copyLoop {s : State} {text : List Byte} (h : s.Holds text) (room j p : Nat) :
    (copyLoop text.length room j p).run s =
      .next (wordOfNat (j + (hexBytes room s.freeCount (text.drop p)).1.length),
        s.decoded j (hexBytes room s.freeCount (text.drop p))) := by
  induction room generalizing s j p with
  | zero => rfl
  | succ room ih =>
    rw [copyLoop]
    split
    · next hp =>
      rw [List.drop_eq_getElem_cons (by omega : p < text.length), List.drop_eq_getElem_cons hp,
        h.run_pair hp, Prog.run_act, Act.apply, ih ((h.withFree _).writeByte ..), hexBytes,
        List.length_cons, Nat.add_right_comm]
      rfl
    · rw [hexBytes_of_length_le_one _ _ (by rw [List.length_drop]; omega)]
      rfl

/-! ## RECEIVE (R216, R217) -/

section
variable {s : State}

/-- A count above OUT_CAP is refused (R216). -/
theorem exec_radioRecv_refused (h : s.params.outCap < s.arg1.toNat) :
    exec .radioRecv s = .refused (.countAboveOutCap s.arg1) := by
  rw [exec_operation rfl, runOp, program, radioRecvProg, Prog.run_reg, Prog.run_reg, readReg_arg1,
    State.issue_arg1, if_pos h]
  rfl

variable (h : s.arg1.toNat ≤ s.params.outCap)
include h

/-- Without a pending payload RECEIVE returns 0 (R216). -/
theorem exec_radioRecv_empty (hp : s.rxPending = false) : exec .radioRecv s = .next (s.endOp 0) := by
  refine exec_of_run_issue (i := .radioRecv) rfl ?_
  rw [program, radioRecvProg, Prog.run_reg, Prog.run_reg, if_neg (by simpa using h), Prog.run_reg,
    if_neg (by simp [hp])]
  rfl

/-- A pending payload is decoded from character 2·offset on (R216). -/
theorem exec_radioRecv_pending {stored : List Byte} (hp : s.rxPending = true)
    (hstored : s.string? .rxpay s.rxpayLen = some stored) :
    let d := hexBytes s.arg1.toNat s.freeCount ((payloadText stored).drop (2 * s.arg0.toNat))
    exec .radioRecv s = .next ((s.decoded 0 d).endOp (wordOfNat d.1.length)) := by
  intro d
  have there : (s.issue .radioRecv).string? .rxpay s.rxpayLen = some stored := by simpa
  refine exec_of_run_issue (i := .radioRecv) rfl ?_
  rw [program, radioRecvProg, Prog.run_reg, Prog.run_reg, if_neg (by simpa using h), Prog.run_reg,
    if_pos (by simp [hp]), run_storedLength _ there]
  split
  · next beyond =>
    have beyond : (payloadText stored).length < s.arg0.toNat := beyond
    have none : d = ([], s.freeCount) :=
      hexBytes_of_length_le_one _ _ (by rw [List.length_drop]; omega)
    rw [none]
    rfl
  · rw [run_copyLoop (State.Holds.of_string? there).payloadText, Nat.zero_add]
    rfl

end

/-- Settles O44, by the count and RX_PENDING. -/
theorem receiveEffect : Obligations.ReceiveEffect := by
  refine ⟨decode_encode .radioRecv, fun s => ⟨exec_radioRecv_refused, exec_radioRecv_empty, ?_⟩⟩
  intro stored h hp hstored
  exact exec_radioRecv_pending h hp hstored

/-- Settles O45: RESULT is the number of bytes decoded (`hexBytes_length`), which fits the register
since the count does. -/
theorem receiveCount : Obligations.ReceiveCount := by
  intro s stored h hp hstored
  have count := s.arg1.isLt
  refine ⟨_, exec_radioRecv_pending h hp hstored, ?_⟩
  rw [State.endOp_result, wordOfNat_toNat, hexBytes_length, List.length_drop]
  rw [hexBytes_length]
  omega

/-! ## RX_CONSUME (R219) -/

/-- Settles O46: RX_CONSUME is one line, and what RECEIVE then finds is no pending payload. -/
theorem consumeEffect : Obligations.ConsumeEffect := by
  refine ⟨decode_encode .radioConsume, fun s => ⟨_, rfl, rfl, fun h => ?_⟩⟩
  exact ⟨_, exec_radioRecv_empty h rfl, rfl⟩

end Sys2Proof.Machine

/-! JOIN: its exchanges, and what JOIN_STATE says at its end (43_radio.md R200 to R204). -/
namespace Sys2Proof.Machine

/-! ## The join command and the accept line (R200, R201) -/

/-- The state with another JOIN_STATE (R33). -/
def State.withJoin (s : State) (j : JoinState) : State := { s with joinState := j }

theorem Act.apply_setJoinState (s : State) (j : JoinState) :
    (Act.setJoinState j).apply s = s.withJoin j := rfl

@[simp] theorem State.withJoin_params (s : State) (j : JoinState) :
    (s.withJoin j).params = s.params := rfl
@[simp] theorem State.withJoin_adr (s : State) (j : JoinState) : (s.withJoin j).adr = s.adr := rfl
@[simp] theorem State.key?_withJoin (s : State) (j : JoinState) (b : Buf) :
    (s.withJoin j).key? b = s.key? b := State.key?_congr (s := s) (t := s.withJoin j) rfl rfl b
@[simp] theorem State.key?_issue (s : State) (i : Instr) (b : Buf) :
    (s.issue i).key? b = s.key? b := State.key?_congr (s := s) (t := s.issue i) rfl rfl b
@[simp] theorem State.withJoin_issue (s : State) (i : Instr) (j : JoinState) :
    (s.issue i).withJoin j = (s.withJoin j).issue i := rfl

/-- JOIN after the join command's "ok" (R201). -/
def joinAcceptProg (c : Config) : Prog :=
  readLine c Config.tJoinMs fun _ =>
  tokEq c.lits.tokAccepted fun accepted =>
  if accepted then .act (.setJoinState .joined) (.ret 1)
  else .act (.setJoinState .notJoined) (.ret 0)

theorem joinExchange_eq (c : Config) (mode : JoinMode) :
    joinExchange c mode =
      .act (.setJoinState .awaitingOk) (sendCmd c c.lits.cmdJoin (joinKeyword c.lits mode) fun ok =>
        if ok then .act (.setJoinState .awaitingAccept) (joinAcceptProg c)
        else .act (.setJoinState .notJoined) (.ret 0)) := rfl

/-- R201's reply by its outcome. -/
theorem State.joinReply_eq (s : State) (kw : List Byte) :
    s.joinReply kw =
      let u := s.exchange s.params.lits.cmdJoin kw s.params.tCmdMs
      if s.reply s.params.lits.cmdJoin kw s.params.tCmdMs = s.params.lits.tokOk then
        (u.withJoin .awaitingAccept).joinAccept
      else (0, u.withJoin .notJoined) := rfl

/-- R201's parameter commands by their outcome. -/
theorem State.joined_eq (s : State) (steps : List (List Byte × List Byte)) (kw : List Byte) :
    s.joined steps kw =
      let out := exchangeAll steps (s.withJoin .notJoined)
      if out.1 then (out.2.withJoin .awaitingOk).joinReply kw else (0, out.2) := by
  unfold State.joined State.withJoin
  split <;> simp [*]

section
variable {c : Config} {s : State} (hp : s.params = c) (hc : c.lineCap < 4294967296)
include hp hc

/-- The accept line (R201). -/
theorem run_joinAcceptProg : (joinAcceptProg c).run s = .next s.joinAccept := by
  subst hp
  refine (run_readLine_currentLine s Config.tJoinMs _ hc).trans ?_
  unfold State.joinAccept
  simp only [beq_iff_eq, Config.tJoinMs]
  split <;> rfl

/-- The join command from AwaitingOk on (R201). -/
theorem run_joinExchange (mode : JoinMode) :
    (joinExchange c mode).run s =
      .next ((s.withJoin .awaitingOk).joinReply (joinKeyword c.lits mode)) := by
  rw [joinExchange_eq, Prog.run_act, Act.apply_setJoinState]
  have params : (s.withJoin .awaitingOk).params = c := hp
  generalize s.withJoin .awaitingOk = u at params ⊢
  subst params
  rw [run_sendCmd _ _ _ _ _ rfl hc, State.joinReply_eq]
  simp only [beq_iff_eq]
  split
  · exact run_joinAcceptProg (s := (u.exchange ..).withJoin .awaitingAccept) (by simp) hc
  · rfl

/-- JOIN once its keys have been loaded (R201). -/
theorem run_radioJoinProg {mode : JoinMode} {steps : List (List Byte × List Byte)}
    (hkeys : ∀ k, (loadKeys c (joinKeys c.lits mode) k).run (s.withJoin .notJoined) =
      (k steps).run (s.withJoin .notJoined)) :
    (radioJoinProg c mode).run s =
      .next (s.joined (steps ++ [(c.lits.cmdSetAdr, adrText c.lits s.adr)])
        (joinKeyword c.lits mode)) := by
  have sent := exchangeAll_params (steps ++ [(c.lits.cmdSetAdr, adrText c.lits s.adr)])
    (s.withJoin .notJoined)
  rw [radioJoinProg, Prog.run_act, Prog.run_reg, Act.apply_setJoinState, readReg_cfg,
    State.withJoin_adr, cfgAdr_wordOfBool, hkeys, run_sendAll c (s.withJoin .notJoined) _ _ hp hc,
    State.joined_eq]
  generalize exchangeAll _ (s.withJoin .notJoined) = out at sent ⊢
  obtain ⟨ok, t⟩ := out
  cases ok with
  | true => exact run_joinExchange (sent.trans hp) hc mode
  | false => rfl

end

/-! ## From issue to end -/

section
variable (s : State) (i : Instr)

theorem State.joinAccept_issue :
    (s.issue i).joinAccept = (s.joinAccept.1, s.joinAccept.2.issue i) := by
  simp only [State.joinAccept, State.nextLine_issue, State.issue_params]
  split <;> rfl

theorem State.joinReply_issue (kw : List Byte) :
    (s.issue i).joinReply kw = ((s.joinReply kw).1, (s.joinReply kw).2.issue i) := by
  simp only [State.joinReply_eq, State.reply_issue, State.exchange_issue, State.issue_params,
    State.withJoin_issue, State.joinAccept_issue]
  split <;> rfl

theorem State.joined_issue (steps : List (List Byte × List Byte)) (kw : List Byte) :
    (s.issue i).joined steps kw = ((s.joined steps kw).1, (s.joined steps kw).2.issue i) := by
  simp only [State.joined_eq, State.withJoin_issue, exchangeAll_issue, State.joinReply_issue]
  split <;> rfl

end

/-- The three keys of a mode (R202, R203). -/
theorem run_loadKeys_three {c : Config} {s : State} {t1 t2 t3 k1 k2 k3 : List Byte} {b1 b2 b3 : Buf}
    (hp : s.params = c) (h1 : s.key? b1 = some k1) (h2 : s.key? b2 = some k2)
    (h3 : s.key? b3 = some k3) (k : List (List Byte × List Byte) → Prog) :
    (loadKeys c [(t1, b1), (t2, b2), (t3, b3)] k).run s =
      (k [(t1, hexText k1), (t2, hexText k2), (t3, hexText k3)]).run s := by
  rw [run_loadKeys_cons _ _ hp h1, run_loadKeys_cons _ _ hp h2, run_loadKeys_cons _ _ hp h3]
  rfl

/-- JOIN of a mode whose three keys are there (R201). -/
theorem exec_radioJoin {s : State} {mode : JoinMode} {t1 t2 t3 k1 k2 k3 : List Byte} {b1 b2 b3 : Buf}
    (hc : s.params.lineCap < 4294967296)
    (hkeys : joinKeys s.params.lits mode = [(t1, b1), (t2, b2), (t3, b3)])
    (h1 : s.key? b1 = some k1) (h2 : s.key? b2 = some k2) (h3 : s.key? b3 = some k3) :
    let out := s.joined [(t1, hexText k1), (t2, hexText k2), (t3, hexText k3),
      (s.params.lits.cmdSetAdr, adrText s.params.lits s.adr)] (joinKeyword s.params.lits mode)
    exec (.radioJoin mode) s = .next (out.2.endOp out.1) := by
  have there {b : Buf} {v : List Byte} (h : s.key? b = some v) :
      ((s.issue (.radioJoin mode)).withJoin .notJoined).key? b = some v := by
    rwa [State.key?_withJoin, State.key?_issue]
  have ran := run_radioJoinProg (s := s.issue (.radioJoin mode)) (mode := mode) rfl hc
    (fun k => hkeys ▸ run_loadKeys_three rfl (there h1) (there h2) (there h3) k)
  rw [State.joined_issue] at ran
  exact exec_of_run_issue (i := .radioJoin mode) rfl ran

/-- Settles O41: each mode's keys, and R201's exchanges (`exec_radioJoin`). -/
theorem joinEffect : Obligations.JoinEffect := by
  refine ⟨decode_encode (.radioJoin .otaa), decode_encode (.radioJoin .abp), ?_⟩
  intro s k1 k2 k3 hc l adr
  exact ⟨exec_radioJoin (mode := .otaa) (lineCap_lt hc) rfl,
    exec_radioJoin (mode := .abp) (lineCap_lt hc) rfl⟩

/-! ## What JOIN_STATE says at the end (R204) -/

section
variable {c : Config} {s : State} {r : Word × State} (hp : s.params = c)
include hp

/-- A command that went on has exchanged its line, whatever its reply was (R191). -/
theorem sendCmd_next_exchange {text param : List Byte} {k : Bool → Prog}
    (h : (sendCmd c text param k).run s = .next r) :
    ∃ ok, (k ok).run (s.exchange text param c.tCmdMs) = .next r := by
  rw [sendCmd, run_sendLine, run_readLine _ _ _ _ (by simpa using hp)] at h
  obtain ⟨line, -, h⟩ := loadOperand_next h
  exact ⟨_, h⟩

/-- Commands leave JOIN_STATE alone, whatever their replies are. -/
theorem sendAll_next {l : List (List Byte × List Byte)} {k : Bool → Prog}
    (h : (sendAll c l k).run s = .next r) :
    ∃ ok s', s'.params = c ∧ s'.joinState = s.joinState ∧ (k ok).run s' = .next r := by
  induction l generalizing s with
  | nil => exact ⟨true, s, hp, rfl, h⟩
  | cons e l ih =>
    obtain ⟨ok, h⟩ := sendCmd_next_exchange hp h
    have params := (s.exchange_params e.1 e.2 c.tCmdMs).trans hp
    have kept : (s.exchange e.1 e.2 c.tCmdMs).joinState = s.joinState := by
      rw [State.exchange, State.afterSend_frame]
      rfl
    cases ok with
    | true =>
      obtain ⟨ok, s', hp', hj, h⟩ := ih params h
      exact ⟨ok, s', hp', hj.trans kept, h⟩
    | false => exact ⟨false, _, params, kept, h⟩

end

/-- Keys that were loaded leave the state alone. -/
theorem loadKeys_next {c : Config} {s : State} {r : Word × State} {keys : List (List Byte × Buf)}
    {k : List (List Byte × List Byte) → Prog} (h : (loadKeys c keys k).run s = .next r) :
    ∃ steps, (k steps).run s = .next r := by
  induction keys generalizing k with
  | nil => exact ⟨[], h⟩
  | cons e keys ih =>
    obtain ⟨v, -, h⟩ := loadBytes_next h
    obtain ⟨steps, h⟩ := ih h
    exact ⟨_, h⟩

/-- JOIN_STATE and RESULT agree (R204). -/
def JoinTells (r : Word × State) : Prop :=
  (r.1 = 1 ∧ r.2.joinState = .joined) ∨ (r.1 = 0 ∧ r.2.joinState = .notJoined)

section
variable {c : Config} {s : State} {r : Word × State} (hp : s.params = c)
include hp

theorem joinAcceptProg_tells (h : (joinAcceptProg c).run s = .next r) : JoinTells r := by
  rw [joinAcceptProg, run_readLine _ _ _ _ hp] at h
  obtain ⟨line, -, h⟩ := loadOperand_next h
  dsimp only at h
  split at h <;> cases h
  · exact .inl ⟨rfl, rfl⟩
  · exact .inr ⟨rfl, rfl⟩

theorem joinExchange_tells {mode : JoinMode} (h : (joinExchange c mode).run s = .next r) :
    JoinTells r := by
  rw [joinExchange_eq, Prog.run_act] at h
  have params : ((Act.setJoinState .awaitingOk).apply s).params = c := hp
  obtain ⟨ok, h⟩ := sendCmd_next_exchange params h
  cases ok with
  | true =>
    rw [if_pos rfl, Prog.run_act] at h
    exact joinAcceptProg_tells (by simpa [Act.apply_setJoinState] using hp) h
  | false => cases h; exact .inr ⟨rfl, rfl⟩

end

/-- Settles O42: JOIN_STATE is NotJoined through the parameter commands (`sendAll_next`), and the join
exchange sets it with each of its returns (`joinExchange_tells`). -/
theorem joinStateTellsTheResult : Obligations.JoinStateTellsTheResult := by
  intro mode s t h
  obtain ⟨v, u, hu, rfl⟩ := run_of_exec rfl h
  suffices JoinTells (v, u) from this
  rw [program, radioJoinProg, Prog.run_act, Prog.run_reg] at hu
  obtain ⟨steps, hu⟩ := loadKeys_next hu
  obtain ⟨ok, s', hp, hj, hu⟩ := sendAll_next (by rfl) hu
  cases ok with
  | true => exact joinExchange_tells hp hu
  | false => cases hu; exact .inr ⟨rfl, hj⟩

end Sys2Proof.Machine

/-! Where an instruction begins and ends: the fetched word, the `return` in one step, and the sequencer
beside the blocking call (60_exceptions.md R240 to R242). -/
namespace Sys2Proof.Machine

/-! ## The fetched word (R240, log 3) -/

/-- A word that decodes is a word of one of the table's formats. -/
theorem decodeTableWord_eq_some {nbits w : Nat} {i : Instr} (h : decodeTableWord nbits w = some i) :
    ∃ iw, tableWord nbits w = some iw ∧ decode iw = .ok i := by
  unfold decodeTableWord at h
  split at h
  · next iw hiw =>
    split at h
    · next hd => cases h; exact ⟨iw, hiw, hd⟩
    · cases h
  · cases h

/-- Settles O7: the placed word is the next request, and an idle block runs it
(`stepRunsTheInstruction`). -/
theorem fetchedWordRunsNext : Obligations.FetchedWordRunsNext := by
  intro s nbits w i h
  obtain ⟨iw, hiw, hd⟩ := decodeTableWord_eq_some h
  have placed : s.withFetchWord nbits w = s.withRequest iw := by simp only [State.withFetchWord, hiw]
  obtain ⟨-, -, runs⟩ := stepRunsTheInstruction (s.withRequest iw) s.inputs
  rw [placed]
  exact runs iw i rfl rfl hd

/-! ## The end of an instruction (R241) -/

/-- A block left to itself whose operation stands at a position of its pseudocode takes one primitive
from there (R48). -/
theorem step_position {s : State} {i : Instr} {ph : List Resp} {p : Prog} (hin : s.inputs = [])
    (hs : s.seq = .exec i ph) (hp : (program s.params i).resume ph = some p) :
    step s = p.stepOnce i ph s := by
  rw [step_eq_serve, State.request_nil hin, State.taken_nil hin, serve]
  simp only [seqStep, hs, hp]

/-- A line leaves the ports as what is known after it says. -/
theorem Act.apply_ports {s : State} {k : Track} (a : Act) (hd : s.busDrive = k.drive)
    (ho : s.serialOut = k.out) :
    (a.apply s).busDrive = (k.after a).drive ∧ (a.apply s).serialOut = (k.after a).out := by
  cases a with
  | busDriveLow | busRelease => exact ⟨rfl, ho⟩
  | breakStart | breakEnd => exact ⟨hd, rfl⟩
  | store b i v =>
    cases b with
    | linebuf | rxpay => simp only [Track.after]; split <;> exact ⟨hd, ho⟩
    | _ => exact ⟨hd, ho⟩
  | _ => exact ⟨hd, ho⟩

/-- Pseudocode that is in order ends with both ports idle, whatever the buffers hold. -/
theorem Prog.run_ports {c : Config} {p : Prog} {k : Track} {s u : State} {v : Word}
    (hp : p.Safe c k) (hd : s.busDrive = k.drive) (ho : s.serialOut = k.out)
    (h : p.run s = .next (v, u)) : u.busDrive = false ∧ u.serialOut = .mark := by
  induction p generalizing s k with
  | ret w => cases h; exact ⟨hd.trans hp.1, ho.trans hp.2⟩
  | act a p ih =>
    obtain ⟨hd, ho⟩ := Act.apply_ports a hd ho
    exact ih hp.2 hd ho h
  | sample f ih => exact ih _ (s := s.afterSample) (hp.2 _) hd ho h
  | recv tmo f ih => exact ih _ (s := s.afterRecv tmo) (hp _) hd ho h
  | nibble f ih => exact ih _ (s := s.useFree) (hp _) hd ho h
  | load b j f ih =>
    obtain ⟨v, h⟩ := load_next h
    exact ih v (hp v) hd ho h
  | reg r f ih => exact ih _ (hp _) hd ho h
  | refuse r => cases h

/-- Every instruction that begins with idle ports ends with idle ports. -/
theorem exec_ports {i : Instr} {s t : State} (h : exec i s = .next t) (hd : s.busDrive = false)
    (ho : s.serialOut = .mark) : t.busDrive = false ∧ t.serialOut = .mark := by
  have safe := safe_program s.params i Track.start_idle
  cases hi : i.isOperation with
  | true =>
    obtain ⟨v, u, hu, rfl⟩ := run_of_exec hi h
    have idle : u.busDrive = false ∧ u.serialOut = .mark :=
      Prog.run_ports (s := s.issue i) safe hd ho hu
    exact idle
  | false =>
    obtain ⟨v, hv⟩ := run_of_exec_part hi h
    exact Prog.run_ports safe hd ho hv

/-- Settles O9: the step at a `return` is the operation's end, and pseudocode that is in order leaves the
ports idle (`exec_ports`). -/
theorem operationEnd : Obligations.OperationEnd := by
  refine ⟨fun s i ph v hin hs hp => ⟨step_position hin hs hp, ?_⟩, fun i s t h hd ho => ?_⟩
  · exact (statusWord_busy (s.endOp v)).trans (s.endOp_busy v)
  · obtain ⟨hd, ho⟩ := exec_ports h hd ho
    refine ⟨hd, ho, fun hi => ?_⟩
    obtain ⟨v, u, -, rfl⟩ := run_of_exec hi h
    rfl

/-! ## The sequencer and the blocking call (R27, R240 to R242, log 2) -/

/-- The outcome of an operation whose pseudocode ran so: a `return` is followed by the end (R241). -/
def ended : Host.Outcome (Word × State) Fault Refusal → Host.Outcome State Fault Refusal
  | .next (v, t) => .next (t.endOp v)
  | .fault f => .fault f
  | .refused r => .refused r

/-- A blocking call by the run of its pseudocode. -/
theorem runOp_eq_ended (i : Instr) (p : Prog) (s : State) :
    runOp i p s = ended (p.run (s.issue i)) := by
  unfold runOp ended
  split <;> simp [*]

/-- After some number of steps, before each of which the block is busy, the outcome is `o`. -/
def State.Reaches (s : State) (o : Host.Outcome State Fault Refusal) : Prop :=
  ∃ n, runSteps n s = o ∧ ∀ m, m < n → ∃ u, runSteps m s = .next u ∧ u.busy = true

section
variable {s t : State} {o : Host.Outcome State Fault Refusal}

theorem runSteps_succ (n : Nat) (h : step s = .next t) : runSteps (n + 1) s = runSteps n t := by
  have h : Sys2Proof.core.step s = .next t := h
  simp only [runSteps, Host.Core.run, h]
  rfl

theorem runSteps_one (s : State) : runSteps 1 s = step s := by
  simp only [runSteps, Host.Core.run]
  change _ = Sys2Proof.core.step s
  cases Sys2Proof.core.step s <;> rfl

/-- The last step. -/
theorem State.Reaches.last (hb : s.busy = true) (h : step s = o) : s.Reaches o := by
  refine ⟨1, (runSteps_one s).trans h, fun m hm => ?_⟩
  obtain rfl : m = 0 := by omega
  exact ⟨s, rfl, hb⟩

/-- One step more before. -/
theorem State.Reaches.after (hb : s.busy = true) (h : step s = .next t) (ht : t.Reaches o) :
    s.Reaches o := by
  obtain ⟨n, hn, busy⟩ := ht
  refine ⟨n + 1, (runSteps_succ n h).trans hn, fun m hm => ?_⟩
  cases m with
  | zero => exact ⟨s, rfl, hb⟩
  | succ m =>
    obtain ⟨u, hu, hbu⟩ := busy m (by omega)
    exact ⟨u, (runSteps_succ m h).trans hu, hbu⟩

end

section
variable (s : State) (i : Instr) (ph ph' : List Resp)

/-- A line does not look at the phase. -/
theorem Act.apply_atPhase (a : Act) : a.apply (s.atPhase i ph) = (a.apply s).atPhase i ph := by
  cases a <;> rfl

/-- Nor does a register: STATUS shows that an operation runs, not where it stands (R26, R48). -/
theorem State.readReg_atPhase (r : Reg) :
    (s.atPhase i ph).readReg r = (s.atPhase i ph').readReg r := by
  cases r <;> rfl

end

/-- The position after one more answer, from the position before it. -/
theorem Prog.resume_snoc {p q q' : Prog} {ph : List Resp} {r : Resp} (hq : p.resume ph = some q)
    (hr : q.resume [r] = some q') : p.resume (ph ++ [r]) = some q' := by
  rw [Prog.resume_append, hq, Option.bind_some, hr]

/-- One primitive from a state put at its phase (`step_position`). -/
theorem step_atPhase {s : State} {i : Instr} {ph : List Resp} {p : Prog} (hin : s.inputs = [])
    (hp : (program s.params i).resume ph = some p) :
    step (s.atPhase i ph) = p.stepOnce i ph (s.atPhase i ph) :=
  step_position (s := s.atPhase i ph) hin rfl hp

/-- From a position of its pseudocode on, the sequencer ends as the rest of the pseudocode run at once
does; the run keeps the phase of the issue. -/
theorem reaches_of_position {i : Instr} {p : Prog} {s : State} {ph : List Resp}
    (hin : s.inputs = []) (hp : (program s.params i).resume ph = some p) :
    (s.atPhase i ph).Reaches (ended (p.run (s.atPhase i []))) := by
  induction p generalizing s ph with
  | ret v => exact .last rfl (step_atPhase hin hp)
  | act a p ih =>
    have rest := ih (s := a.apply s) (ph := ph ++ [.done]) (by simpa using hin)
      (Prog.resume_snoc (by simpa using hp) rfl)
    have moved := step_atPhase hin hp
    rw [Prog.stepOnce, Act.apply_atPhase] at moved
    rw [Prog.run_act, Act.apply_atPhase]
    exact .after rfl moved rest
  | sample f ih =>
    have rest := ih s.busLevel (s := s.afterSample)
      (ph := ph ++ [.level s.busLevel]) hin (Prog.resume_snoc hp rfl)
    exact .after rfl (step_atPhase hin hp) rest
  | recv tmo f ih =>
    have rest := ih s.env.rxDraw.byte? (s := s.afterRecv tmo)
      (ph := ph ++ [.rx s.env.rxDraw.byte?]) hin (Prog.resume_snoc hp rfl)
    exact .after rfl (step_atPhase hin hp) rest
  | nibble f ih =>
    have rest := ih (Config.freeNibble s.freeCount) (s := s.useFree)
      (ph := ph ++ [.nibble (Config.freeNibble s.freeCount)]) hin (Prog.resume_snoc hp rfl)
    exact .after rfl (step_atPhase hin hp) rest
  | load b j f ih =>
    have moved := step_atPhase hin hp
    have same (ph : List Resp) : (s.atPhase i ph).readByte b j = s.readByte b j := rfl
    simp only [Prog.stepOnce, same] at moved
    simp only [Prog.run, same]
    cases hb : s.readByte b j with
    | ok v =>
      rw [hb] at moved
      exact .after rfl moved (ih v hin (Prog.resume_snoc hp rfl))
    | error e =>
      rw [hb] at moved
      exact .last rfl moved
  | reg r f ih =>
    have rest := ih ((s.atPhase i ph).readReg r)
      (ph := ph ++ [.word ((s.atPhase i ph).readReg r)]) hin (Prog.resume_snoc hp rfl)
    rw [Prog.run_reg, s.readReg_atPhase i [] ph]
    exact .after rfl (step_atPhase hin hp) rest
  | refuse r => exact .last rfl (step_atPhase hin hp)

/-- Settles O10: the issue puts the sequencer at the beginning of the operation's pseudocode
(`reaches_of_position`). -/
theorem sequencerDoesWhatTheCallDoes : Obligations.SequencerDoesWhatTheCallDoes := by
  intro i s hi
  rw [exec_operation hi, runOp_eq_ended]
  exact reaches_of_position (s := { s with inputs := [], done := false }) (ph := []) rfl rfl

end Sys2Proof.Machine

/-! Every instruction that is ready completes (R132, R158, R232, R242). -/
namespace Sys2Proof.Machine

/-- The polls end by the last one at the latest (R151). -/
theorem pollLoop_completes {c : Config} (h : SlotsFit c) (n : Nat) (s : State) :
    ∃ r, (pollLoop c n).run s = .next r := by
  induction n generalizing s with
  | zero => exact ⟨_, rfl⟩
  | succ n ih =>
    rw [pollLoop, run_readSlot _ _ _ h.read]
    cases s.env.busLevel with
    | true => exact ⟨_, rfl⟩
    | false => exact ih _

/-- An operation completes where its pseudocode runs to a `return`. -/
theorem exec_completes_of_run {i : Instr} {s : State} (hi : i.isOperation = true)
    (h : ∃ r, (program s.params i).run (s.issue i) = .next r) : ∃ t, exec i s = .next t := by
  obtain ⟨⟨v, u⟩, hu⟩ := h
  exact ⟨_, exec_of_run hi hu⟩

/-- The nine bytes of a sensor that is there are eight and their check byte (R152). -/
theorem sensorRead_completes {s : State} (h : s.params.timingOk = true) :
    ∃ t, exec .sensorRead s = .next t := by
  obtain ⟨-, absent, present⟩ := sensorReadEffect
  cases hl : s.env.busLevel with
  | true => exact ⟨_, absent s h hl⟩
  | false =>
    have nine := s.env.afterBus.busBytes_length 9
    have split := (List.dropLast_append_getLast (List.ne_nil_of_length_eq_add_one nine)).symm
    have eight : (s.env.afterBus.busBytes 9).dropLast.length = 8 := by simp
    exact ⟨_, present s _ _ _ _ h hl split (List.getElem?_eq_getElem (by omega))
      (List.getElem?_eq_getElem (by omega))⟩

section
variable {s : State} (h : s.params.lineCap < 4294967296)
include h

/-- With its payload there, SEND completes whatever the reply and the window's line are (R208). -/
theorem radioSend_completes {conf : Bool} {payload : List Byte}
    (hp : s.string? .opbufB s.opbLen = some payload) : ∃ t, exec (.radioSend conf) s = .next t := by
  refine exec_completes_of_run rfl ?_
  rw [program, run_radioSendProg h hp rfl]
  split
  · exact ⟨_, run_receiveWindow (by simp) h⟩
  · exact ⟨_, run_classifyProg _ ((State.string?_issue ..).trans (string?_exchange _ _ _ _ h))⟩

/-- RESET_DEVICE completes whatever the identity line names (R222). -/
theorem radioReset_completes : ∃ t, exec .radioReset s = .next t := by
  by_cases hv : identify s.params.lits
      (s.reply s.params.lits.cmdSysReset [] s.params.tResetMs) = .unknown
  · exact ⟨_, exec_of_run_issue (i := .radioReset) rfl (run_radioResetProg h hv)⟩
  · exact ⟨_, exec_radioReset_known h rfl hv⟩

end

/-- SLEEP completes on either side of SLEEP_MIN_MS (R227). -/
theorem radioSleep_completes (s : State) : ∃ t, exec .radioSleep s = .next t := by
  obtain ⟨-, sleep⟩ := sleepEffect
  obtain ⟨short, long⟩ := sleep s
  obtain hlt | hle := Nat.lt_or_ge s.params.sleepMinMs s.arg0.toNat
  · exact ⟨_, long hlt⟩
  · exact ⟨_, short hle⟩

/-- RECEIVE of a legal count completes; it reads the payload only where one is pending (R216). -/
theorem radioRecv_completes {s : State} (hc : s.arg1.toNat ≤ s.params.outCap)
    (hp : s.rxPending = true → (s.string? .rxpay s.rxpayLen).isSome) :
    ∃ t, exec .radioRecv s = .next t := by
  cases hr : s.rxPending with
  | false => exact ⟨_, exec_radioRecv_empty hc hr⟩
  | true =>
    obtain ⟨stored, hstored⟩ := Option.isSome_iff_exists.mp (hp hr)
    exact ⟨_, exec_radioRecv_pending hc hr hstored⟩

/-- Settles O52, instruction by instruction: what each one's effect asks for is in the constraints and in
`State.ready`, and the effects' cases exhaust the draws. -/
theorem everyInstructionCompletes : Obligations.EveryInstructionCompletes := by
  intro i s hwf ready
  simp only [Config.wf, Bool.and_eq_true] at hwf
  obtain ⟨⟨⟨⟨⟨⟨timing, -⟩, capacities⟩, -⟩, -⟩, -⟩, -⟩ := hwf
  have cap := lineCap_lt capacities
  obtain ⟨-, -, -, command⟩ := sendCommandEffect
  obtain ⟨skip, convert, scratchpad⟩ := sensorCommandBytesEffect s timing
  cases i with
  | busReset => exact ⟨_, busResetEffect.2 s timing⟩
  | busWbit => exact ⟨_, busWriteBitEffect.2 s timing⟩
  | busRbit => exact ⟨_, busReadBitEffect.2 s timing⟩
  | busWbyte => exact ⟨_, busWriteByteEffect.2 s timing⟩
  | busRbyte => exact ⟨_, busReadByteEffect.2 s timing⟩
  | crcCheck =>
    obtain ⟨hd, he⟩ := State.bytes?_succ_isSome.mp ready
    obtain ⟨-, checks, -⟩ := crcCheckEffect
    exact ⟨_, checks s _ _ (Option.eq_some_of_isSome hd) (Option.eq_some_of_isSome he)⟩
  | sensorStart => exact ⟨_, sensorStartEffect.2 s timing⟩
  | sensorWait => exact exec_completes_of_run rfl (pollLoop_completes (slotsFit timing) _ _)
  | sensorRead => exact sensorRead_completes timing
  | lineRead => exact ⟨_, exec_lineRead s⟩
  | radioCmd =>
    exact ⟨_, (command s _ capacities (Option.eq_some_of_isSome ready)).1⟩
  | radioCmdText =>
    obtain ⟨htext, hparam⟩ := ready
    obtain ⟨-, sent⟩ := command s _ capacities (Option.eq_some_of_isSome htext)
    exact ⟨_, (sent _ (Option.eq_some_of_isSome hparam)).1⟩
  | radioCmdBin =>
    obtain ⟨htext, hparam⟩ := ready
    obtain ⟨-, sent⟩ := command s _ capacities (Option.eq_some_of_isSome htext)
    exact ⟨_, (sent _ (Option.eq_some_of_isSome hparam)).2⟩
  | radioClassify => exact ⟨_, exec_radioClassify (Option.eq_some_of_isSome ready)⟩
  | radioJoin mode =>
    cases mode with
    | otaa | abp =>
      obtain ⟨h1, h2, h3⟩ := ready
      exact ⟨_, exec_radioJoin cap rfl (Option.eq_some_of_isSome h1) (Option.eq_some_of_isSome h2)
        (Option.eq_some_of_isSome h3)⟩
  | radioSend conf => exact radioSend_completes cap (Option.eq_some_of_isSome ready)
  | radioRecv =>
    obtain ⟨legal, there⟩ := ready
    exact radioRecv_completes legal there
  | radioConsume => exact ⟨_, rfl⟩
  | radioReset => exact radioReset_completes cap
  | radioSleep => exact radioSleep_completes s
  | radioWake => exact ⟨_, wakeEffect.2 s⟩
  | skipRom => exact ⟨_, skip⟩
  | startConversion => exact ⟨_, convert⟩
  | readScratchpad => exact ⟨_, scratchpad⟩

end Sys2Proof.Machine

/-! Which requests are refused (60_exceptions.md R246). -/
namespace Sys2Proof.Machine

/-! ## Instructions: RECEIVE alone refuses (R216) -/

section
variable {s : State} {r : Refusal}

theorem load_refused {b : Buf} {j : Nat} {k : Byte → Prog}
    (h : (Prog.load b j k).run s = .refused r) : ∃ v, (k v).run s = .refused r := by
  simp only [Prog.run] at h
  split at h
  · exact ⟨_, h⟩
  · cases h

theorem payloadLength_refused {j n : Nat} {k : Nat → Prog}
    (h : (payloadLength j n k).run s = .refused r) : ∃ len, (k len).run s = .refused r := by
  induction n generalizing j with
  | zero => exact ⟨j, h⟩
  | succ n ih =>
    obtain ⟨b, h⟩ := load_refused h
    split at h
    · exact ⟨j, h⟩
    · exact ih h

/-- The copy loop refuses nothing, whatever the payload holds. -/
theorem copyLoop_not_refused (len room j p : Nat) : (copyLoop len room j p).run s ≠ .refused r := by
  induction room generalizing j p s with
  | zero => nofun
  | succ room ih =>
    intro h
    rw [copyLoop] at h
    split at h
    · obtain ⟨c1, h⟩ := load_refused h
      rw [run_hexVal] at h
      obtain ⟨c2, h⟩ := load_refused h
      rw [run_hexVal, Prog.run_act] at h
      exact ih _ _ h
    · cases h

/-- RECEIVE refuses a count above OUT_CAP and nothing else. -/
theorem radioRecvProg_refused (h : (radioRecvProg s.params).run s = .refused r) :
    s.params.outCap < s.arg1.toNat := by
  rw [radioRecvProg, Prog.run_reg, Prog.run_reg] at h
  by_contra legal
  rw [if_neg (by simpa using legal), Prog.run_reg] at h
  split at h
  · rw [Prog.run_reg] at h
    obtain ⟨len, h⟩ := payloadLength_refused h
    split at h
    · cases h
    · exact copyLoop_not_refused _ _ _ _ h
  · cases h

end

/-- An instruction that refuses met a refusal in its pseudocode, before which an operation is issued. -/
theorem run_of_exec_refused {i : Instr} {s : State} {r : Refusal} (h : exec i s = .refused r) :
    (program s.params i).run (if i.isOperation then s.issue i else s) = .refused r := by
  rw [exec_eq_run] at h
  split at h
  · next hi =>
    rw [if_pos hi]
    unfold runOp at h
    split at h
    · cases h
    · cases h
    · next ran => cases h; exact ran
  · next hi =>
    rw [if_neg hi]
    unfold runPart at h
    split at h
    · cases h
    · cases h
    · next ran => cases h; exact ran

/-- The meanings that refuse: RECEIVE with ARG1 above OUT_CAP (R216). -/
theorem exec_refused_iff {i : Instr} {s : State} :
    (∃ r, exec i s = .refused r) ↔ i = .radioRecv ∧ s.params.outCap < s.arg1.toNat := by
  constructor
  · rintro ⟨r, h⟩
    have ran := run_of_exec_refused h
    obtain rfl := Prog.run_refused (within_program _ i) ran
    exact ⟨rfl, radioRecvProg_refused (s := s.issue .radioRecv) ran⟩
  · rintro ⟨rfl, above⟩
    exact ⟨_, exec_radioRecv_refused above⟩

/-! ## Words (R83, R93) -/

/-- The command bytes that decode are R93's three. -/
theorem exists_decodeBusCmd_iff (b : Byte) :
    (∃ i, decodeBusCmd b = .ok i) ↔ busCmdWellFormed b = true := by
  constructor
  · rintro ⟨i, hi⟩
    have word := encode_of_decodeBusCmd hi
    cases i with
    | radioJoin mode => cases mode <;> cases word
    | radioSend conf => cases word
    | _ => cases word <;> rfl
  · intro h
    simp only [busCmdWellFormed, Bool.or_eq_true, beq_iff_eq] at h
    obtain (rfl | rfl) | rfl := h <;> exact ⟨_, rfl⟩

/-- A word that is asked of the block is refused while an operation runs, where it does not decode, and
where its instruction refuses. -/
theorem runWord_refused_iff {s : State} {iw : InstrWord} :
    (∃ r, runWord s iw = .refused r) ↔
      s.seq ≠ .idle ∨ (¬ ∃ i, decode iw = .ok i)
        ∨ (decode iw = .ok .radioRecv ∧ s.params.outCap < s.arg1.toNat) := by
  rw [runWord]
  by_cases hs : s.seq = .idle
  · rw [s.busy_idle hs]
    cases hd : decode iw with
    | ok i => simp [hs, exec_refused_iff]
    | error e => simp
  · rw [if_pos (s.busy_eq_true.mpr hs)]
    simp [hs]

/-- A write of CMD by its word (R24, R83, R246 conditions 1 and 7). -/
theorem hostIssue_refused_iff {s : State} {w : Word} :
    (∃ r, hostIssue s w = .refused r) ↔
      (cmdFields w).wellFormed = false
        ∨ (decodeCmd w = .ok .radioRecv ∧ s.params.outCap < s.arg1.toNat) := by
  rw [← Bool.not_eq_true, ← exists_decodeCmd_iff]
  cases hd : decodeCmd w with
  | ok i =>
    by_cases above : i = .radioRecv ∧ s.params.outCap < s.arg1.toNat
    · obtain ⟨rfl, above⟩ := above
      simp [hostIssue_aboveOutCap hd above, above]
    · simpa [hostIssue_ok hd above] using above
  | error e => simp [hostIssue, hd]

/-! ## Registers and buffers (R21, R61) -/

/-- The register numbers end at 0x0A (R21). -/
theorem Reg.ofNum_eq_none {n : Nat} : Reg.ofNum n = none ↔ 0x0A < n := by
  simp only [Reg.ofNum, Reg.all, List.find?_eq_none]
  simp [Reg.num]
  omega

/-- The space ids are 1 to 12 (R61). -/
theorem Buf.ofId_eq_none {n : Nat} : Buf.ofId n = none ↔ n = 0 ∨ 12 < n := by
  simp only [Buf.ofId, Buf.all, List.find?_eq_none]
  simp [Buf.id]
  omega

theorem Buf.ofId_eq_some {n : Nat} {b : Buf} : Buf.ofId n = some b ↔ b.id = n := by
  refine ⟨fun h => by simpa using List.find?_some h, ?_⟩
  rintro rfl
  cases b <;> rfl

/-- What lies outside the buffers: a reserved space id, or an index at or above the size (R246
condition 3). -/
theorem outside_iff {c : Config} {space : Byte} {i : Nat} :
    (space = 0 ∨ 12 < space.toNat ∨ ∃ b : Buf, b.id = space.toNat ∧ b.size c ≤ i) ↔
      ∀ b, Buf.ofId space.toNat = some b → b.size c ≤ i := by
  have reserved : (space = 0 ∨ 12 < space.toNat) ↔ Buf.ofId space.toNat = none := by
    rw [Buf.ofId_eq_none, ← BitVec.toNat_inj]
    rfl
  rw [← or_assoc, reserved]
  simp only [← Buf.ofId_eq_some]
  cases Buf.ofId space.toNat <;> simp

/-- The space ids of the buffers the host may not write (R61). -/
theorem readOnly_iff (b : Buf) :
    b.hostWritable = false ↔
      BitVec.ofNat 8 b.id = 2 ∨ BitVec.ofNat 8 b.id = 3 ∨ BitVec.ofNat 8 b.id = 4 := by
  cases b <;> decide

/-! ## Host accesses (R66, R72) -/

section
variable {s : State} {width : Nat}

/-- A register read: a wrong width or a reserved number (R246 conditions 3 and 5). -/
theorem hostReadReg_refused_iff {num : Byte} :
    (∃ r, hostReadReg s width num = .refused r) ↔ width ≠ 32 ∨ 0x0A < num.toNat := by
  rw [← Reg.ofNum_eq_none]
  by_cases hw : width = 32
  · subst hw
    cases hr : Reg.ofNum num.toNat with
    | none => simp [hostReadReg, hr]
    | some r =>
      obtain rfl := eq_ofNat_of_toNat (Reg.num_of_ofNum hr).symm
      cases hf : s.regInFlight r with
      | true => simp [hostReadReg_inFlight hf]
      | false => simp [hostReadReg_current hf]
  · simp [hostReadReg, hw]

/-- A buffer read: a wrong width or no byte there; an unwritten byte is a fault (I4). -/
theorem hostReadBuf_refused_iff {space : Byte} {i : Nat} :
    (∃ r, hostReadBuf s width space i = .refused r) ↔
      width ≠ 8 ∨ ∀ b, Buf.ofId space.toNat = some b → b.size s.params ≤ i := by
  by_cases hw : width = 8
  · subst hw
    cases hb : Buf.ofId space.toNat with
    | none => simp [hostReadBuf, hb]
    | some b =>
      obtain rfl := eq_ofNat_of_toNat (Buf.ofId_eq_some.mp hb).symm
      by_cases hi : b.size s.params ≤ i
      · simp [hostReadBuf_beyond hi, hi]
      have inside := Nat.not_le.mp hi
      cases hf : s.bufInFlight b with
      | true => simp [hostReadBuf_inFlight inside hf, hi]
      | false =>
        cases hv : s.byte? b i with
        | none => simp [hostReadBuf_unwritten inside hf hv, hi]
        | some v => simp [hostReadBuf_written inside hf hv, hi]
  · simp [hostReadBuf, hw]

/-- A buffer write: also while busy, and of a read-only buffer (R246 conditions 2 and 4). -/
theorem hostWriteBuf_refused_iff {space : Byte} {i : Nat} {v : Byte} :
    (∃ r, hostWriteBuf s width space i v = .refused r) ↔
      s.seq ≠ .idle ∨ width ≠ 8 ∨ (space = 2 ∨ space = 3 ∨ space = 4)
        ∨ ∀ b, Buf.ofId space.toNat = some b → b.size s.params ≤ i := by
  by_cases hs : s.seq = .idle
  · by_cases hw : width = 8
    · subst hw
      cases hb : Buf.ofId space.toNat with
      | none => simp [hostWriteBuf, hb, s.busy_idle hs]
      | some b =>
        obtain rfl := eq_ofNat_of_toNat (Buf.ofId_eq_some.mp hb).symm
        rw [← readOnly_iff]
        by_cases hi : b.size s.params ≤ i
        · simp [hostWriteBuf_beyond hs hi, hi]
        · rw [hostWriteBuf_inside hs (Nat.not_le.mp hi)]
          cases b.hostWritable <;> simp [hs, hi]
    · simp [hostWriteBuf, s.busy_idle hs, hw]
  · simp [hostWriteBuf, s.busy_eq_true.mpr hs, hs]

/-- A length above OPBUF_CAP (R246 condition 6). -/
theorem hostSetLength_refused_iff {t : State} {v : Word} :
    (∃ r, hostSetLength s t v = .refused r) ↔ s.params.opbufCap < v.toNat := by
  rw [hostSetLength]
  split <;> simp [*]

/-- A register write, register by register; CMD and the two lengths look at what is written. -/
theorem hostWriteReg_refused_iff {num : Byte} {v : Word} :
    (∃ r, hostWriteReg s width num v = .refused r) ↔ s.refuses (.writeReg width num v) := by
  rw [State.refuses]
  by_cases hs : s.seq = .idle
  · by_cases hw : width = 32
    · rw [hostWriteReg, s.busy_idle hs, ← Reg.ofNum_eq_none]
      cases hr : Reg.ofNum num.toNat with
      | none => simp [hw]
      | some r =>
        obtain rfl := eq_ofNat_of_toNat (Reg.num_of_ofNum hr).symm
        cases r with
        | cmd => simpa [hs, hw, Reg.num] using hostIssue_refused_iff
        | opaLen | opbLen => simpa [hs, hw, Reg.num] using hostSetLength_refused_iff
        | _ => simp [hs, hw, Reg.num]
    · simp [hostWriteReg, s.busy_idle hs, hw]
  · simp [hostWriteReg_busy hs, hs]

end

/-- Settles O20, request by request: each kind's conditions are said once above, a word's by its decoding
and by RECEIVE being the only meaning that refuses (`exec_refused_iff`). -/
theorem refusedExactly : Obligations.RefusedExactly := by
  intro s x hx
  cases x with
  | quiet => exact absurd rfl hx
  | rst => simp [serve, State.refuses]
  | call w =>
    rw [State.refuses, ← Bool.not_eq_true, ← exists_decodeCmd_iff]
    exact runWord_refused_iff
  | busCmd b =>
    have noReceive : decode (.busCmd b) ≠ .ok .radioRecv := fun h =>
      absurd (isOperation_of_decodeBusCmd h) (by decide)
    rw [State.refuses, ← Bool.not_eq_true, ← exists_decodeBusCmd_iff, serve, runWord_refused_iff]
    exact or_congr_right (or_iff_left fun h => noReceive h.1)
  | readReg width num => exact hostReadReg_refused_iff
  | writeReg width num v => exact hostWriteReg_refused_iff
  | readBuf width space i =>
    rw [State.refuses, outside_iff]
    exact hostReadBuf_refused_iff
  | writeBuf width space i v =>
    rw [serve, hostWriteBuf_refused_iff, State.refuses, ← outside_iff]
    tauto

end Sys2Proof.Machine

/-! The hazard of a bus held low (70_reset_and_hazards.md section 3). -/
namespace Sys2Proof.Machine

/-! ## A bus whose level no longer changes (R268) -/

section
variable {e : Env} (h : e.bus = [])
include h

/-- With no draw left the line rests at its level, and a sample takes nothing (log 6). -/
theorem Env.afterBus_eq_self : e.afterBus = e := by
  rw [Env.afterBus, h, List.tail_nil, ← h]

theorem Env.busLevel_eq_rest : e.busLevel = e.busRest := by rw [Env.busLevel, h]

theorem Env.dropBus_eq_self (n : Nat) : e.dropBus n = e := by
  induction n with
  | zero => rfl
  | succ n ih => rw [Env.dropBus, Env.afterBus_eq_self h, ih]

theorem Env.levels_eq_replicate (n : Nat) : e.levels n = List.replicate n e.busRest := by
  induction n with
  | zero => rfl
  | succ n ih =>
    rw [Env.levels, Env.afterBus_eq_self h, ih, Env.busLevel_eq_rest h, List.replicate_succ]

/-- Every byte read from a line that is held low is 0. -/
theorem Env.busBytes_eq_zeros (low : e.busRest = false) (n : Nat) :
    e.busBytes n = List.replicate n 0 := by
  induction n with
  | zero => rfl
  | succ n ih =>
    rw [Env.busBytes, Env.dropBus_eq_self h, ih, Env.levels_eq_replicate h, low, List.replicate_succ]
    rfl

end

/-- Settles O34: all 100 polls read 0, the reset slot reads a presence pulse, and the nine bytes read
are 0, whose CRC is 0 (`crc8_zeros`), so the hazard passes every check. -/
theorem stuckLowBus : Obligations.StuckLowBus := by
  intro s timing noDraws low
  obtain ⟨-, -, timesOut⟩ := sensorWaitEffect
  obtain ⟨-, -, reads⟩ := sensorReadEffect
  have polls : s.env.levels 100 = List.replicate 100 false := by
    rw [Env.levels_eq_replicate noDraws, low]
  have presence : s.env.busLevel = false := (Env.busLevel_eq_rest noDraws).trans low
  have bytes : s.env.afterBus.busBytes 9 = List.replicate 8 0 ++ [0] := by
    rw [Env.afterBus_eq_self noDraws]
    exact Env.busBytes_eq_zeros noDraws low 9
  have valid : crc8 (List.replicate 8 0) = 0 := crc8_zeros 8
  have reading := reads s _ 0 0 0 timing presence bytes rfl rfl
  simp only [valid, decide_true, if_true] at reading
  exact ⟨⟨_, timesOut s timing polls, rfl, rfl⟩, _, reading, rfl, rfl, rfl, rfl⟩

end Sys2Proof.Machine

/-! Block reset and the reset state (70_reset_and_hazards.md, 10_state.md R50). -/
namespace Sys2Proof.Machine

/-! ## What a reset state holds (R50, R260) -/

section
variable (c : Config) (e : Env) (n : Nat)

/-- LINE_END = NoLine is the only field of STATUS that is not 0 (R50). -/
theorem State.afterReset_statusWord : (State.afterReset c e n).statusWord = 0x000000C0 := by
  apply BitVec.eq_of_toNat_eq
  rw [statusWord_toNat]
  rfl

theorem State.afterReset_readReg {r : Reg} (hr : r ≠ .status) :
    (State.afterReset c e n).readReg r = 0 := by
  cases r with
  | status => exact absurd rfl hr
  | _ => rfl

theorem State.afterReset_byte? (b : Buf) (i : Nat) : (State.afterReset c e n).byte? b i = none := rfl

/-- The current line after a reset is the empty one, although no buffer byte holds a value. -/
theorem State.afterReset_line : (State.afterReset c e n).string? .linebuf 0 = some [] :=
  if_pos (Nat.zero_le _)

end

/-! ## RST and the machine's reset state (R260, R263) -/

/-- The empty line is no answer (R105). -/
theorem classifyLine_nil (l : Literals) : classifyLine l [] = .noResponse := if_pos rfl

/-- Settles O12: RST is `State.blockReset`, whose registers, ports and buffers are those of
`State.afterReset` in the state's own environment, whatever ran before. -/
theorem blockReset : Obligations.BlockReset := fun s =>
  ⟨s.blockReset, rfl, State.afterReset_statusWord s.params s.env s.freeCount,
    fun _ => State.afterReset_readReg s.params s.env s.freeCount, rfl, rfl, rfl, rfl,
    State.afterReset_byte? s.params s.env s.freeCount, rfl⟩

/-- Settles O13: the machine's reset state is a `State.afterReset`, and CLASSIFY finds its line empty. -/
theorem resetState : Obligations.ResetState := by
  refine ⟨State.afterReset_statusWord _ _ _, fun _ => State.afterReset_readReg _ _ _, rfl, rfl, rfl, rfl,
    rfl, rfl, rfl, rfl, State.afterReset_byte? _ _ _, _,
    exec_radioClassify (State.afterReset_line _ _ _), ?_⟩
  rw [State.endOp_result, classifyLine_nil]
  rfl

end Sys2Proof.Machine

/-! Words written out bit by bit (30_encoding.md R80 to R83, 95_test_vectors.md V-ENC). -/
namespace Sys2Proof

/-- Settles O1: each legal word is the encoding of its operation, so it decodes by `decode_encode`.
Each other word meets one condition of R83 and no second one, so the reason that the decoder finds does
not turn on the order of its checks. -/
theorem writtenOutWordsDecode : Obligations.WrittenOutWordsDecode := by
  have reservedPkind : decodeCmd 0x00000C40 = .error .reservedPkind := rfl
  have strayMode : decodeCmd 0x00000343 = .error .strayMode := rfl
  have strayConf : decodeCmd 0x00000101 = .error .strayConf := rfl
  have strayPkind : decodeCmd 0x00000441 = .error .strayPkind := rfl
  have reservedOp : decodeCmd 0x00000006 = .error .reservedOp := rfl
  have reservedBits : decodeCmd 0x80000048 = .error .reservedBits := rfl
  exact ⟨decode_encode .busReset, decode_encode .crcCheck, decode_encode .sensorRead,
    decode_encode .lineRead, decode_encode .radioCmdBin, decode_encode (.radioJoin .abp),
    decode_encode (.radioSend true), decode_encode .skipRom, decode_encode .startConversion,
    decode_encode .readScratchpad, reservedPkind, strayMode, strayConf, strayPkind, reservedOp,
    reservedBits⟩

end Sys2Proof
